-- ==== Sys2Proof/Word.lean ====
section
/-! DEFINITION. The widths of the machine's words (spec/00_scope.md R8, R10; spec/10_state.md).
Every value of the instruction set is an unsigned bit vector; indexes are `Fin`. -/

namespace Sys2Proof

/-- A byte of memory or a general register (R20, R51). -/
abbrev Byte := BitVec 8

/-- A 16-bit value: an instruction word, `PC`, `I`, a stack entry (R23, R25, R28, R70). -/
abbrev Word := BitVec 16

/-- The 12-bit constant `nnn` of an instruction (R73). -/
abbrev Addr12 := BitVec 12

/-- The 4-bit count `n` of draw (R73). -/
abbrev Nibble := BitVec 4

/-- The index of a general register, `V[0]` to `V[15]` (R20). -/
abbrev Reg := Fin 16

/-- A logical key code, 0 to 15 (R42). -/
abbrev Key := Fin 16

/-- A column of the display grid, 0 to 63 (R40). -/
abbrev Column := Fin 64

/-- A row of the display grid, 0 to 31 (R40). -/
abbrev Row := Fin 32

/-- The flag register `V[15]` (R22). -/
abbrev flagReg : Reg := 15

end Sys2Proof
end

