-- ==== Sys2Proof/Machine/Flags.lean ====
section
/-! DEFINITION. Every flag computation of the instruction set (spec/10_state.md R22) and the byte a flag is
written as (R97, D37). -/

namespace Sys2Proof.Machine

/-- A flag as `V[15]` holds it: 0x01 or 0x00 (R97). -/
def flagByte (b : Bool) : Byte := if b then 0x01#8 else 0x00#8

/-- reg-add: the unsigned sum is 256 or more (R136). -/
def carries (a b : Byte) : Bool := decide (256 ≤ a.toNat + b.toNat)

/-- reg-sub and reg-subn: `a - b` has no borrow, `a >= b` (R137, R138). -/
def noBorrow (a b : Byte) : Bool := decide (b.toNat ≤ a.toNat)

/-- shift-right: the bit shifted out, bit 0 (R139). -/
def lowBit (a : Byte) : Bool := a.getLsbD 0

/-- shift-left: the bit shifted out, bit 7 (R140). -/
def highBit (a : Byte) : Bool := a.getLsbD 7

/-- add-index: the new `I` is greater than 0xFFF (R161). -/
def pastMemory (i : Word) : Bool := decide (0x0FFF < i.toNat)

end Sys2Proof.Machine
end

