-- ==== Sys2Proof/Syntax.lean ====
section
/-! DEFINITION. The instructions: one constructor for each row of spec/opcode_table.json, in the order of the
table of spec/30_encoding.md R75.  A constructor carries only the fields its family needs (R74). -/

namespace Sys2Proof

/-- One decoded instruction (spec/30_encoding.md R74, R75). -/
inductive Instr
  /-- `00E0` (R180) -/
  | clearScreen
  /-- `00EE` (R110) -/
  | ret
  /-- `1nnn` (R111) -/
  | jump (nnn : Addr12)
  /-- `2nnn` (R112) -/
  | call (nnn : Addr12)
  /-- `3xnn` (R113) -/
  | skipEqConst (x : Reg) (nn : Byte)
  /-- `4xnn` (R114) -/
  | skipNeConst (x : Reg) (nn : Byte)
  /-- `5xy0` (R115) -/
  | skipEqReg (x y : Reg)
  /-- `6xnn` (R130) -/
  | setConst (x : Reg) (nn : Byte)
  /-- `7xnn` (R131) -/
  | addConst (x : Reg) (nn : Byte)
  /-- `8xy0` (R132) -/
  | regCopy (x y : Reg)
  /-- `8xy1` (R133) -/
  | regOr (x y : Reg)
  /-- `8xy2` (R134) -/
  | regAnd (x y : Reg)
  /-- `8xy3` (R135) -/
  | regXor (x y : Reg)
  /-- `8xy4` (R136) -/
  | regAdd (x y : Reg)
  /-- `8xy5` (R137) -/
  | regSub (x y : Reg)
  /-- `8xy6` (R139) -/
  | shiftRight (x y : Reg)
  /-- `8xy7` (R138) -/
  | regSubn (x y : Reg)
  /-- `8xyE` (R140) -/
  | shiftLeft (x y : Reg)
  /-- `9xy0` (R116) -/
  | skipNeReg (x y : Reg)
  /-- `Annn` (R160) -/
  | setIndex (nnn : Addr12)
  /-- `Bnnn` (R117) -/
  | jumpOffset (nnn : Addr12)
  /-- `Cxnn` (R141) -/
  | random (x : Reg) (nn : Byte)
  /-- `Dxyn` (R181) -/
  | draw (x y : Reg) (n : Nibble)
  /-- `Ex9E` (R184) -/
  | skipKeyDown (x : Reg)
  /-- `ExA1` (R185) -/
  | skipKeyUp (x : Reg)
  /-- `Fx07` (R186) -/
  | getDelay (x : Reg)
  /-- `Fx0A` (R189) -/
  | waitKey (x : Reg)
  /-- `Fx15` (R187) -/
  | setDelay (x : Reg)
  /-- `Fx18` (R188) -/
  | setSound (x : Reg)
  /-- `Fx1E` (R161) -/
  | addIndex (x : Reg)
  /-- `Fx29` (R162) -/
  | fontAddress (x : Reg)
  /-- `Fx33` (R163) -/
  | storeBcd (x : Reg)
  /-- `Fx55` (R164) -/
  | storeRegs (x : Reg)
  /-- `Fx65` (R165) -/
  | loadRegs (x : Reg)
  /-- any other word, carried raw (R74, R200) -/
  | unknown (w : Word)
deriving DecidableEq, Repr

end Sys2Proof
end

