-- ==== Sys2Proof/WellFormed.lean ====
section
/-! DEFINITION. The opcode map of spec/30_encoding.md R75 as rows of mask and pattern, and the check that an
instruction is well formed.  The operand fields are bounded by their types; the one check left is that
`unknown` carries a word that no row of the map claims (R74, R77). -/

namespace Sys2Proof

/-- One row of the opcode map (R75): a word `w` is of the row's family iff `w & mask = pattern`. -/
structure OpcodeRow where
  mnemonic : String
  mask : Word
  pattern : Word
deriving DecidableEq, Repr

/-- The word is of this row's family (R75, R76). -/
def OpcodeRow.hits (r : OpcodeRow) (w : Word) : Bool := w &&& r.mask == r.pattern

/-- Rows of R75: clear-screen to skip-ne-const. -/
def opcodeRows1 : List OpcodeRow :=
  [ ⟨"clear-screen", 0xFFFF#16, 0x00E0#16⟩
  , ⟨"return", 0xFFFF#16, 0x00EE#16⟩
  , ⟨"jump", 0xF000#16, 0x1000#16⟩
  , ⟨"call", 0xF000#16, 0x2000#16⟩
  , ⟨"skip-eq-const", 0xF000#16, 0x3000#16⟩
  , ⟨"skip-ne-const", 0xF000#16, 0x4000#16⟩ ]

/-- Rows of R75: skip-eq-reg to add-const. -/
def opcodeRows2 : List OpcodeRow :=
  [ ⟨"skip-eq-reg", 0xF00F#16, 0x5000#16⟩
  , ⟨"set-const", 0xF000#16, 0x6000#16⟩
  , ⟨"add-const", 0xF000#16, 0x7000#16⟩ ]

/-- Rows of R75: reg-copy to shift-left. -/
def opcodeRows3 : List OpcodeRow :=
  [ ⟨"reg-copy", 0xF00F#16, 0x8000#16⟩
  , ⟨"reg-or", 0xF00F#16, 0x8001#16⟩
  , ⟨"reg-and", 0xF00F#16, 0x8002#16⟩
  , ⟨"reg-xor", 0xF00F#16, 0x8003#16⟩
  , ⟨"reg-add", 0xF00F#16, 0x8004#16⟩
  , ⟨"reg-sub", 0xF00F#16, 0x8005#16⟩
  , ⟨"shift-right", 0xF00F#16, 0x8006#16⟩
  , ⟨"reg-subn", 0xF00F#16, 0x8007#16⟩
  , ⟨"shift-left", 0xF00F#16, 0x800E#16⟩ ]

/-- Rows of R75: skip-ne-reg to skip-key-down. -/
def opcodeRows4 : List OpcodeRow :=
  [ ⟨"skip-ne-reg", 0xF00F#16, 0x9000#16⟩
  , ⟨"set-index", 0xF000#16, 0xA000#16⟩
  , ⟨"jump-offset", 0xF000#16, 0xB000#16⟩
  , ⟨"random", 0xF000#16, 0xC000#16⟩
  , ⟨"draw", 0xF000#16, 0xD000#16⟩
  , ⟨"skip-key-down", 0xF0FF#16, 0xE09E#16⟩ ]

/-- Rows of R75: skip-key-up to load-regs. -/
def opcodeRows5 : List OpcodeRow :=
  [ ⟨"skip-key-up", 0xF0FF#16, 0xE0A1#16⟩
  , ⟨"get-delay", 0xF0FF#16, 0xF007#16⟩
  , ⟨"wait-key", 0xF0FF#16, 0xF00A#16⟩
  , ⟨"set-delay", 0xF0FF#16, 0xF015#16⟩
  , ⟨"set-sound", 0xF0FF#16, 0xF018#16⟩
  , ⟨"add-index", 0xF0FF#16, 0xF01E#16⟩
  , ⟨"font-address", 0xF0FF#16, 0xF029#16⟩
  , ⟨"store-bcd", 0xF0FF#16, 0xF033#16⟩
  , ⟨"store-regs", 0xF0FF#16, 0xF055#16⟩
  , ⟨"load-regs", 0xF0FF#16, 0xF065#16⟩ ]

/-- The 34 rows of the opcode map (R75), in the table's order. -/
def opcodeRows : List OpcodeRow :=
  opcodeRows1 ++ opcodeRows2 ++ opcodeRows3 ++ opcodeRows4 ++ opcodeRows5

/-- Some row of the opcode map claims the word; the words of which this is false are the `unknown` space
(R77). -/
def isListed (w : Word) : Bool := opcodeRows.any (fun r => r.hits w)

/-- The row of the opcode map an instruction belongs to, by its mnemonic in spec/opcode_table.json. -/
def Instr.mnemonic : Instr → String
  | .clearScreen => "clear-screen"
  | .ret => "return"
  | .jump _ => "jump"
  | .call _ => "call"
  | .skipEqConst _ _ => "skip-eq-const"
  | .skipNeConst _ _ => "skip-ne-const"
  | .skipEqReg _ _ => "skip-eq-reg"
  | .setConst _ _ => "set-const"
  | .addConst _ _ => "add-const"
  | .regCopy _ _ => "reg-copy"
  | .regOr _ _ => "reg-or"
  | .regAnd _ _ => "reg-and"
  | .regXor _ _ => "reg-xor"
  | .regAdd _ _ => "reg-add"
  | .regSub _ _ => "reg-sub"
  | .shiftRight _ _ => "shift-right"
  | .regSubn _ _ => "reg-subn"
  | .shiftLeft _ _ => "shift-left"
  | .skipNeReg _ _ => "skip-ne-reg"
  | .setIndex _ => "set-index"
  | .jumpOffset _ => "jump-offset"
  | .random _ _ => "random"
  | .draw _ _ _ => "draw"
  | .skipKeyDown _ => "skip-key-down"
  | .skipKeyUp _ => "skip-key-up"
  | .getDelay _ => "get-delay"
  | .waitKey _ => "wait-key"
  | .setDelay _ => "set-delay"
  | .setSound _ => "set-sound"
  | .addIndex _ => "add-index"
  | .fontAddress _ => "font-address"
  | .storeBcd _ => "store-bcd"
  | .storeRegs _ => "store-regs"
  | .loadRegs _ => "load-regs"
  | .unknown _ => "unknown"

/-- The check on an instruction: `unknown` carries an unlisted word (R74); every other constructor is well
formed by its types. -/
def Instr.wellFormed : Instr → Bool
  | .clearScreen => true
  | .ret => true
  | .jump _ => true
  | .call _ => true
  | .skipEqConst _ _ => true
  | .skipNeConst _ _ => true
  | .skipEqReg _ _ => true
  | .setConst _ _ => true
  | .addConst _ _ => true
  | .regCopy _ _ => true
  | .regOr _ _ => true
  | .regAnd _ _ => true
  | .regXor _ _ => true
  | .regAdd _ _ => true
  | .regSub _ _ => true
  | .shiftRight _ _ => true
  | .regSubn _ _ => true
  | .shiftLeft _ _ => true
  | .skipNeReg _ _ => true
  | .setIndex _ => true
  | .jumpOffset _ => true
  | .random _ _ => true
  | .draw _ _ _ => true
  | .skipKeyDown _ => true
  | .skipKeyUp _ => true
  | .getDelay _ => true
  | .waitKey _ => true
  | .setDelay _ => true
  | .setSound _ => true
  | .addIndex _ => true
  | .fontAddress _ => true
  | .storeBcd _ => true
  | .storeRegs _ => true
  | .loadRegs _ => true
  | .unknown w => !isListed w

end Sys2Proof
end

