-- ==== Sys2Proof/Decode.lean ====
section
/-! DEFINITION. The decoder, total on every word and on any bytes (spec/30_encoding.md R70 to R78), and after
it the encoder, written from the same formats (R71).  The patterns of 30 families and the places of `y` and `n` are the
conventional ones (PRESUMED 1, unsafe), and matching is strict (R76, UNVERIFIED 2, unsafe). -/

namespace Sys2Proof

/-- `v[hi:lo]` of R10: the field of a word from bit `hi` down to bit `lo`, as an unsigned number. -/
def bits (w : Word) (hi lo : Nat) : Nat := w.toNat / 2 ^ lo % 2 ^ (hi + 1 - lo)

/-- `F = w[15:12]`, the family nibble (R13, R71). -/
def fieldF (w : Word) : Nat := bits w 15 12

/-- `x = w[11:8]`, the first register index (R13, R71). -/
def fieldX (w : Word) : Reg := Fin.ofNat 16 (bits w 11 8)

/-- `y = w[7:4]`, the second register index (R13, R71; R72: position from general knowledge). -/
def fieldY (w : Word) : Reg := Fin.ofNat 16 (bits w 7 4)

/-- `n = w[3:0]` as a number, the sub-opcode of families 5, 8 and 9 (R13, R71). -/
def fieldN (w : Word) : Nat := bits w 3 0

/-- `nn = w[7:0]` as a number, the sub-opcode of families E and F (R13, R71). -/
def fieldNN (w : Word) : Nat := bits w 7 0

/-- `n` as draw's 4-bit count (R73). -/
def constN (w : Word) : Nibble := BitVec.ofNat 4 (fieldN w)

/-- `nn` as an 8-bit constant (R73). -/
def constNN (w : Word) : Byte := BitVec.ofNat 8 (fieldNN w)

/-- `nnn = w[11:0]` as a 12-bit constant (R13, R73). -/
def constNNN (w : Word) : Addr12 := BitVec.ofNat 12 (bits w 11 0)

/-- Family 0: `00E0` and `00EE` need all 16 bits (R76). -/
def decodeFamily0 (w : Word) : Instr :=
  if w = 0x00E0#16 then .clearScreen
  else if w = 0x00EE#16 then .ret
  else .unknown w

/-- Family 8: the low nibble selects the operation (R75, R76). -/
def decodeFamily8 (w : Word) : Instr :=
  match fieldN w with
  | 0x0 => .regCopy (fieldX w) (fieldY w)
  | 0x1 => .regOr (fieldX w) (fieldY w)
  | 0x2 => .regAnd (fieldX w) (fieldY w)
  | 0x3 => .regXor (fieldX w) (fieldY w)
  | 0x4 => .regAdd (fieldX w) (fieldY w)
  | 0x5 => .regSub (fieldX w) (fieldY w)
  | 0x6 => .shiftRight (fieldX w) (fieldY w)
  | 0x7 => .regSubn (fieldX w) (fieldY w)
  | 0xE => .shiftLeft (fieldX w) (fieldY w)
  | _ => .unknown w

/-- Family E: the low byte selects the operation (R75, R76). -/
def decodeFamilyE (w : Word) : Instr :=
  if fieldNN w = 0x9E then .skipKeyDown (fieldX w)
  else if fieldNN w = 0xA1 then .skipKeyUp (fieldX w)
  else .unknown w

/-- Family F: the low byte selects the operation (R75, R76). -/
def decodeFamilyF (w : Word) : Instr :=
  if fieldNN w = 0x07 then .getDelay (fieldX w)
  else if fieldNN w = 0x0A then .waitKey (fieldX w)
  else if fieldNN w = 0x15 then .setDelay (fieldX w)
  else if fieldNN w = 0x18 then .setSound (fieldX w)
  else if fieldNN w = 0x1E then .addIndex (fieldX w)
  else if fieldNN w = 0x29 then .fontAddress (fieldX w)
  else if fieldNN w = 0x33 then .storeBcd (fieldX w)
  else if fieldNN w = 0x55 then .storeRegs (fieldX w)
  else if fieldNN w = 0x65 then .loadRegs (fieldX w)
  else .unknown w

/-- The decoder (R74): every one of the 65536 words decodes to exactly one family, by the family nibble
first and every fixed bit after it (R76). -/
def decodeWord (w : Word) : Instr :=
  match fieldF w with
  | 0x0 => decodeFamily0 w
  | 0x1 => .jump (constNNN w)
  | 0x2 => .call (constNNN w)
  | 0x3 => .skipEqConst (fieldX w) (constNN w)
  | 0x4 => .skipNeConst (fieldX w) (constNN w)
  | 0x5 => if fieldN w = 0 then .skipEqReg (fieldX w) (fieldY w) else .unknown w
  | 0x6 => .setConst (fieldX w) (constNN w)
  | 0x7 => .addConst (fieldX w) (constNN w)
  | 0x8 => decodeFamily8 w
  | 0x9 => if fieldN w = 0 then .skipNeReg (fieldX w) (fieldY w) else .unknown w
  | 0xA => .setIndex (constNNN w)
  | 0xB => .jumpOffset (constNNN w)
  | 0xC => .random (fieldX w) (constNN w)
  | 0xD => .draw (fieldX w) (fieldY w) (constN w)
  | 0xE => decodeFamilyE w
  | _ => decodeFamilyF w

/-- `MEM[A] || MEM[A + 1]`: the byte at the lower address is bits 15:8 (R59, R92). -/
def wordOfBytes (hi lo : Byte) : Word := BitVec.ofNat 16 (hi.toNat * 256 + lo.toNat)

/-- The byte of a word stored at the lower address: bits 15:8 (R59). -/
def highByte (w : Word) : Byte := BitVec.ofNat 8 (w.toNat / 256)

/-- The byte of a word stored at the higher address: bits 7:0 (R59). -/
def lowByte (w : Word) : Byte := BitVec.ofNat 8 w.toNat

/-- The two bytes of a word in memory order (R59). -/
def bytesOfWord (w : Word) : List Byte := [highByte w, lowByte w]

/-- Why bytes are no instruction.  A word always decodes (R74), so fewer than two bytes (R70) is the one
reason. -/
inductive DecodeError
  /-- fewer than the two bytes of an instruction (R70) -/
  | truncated
deriving DecidableEq, Repr

/-- Decoding bytes: the first instruction and the bytes after it (R70, R74). -/
def decode : List Byte → Except DecodeError (Instr × List Byte)
  | hi :: lo :: rest => .ok (decodeWord (wordOfBytes hi lo), rest)
  | [_] => .error .truncated
  | [] => .error .truncated

/-- The host's question: the instruction of the word `w` numbered as spec/opcode_table.json numbers it, laid
out as the hardware stores it and given to the decoder. -/
def decodeTableWord (nbits w : Nat) : Option Instr :=
  match decode (bytesOfWord (BitVec.ofNat 16 (w % 2 ^ nbits))) with
  | .ok (i, _) => some i
  | .error _ => none

/-- Format `A`: `ffff kkkk kkkk kkkk` (R71). -/
def formatA (f : Nat) (nnn : Addr12) : Word := BitVec.ofNat 16 (f * 4096 + nnn.toNat)

/-- Formats `XK` and `X`: `ffff xxxx kkkk kkkk` (R71). -/
def formatXK (f : Nat) (x : Reg) (nn : Byte) : Word := BitVec.ofNat 16 (f * 4096 + x.val * 256 + nn.toNat)

/-- Formats `XY` and `XYN`: `ffff xxxx yyyy nnnn` (R71). -/
def formatXYN (f : Nat) (x y : Reg) (n : Nibble) : Word :=
  BitVec.ofNat 16 (f * 4096 + x.val * 256 + y.val * 16 + n.toNat)

/-- The encoder: the word of an instruction (R71, R75). -/
def encode : Instr → Word
  | .clearScreen => 0x00E0#16
  | .ret => 0x00EE#16
  | .jump nnn => formatA 0x1 nnn
  | .call nnn => formatA 0x2 nnn
  | .skipEqConst x nn => formatXK 0x3 x nn
  | .skipNeConst x nn => formatXK 0x4 x nn
  | .skipEqReg x y => formatXYN 0x5 x y 0x0#4
  | .setConst x nn => formatXK 0x6 x nn
  | .addConst x nn => formatXK 0x7 x nn
  | .regCopy x y => formatXYN 0x8 x y 0x0#4
  | .regOr x y => formatXYN 0x8 x y 0x1#4
  | .regAnd x y => formatXYN 0x8 x y 0x2#4
  | .regXor x y => formatXYN 0x8 x y 0x3#4
  | .regAdd x y => formatXYN 0x8 x y 0x4#4
  | .regSub x y => formatXYN 0x8 x y 0x5#4
  | .shiftRight x y => formatXYN 0x8 x y 0x6#4
  | .regSubn x y => formatXYN 0x8 x y 0x7#4
  | .shiftLeft x y => formatXYN 0x8 x y 0xE#4
  | .skipNeReg x y => formatXYN 0x9 x y 0x0#4
  | .setIndex nnn => formatA 0xA nnn
  | .jumpOffset nnn => formatA 0xB nnn
  | .random x nn => formatXK 0xC x nn
  | .draw x y n => formatXYN 0xD x y n
  | .skipKeyDown x => formatXK 0xE x 0x9E#8
  | .skipKeyUp x => formatXK 0xE x 0xA1#8
  | .getDelay x => formatXK 0xF x 0x07#8
  | .waitKey x => formatXK 0xF x 0x0A#8
  | .setDelay x => formatXK 0xF x 0x15#8
  | .setSound x => formatXK 0xF x 0x18#8
  | .addIndex x => formatXK 0xF x 0x1E#8
  | .fontAddress x => formatXK 0xF x 0x29#8
  | .storeBcd x => formatXK 0xF x 0x33#8
  | .storeRegs x => formatXK 0xF x 0x55#8
  | .loadRegs x => formatXK 0xF x 0x65#8
  | .unknown w => w

/-- The bytes of an instruction in memory order (R59, R70). -/
def encodeBytes (i : Instr) : List Byte := bytesOfWord (encode i)

end Sys2Proof
end

