-- ==== Sys2Proof/Config.lean ====
section
/-! DEFINITION. The parameters of the block (spec/00_scope.md R8, R9, R12) and the FREE VALUES the
spec leaves to the host: what the environment presents on the block's input ports (R226, R230, R231, R234,
R223, R225; D8, D19, D23, D32).  A free value is an opaque constant without a body: nothing in Lean can evaluate it, so
a theorem that mentions one holds whatever the environment does.  All but `t0` and
`quitIn` are applied to `State.draws`, the counter of host draws (DESIGN CHOICE 5, safe: notes/assumptions/5.md). -/

namespace Sys2Proof

/-- `GLYPH_WRITE_POLICY` (R53, D6): what a data write to the glyph region does. -/
inductive GlyphWritePolicy
  /-- the default: the write raises `GLYPH_WRITE` -/
  | fault
  /-- the region is ordinary writable memory -/
  | allow
deriving DecidableEq, Repr

/-- The rates of the two actions, a configuration (R8, R12). -/
structure Rates where
  /-- `TIMER_HZ`, timer actions per second -/
  timerHz : ℕ+
  /-- `INSN_HZ`, instruction actions per second -/
  insnHz : ℕ+
deriving DecidableEq, Repr

/-- The base units of time in one second (R12): twice the least common multiple of the two rates, so that both periods
are whole numbers at any rates, and the unit is R12's 1/4200 s at the default ones.  R12 calls 4200 their least common
multiple, which is 2100 (DESIGN CHOICE 24, safe). -/
def Rates.unitsPerSecond (r : Rates) : Nat := 2 * Nat.lcm r.timerHz r.insnHz

/-- `TIMER_PERIOD` (R12, R218), 70 units at the default rates. -/
def Rates.timerPeriod (r : Rates) : Nat := r.unitsPerSecond / r.timerHz

/-- `INSN_PERIOD` (R12, R218), 6 units at the default rates. -/
def Rates.insnPeriod (r : Rates) : Nat := r.unitsPerSecond / r.insnHz

namespace Config

/-- Memory size in bytes (R8, R51). -/
def memSize : Nat := 4096

/-- The first address past the glyph region 0x000..0x04F (R8, R52). -/
def glyphEnd : Nat := 80

/-- The address the program is loaded at (R8, R52). -/
def progBase : Nat := 0x200

/-- The longest program image in bytes (R8, R56). -/
def progMax : Nat := 3584

/-- `RESET_PC` (R9, R241; 90_conflicts.md C1; UNVERIFIED 14, unsafe). -/
def resetPc : Word := 0x200#16

/-- The default of `TIMER_HZ` (R8; UNVERIFIED 20, unsafe). -/
def timerHz : ℕ+ := 60

/-- The default of `INSN_HZ` (R8; UNVERIFIED 20, unsafe). -/
def insnHz : ℕ+ := 700

/-- The default rates (R8). -/
def defaultRates : Rates := { timerHz := timerHz, insnHz := insnHz }

/-- Free: `t0`, the clock sample the scheduler takes when it starts (R38, R240 step 5). -/
opaque t0 : Nat

/-- Free: after how many instruction actions of a run the host sets the `quit` port, or none where it never does (R9,
R225, D32). -/
opaque quitIn : Option Nat

/-- Free: the byte on the `rand` port for one execution of random (R234, D8). -/
opaque randDraw : Nat → Byte

/-- Free: `KEYDOWN` as a pump of the input collaborator leaves it (R231, D19). -/
opaque keyDownDraw : Nat → Vector Bool 16

/-- Free: `RELEASED` as a pump of the input collaborator leaves it (R231, D19). -/
opaque releasedDraw : Nat → Option Key

/-- Free: the `frame_open` port as the next draw finds it, once a frame has been presented (R230, D19). -/
opaque frameOpenDraw : Nat → Bool

/-- Free: the clock samples that come too early for an instruction action, any number of them, each as the units
since the one before (R223, D23). -/
opaque earlyDraw : Nat → List Nat

/-- Free: how late past the instruction period the clock sample of the next instruction action comes
(R222, R223, D23). -/
opaque lateDraw : Nat → Nat

end Config
end Sys2Proof
end

