-- ==== Sys2Proof/Machine/State.lean ====
section
/-! DEFINITION. The state of the machine as plain data: every piece of state of spec/10_state.md, memory
(spec/20_memory.md), the collaborators' state the core observes (R40 to R43), the input ports the host drives
(R226), and the outputs of the last step; and the state after reset (R45, R240). -/

namespace Sys2Proof.Machine

/-- `MEM` (R50, R51): the (address, byte) pairs that differ from the reset contents, addresses strictly
rising.  What an unlisted address reads as is `unlistedByte` of Machine/Memory.lean. -/
abbrev Memory := List Host.Cell

/-- The display grid (R40): 32 rows of 64 pixels; `Grid.pixel` of Machine/Ops.lean reads `DISP[c][r]`. -/
abbrev Grid := Vector (Vector Bool 64) 32

/-- The causes of `FAULT_CAUSE` (R35, R211), in the order of their codes 0 to 6. -/
inductive FaultCause
  /-- 0, no fault has occurred -/
  | none
  /-- 1, raised at fetch when `PC > 0xFFE` -/
  | fetchOutOfRange
  /-- 2, raised by call when `SP = 16` -/
  | stackOverflow
  /-- 3, raised by return when `SP = 0` -/
  | stackUnderflow
  /-- 4, raised by draw and load-regs when an address read is above 0xFFF -/
  | readOutOfRange
  /-- 5, raised by store-bcd and store-regs when an address written is above 0xFFF -/
  | writeOutOfRange
  /-- 6, raised by store-bcd and store-regs when an address written is in 0x000..0x04F -/
  | glyphWrite
deriving DecidableEq, Repr

/-- A pulse on one of the block's output ports (R226). -/
inductive Output
  /-- `tone` (R221, R232) -/
  | tone
  /-- `disp_clear` (R227) -/
  | clear
  /-- `disp_toggle` with `disp_toggle_x` and `disp_toggle_y` (R228) -/
  | toggle (c : Column) (r : Row)
  /-- `disp_present` (R229) -/
  | present
  /-- `input_pump` (R231) -/
  | pump
  /-- `diag_unknown` with `diag_word` and `diag_addr` (R201) -/
  | diagUnknown (word addr : Word)
deriving DecidableEq, Repr

/-- Why a run stops for the host.  A fault of the block itself is NOT one of these: it is a next state with
`HALTED = 1` (R213). -/
inductive Fault
  /-- Raised by `step` when the host's `quit` port is set: the run ended with the iteration before (R225,
  R247), and nothing after it is defined.  Safe: no state is claimed after the end of a run. -/
  | runEnded
deriving DecidableEq, Repr

/-- Why the model gives no meaning. -/
inductive Refusal
  /-- Raised by an arm of `exec` for an instruction without a meaning; no arm does.  Safe. -/
  | notModelled (mnemonic : String)
  /-- Raised by `boot`: the image could not be read or is longer than 3584 bytes, and the block does not start
  (R56, R233, R242).  Safe: no instruction runs. -/
  | loadFailure
  /-- Raised by `boot`: a collaborator did not initialise, and the block does not start (R233, R242).  Safe: no
  instruction runs. -/
  | collaboratorInitFailure
deriving DecidableEq, Repr

/-- Everything the spec gives the machine.  The last group is the model's own. -/
structure State where
  /-- `V[0]`..`V[15]` (R20); `V[15]` is the flag register (R22) -/
  v : Vector Byte 16
  /-- `I` (R23) -/
  i : Word
  /-- `PC` (R25) -/
  pc : Word
  /-- `SP`, 0 to 16 (R29) -/
  sp : Fin 17
  /-- `STACK[0]`..`STACK[15]` (R28) -/
  stack : Vector Word 16
  /-- `DT` (R31) -/
  dt : Byte
  /-- `ST` (R32) -/
  st : Byte
  /-- `MEM` (R50, R51) -/
  mem : Memory
  /-- `HALTED` (R34) -/
  halted : Bool
  /-- `FAULT_CAUSE` (R35) -/
  faultCause : FaultCause
  /-- `FAULT_PC` (R36) -/
  faultPc : Word
  /-- `FAULT_INFO` (R37) -/
  faultInfo : Word
  /-- `T_TIMER` (R38) -/
  tTimer : Nat
  /-- `T_INSN` (R38) -/
  tInsn : Nat
  /-- `IR` (R39) -/
  ir : Word
  /-- `A`, the fetch address (R39) -/
  fetchAddr : Word
  /-- `DISP` (R40), the display collaborator's grid -/
  disp : Grid
  /-- the visible frame, what the last `present()` showed (R229) -/
  visible : Grid
  /-- when the last present was accepted (R41, R230); none before any present -/
  lastPresent : Option Nat
  /-- `FRAME_OPEN` (R41), the `frame_open` port as the next draw finds it -/
  frameOpen : Bool
  /-- `KEYDOWN[0]`..`KEYDOWN[15]` (R42), the `key_down` port -/
  keyDown : Vector Bool 16
  /-- `RELEASED` (R43), the `released_valid` and `released_code` ports -/
  released : Option Key
  /-- the clock sample of the present iteration, the `now` port (R218, R226) -/
  now : Nat
  /-- the `rand` port as the next execution of random finds it (R44, R234) -/
  rand : Byte
  /-- the host's draw for the `quit` port (R225, D32): after how many more instruction actions it is set, none where it
  never is; `State.quit` of Machine/Ops.lean is the port -/
  quitIn : Option Nat
  /-- `GLYPH_WRITE_POLICY` (R53), a configuration that no step changes -/
  glyphPolicy : GlyphWritePolicy
  /-- `TIMER_HZ` and `INSN_HZ` (R8), a configuration that no step changes -/
  rates : Rates
  /-- the model's own: the host's draw for the clock samples of the next iterations that come too early for an
  instruction action, each as the units since the one before (R223) -/
  earlyDraw : List Nat
  /-- the model's own: the host's draw for the clock sample of the next instruction action (R223) -/
  lateDraw : Nat
  /-- the model's own: how many host draws have been taken, the argument of the free values of Config -/
  draws : Nat
  /-- the output pulses of the last step, in order (R226; DESIGN CHOICE 21, safe) -/
  out : List Output
deriving DecidableEq, Repr

/-- A grid with every pixel false (R40, R227). -/
def blankGrid : Grid := Vector.replicate 32 (Vector.replicate 64 false)

/-- The machine right after reset with no program image loaded (R45, R240): memory lists nothing, so it reads
as the glyphs and zeros.  The clock's first sample and the host's draws are free values (DESIGN CHOICE 5, safe).
The spec gives no reset value for `ir` and `fetchAddr` (DESIGN CHOICE 11, unsafe) nor for `visible` and `lastPresent`
(DESIGN CHOICE 13, unsafe).  When the host quits is a free value too (D32; DESIGN CHOICE 7, safe). -/
def State.reset : State where
  v := Vector.replicate 16 0#8
  i := 0#16
  pc := Config.resetPc
  sp := 0
  stack := Vector.replicate 16 0#16
  dt := 0#8
  st := 0#8
  mem := []
  halted := false
  faultCause := .none
  faultPc := 0#16
  faultInfo := 0#16
  tTimer := Config.t0
  tInsn := Config.t0
  ir := 0#16
  fetchAddr := 0#16
  disp := blankGrid
  visible := blankGrid
  lastPresent := none
  frameOpen := true
  keyDown := Vector.replicate 16 false
  released := none
  now := Config.t0
  rand := Config.randDraw 0
  quitIn := Config.quitIn
  glyphPolicy := .fault
  rates := Config.defaultRates
  earlyDraw := Config.earlyDraw 0
  lateDraw := Config.lateDraw 0
  draws := 1
  out := []

end Sys2Proof.Machine
end

