-- ==== Sys2Proof/Machine/Memory.lean ====
section
/-! DEFINITION. Memory: what an unlisted address reads as, one-byte reads and writes in canonical form, runs of
bytes in ascending order (spec/20_memory.md R50 to R69), and the range and glyph checks of `MemRead` and
`MemWrite` (R57, R58). -/

namespace Sys2Proof.Machine

/-- Glyphs 0 to 3 of the default `FONT` (R55). -/
def fontGlyphs0to3 : List Byte :=
  [ 0xF0, 0x90, 0x90, 0x90, 0xF0,
    0x20, 0x60, 0x20, 0x20, 0x70,
    0xF0, 0x10, 0xF0, 0x80, 0xF0,
    0xF0, 0x10, 0xF0, 0x10, 0xF0 ]

/-- Glyphs 4 to 7 of the default `FONT` (R55). -/
def fontGlyphs4to7 : List Byte :=
  [ 0x90, 0x90, 0xF0, 0x10, 0x10,
    0xF0, 0x80, 0xF0, 0x10, 0xF0,
    0xF0, 0x80, 0xF0, 0x90, 0xF0,
    0xF0, 0x10, 0x20, 0x40, 0x40 ]

/-- Glyphs 8 to B of the default `FONT` (R55). -/
def fontGlyphs8toB : List Byte :=
  [ 0xF0, 0x90, 0xF0, 0x90, 0xF0,
    0xF0, 0x90, 0xF0, 0x10, 0xF0,
    0xF0, 0x90, 0xF0, 0x90, 0x90,
    0xE0, 0x90, 0xE0, 0x90, 0xE0 ]

/-- Glyphs C to F of the default `FONT` (R55). -/
def fontGlyphsCtoF : List Byte :=
  [ 0xF0, 0x80, 0x80, 0x80, 0xF0,
    0xE0, 0x90, 0x90, 0x90, 0xE0,
    0xF0, 0x80, 0xF0, 0x80, 0xF0,
    0xF0, 0x80, 0xF0, 0x80, 0x80 ]

/-- `FONT`, 80 glyph bytes (R55; PRESUMED 3, unsafe for a claim about a glyph's pixels). -/
def font : List Byte := fontGlyphs0to3 ++ fontGlyphs4to7 ++ fontGlyphs8toB ++ fontGlyphsCtoF

/-- What an address that memory does not list reads as: the contents at reset before a program is loaded, the
glyphs at 0x000..0x04F and zero everywhere else (R45, R52, R240; DESIGN CHOICE 12, safe). -/
def unlistedByte (a : Nat) : Byte := font.getD a 0#8

/-- The byte at an address (R62: reading has no side effect). -/
def Memory.read : Memory → Nat → Byte
  | [], a => unlistedByte a
  | (b, u) :: m, a => if a = b then u else Memory.read m a

/-- Storing one byte in canonical form: writing what an unlisted address reads as removes the entry. -/
def Memory.write : Memory → Nat → Byte → Memory
  | [], a, u => if u = unlistedByte a then [] else [(a, u)]
  | (b, w) :: m, a, u =>
    if a < b then (if u = unlistedByte a then (b, w) :: m else (a, u) :: (b, w) :: m)
    else if a = b then (if u = unlistedByte a then m else (a, u) :: m)
    else (b, w) :: Memory.write m a u

/-- Canonical form from an address on: addresses strictly rising and inside memory (R51), and no entry equal
to what an unlisted address reads as. -/
def Memory.wfFrom (lo : Nat) : Memory → Bool
  | [] => true
  | (b, w) :: m =>
    decide (lo ≤ b) && decide (b < Config.memSize) && decide (w ≠ unlistedByte b) && Memory.wfFrom (b + 1) m

/-- Memory is in its one canonical form. -/
def Memory.wf (m : Memory) : Bool := Memory.wfFrom 0 m

/-- `n` bytes from `base`, in ascending order (R64). -/
def Memory.readBytes (m : Memory) (base : Nat) : Nat → List Byte
  | 0 => []
  | n + 1 => m.read base :: Memory.readBytes m (base + 1) n

/-- Storing bytes from `base` on, in ascending order (R64). -/
def Memory.writeBytes (m : Memory) (base : Nat) : List Byte → Memory
  | [] => m
  | u :: us => Memory.writeBytes (m.write base u) (base + 1) us

/-- The instruction word at an address (R59, R92). -/
def Memory.word (m : Memory) (a : Nat) : Word := wordOfBytes (m.read a) (m.read (a + 1))

/-- The check of `MemRead(addr, 1)` (R57, R68). -/
def readFault (addr : Nat) : Option FaultCause :=
  if 0xFFF < addr then some .readOutOfRange else none

/-- The check of `MemWrite(addr, 1, v)` (R58): range first, glyph protection second (R216). -/
def writeFault (policy : GlyphWritePolicy) (addr : Nat) : Option FaultCause :=
  if 0xFFF < addr then some .writeOutOfRange
  else if addr ≤ 0x04F ∧ policy = .fault then some .glyphWrite
  else none

/-- The checks of an access to `n` bytes from `base`, every one made before any byte moves, in ascending order
(R64, R101, R166): the first fault, if there is one. -/
def firstFault (check : Nat → Option FaultCause) (base : Nat) : Nat → Option FaultCause
  | 0 => none
  | n + 1 =>
    match check base with
    | some c => some c
    | none => firstFault check (base + 1) n

end Sys2Proof.Machine
end

