-- ==== Sys2Proof/Machine/Operands.lean ====
section
/-! DEFINITION. Every operand form of the instruction set: registers, zero-extended constants, addresses through
`I`, decimal digits, sprite rows and keys (spec/30_encoding.md R73; spec/43_index_memory.md R166). -/

namespace Sys2Proof.Machine

/-- `V[x]` (R11, R20). -/
def State.reg (s : State) (x : Reg) : Byte := s.v.get x

/-- `zext_16` of a byte (R73). -/
def zextByte (b : Byte) : Word := b.zeroExtend 16

/-- `zext_16` of a 12-bit constant (R73). -/
def zextAddr (nnn : Addr12) : Word := nnn.zeroExtend 16

/-- `zext_8` of a key code (R189). -/
def zextKey (k : Key) : Byte := BitVec.ofNat 8 k.val

/-- The address of byte `k` of an access through `I`: the exact integer `I + k` (R166). -/
def indexAddress (i : Word) (k : Nat) : Nat := i.toNat + k

/-- `I` after an access to the registers `V[0]..V[x]`: `trunc_16(I + x + 1)` (R164, R165). -/
def indexAfter (i : Word) (x : Reg) : Word := BitVec.ofNat 16 (i.toNat + x.val + 1)

/-- The hundreds, tens and units digits of a byte (R163). -/
def bcdDigits (b : Byte) : List Byte :=
  [BitVec.ofNat 8 (b.toNat / 100), BitVec.ofNat 8 (b.toNat / 10 % 10), BitVec.ofNat 8 (b.toNat % 10)]

/-- `V[0]` to `V[x]`, `x + 1` bytes (R164). -/
def State.regsUpTo (s : State) (x : Reg) : List Byte := s.v.toList.take (x.val + 1)

/-- The address of glyph `V[x]`: `(zext_16(V[x]) * 5) & 0x0FFF`, the whole byte used (R162). -/
def glyphAddress (b : Byte) : Word := (zextByte b * 5#16) &&& 0x0FFF#16

/-- The pixels of one sprite row that draw toggles, left to right: bit `7 - c` is column `x0 + c`, a 0 bit
toggles nothing, and a column past 63 or a row past 31 is clipped (R181, R183; the bit order is PRESUMED 4, unsafe). -/
def rowPixels (x0 row : Nat) (sprite : Byte) (c : Nat) : List (Column × Row) :=
  if h : row < 32 ∧ x0 + c < 64 then
    if sprite.getLsbD (7 - c) then [(⟨x0 + c, h.2⟩, ⟨row, h.1⟩)] else []
  else []

/-- The pixels a sprite toggles, rows from the top, columns from the left (R181). -/
def spritePixels (x0 y0 : Nat) : List Byte → List (Column × Row)
  | [] => []
  | b :: bs => [0, 1, 2, 3, 4, 5, 6, 7].flatMap (rowPixels x0 y0 b) ++ spritePixels x0 (y0 + 1) bs

/-- `(k <= 15) and input.isKeyDown(k)`: a code above 15 names no key and is never down (R184, R185; UNVERIFIED 16, unsafe). -/
def State.keyIsDown (s : State) (k : Byte) : Bool :=
  if h : k.toNat < 16 then s.keyDown.get ⟨k.toNat, h⟩ else false

end Sys2Proof.Machine
end

