-- ==== Sys2Proof/Machine/Ops.lean ====
section
/-! DEFINITION. The named operations on the state that the meanings share: writing registers and flags, the next
`PC`, the call stack, FAULT ENTRY (the block's one form of taking an exception, spec/60_exceptions.md R213), and
the collaborators' ports (R226 to R234).  There is no return from a fault (R215): the only way out of
`HALTED = 1` is reset, `State.reset`. -/

namespace Sys2Proof.Machine

/-- `V[x] <- b` (R11, R21). -/
def State.setReg (s : State) (x : Reg) (b : Byte) : State := { s with v := s.v.set x.val b x.isLt }

/-- `flag(b)`: `V[15] <- 0x01` or `0x00`, written after the result (R97). -/
def State.setFlag (s : State) (b : Bool) : State := s.setReg flagReg (flagByte b)

/-- `V[k] <- b` for successive registers from `k` on; there is none past `V[15]` (R165). -/
def State.setRegs (s : State) (k : Nat) : List Byte → State
  | [] => s
  | b :: bs => State.setRegs { s with v := s.v.setIfInBounds k b } (k + 1) bs

/-- `I <- v` (R23). -/
def State.setIndex (s : State) (v : Word) : State := { s with i := v }

/-- `PC <- target` (R26). -/
def State.setPc (s : State) (target : Word) : State := { s with pc := target }

/-- A skip: `PC <- trunc_16(PC + 2)` when its predicate holds (R26, R113). -/
def State.skipIf (s : State) (b : Bool) : State := { s with pc := if b then s.pc + 2#16 else s.pc }

/-- Deferral: `PC <- A`, and nothing else changes (R98). -/
def State.defer (s : State) : State := { s with pc := s.fetchAddr }

/-- Storing bytes from an address on (R58, R64). -/
def State.storeBytes (s : State) (base : Nat) (bs : List Byte) : State :=
  { s with mem := s.mem.writeBytes base bs }

/-- The code of a cause as the `fault_cause` port shows it (R35, R211). -/
def FaultCause.code : FaultCause → BitVec 3
  | .none => 0
  | .fetchOutOfRange => 1
  | .stackOverflow => 2
  | .stackUnderflow => 3
  | .readOutOfRange => 4
  | .writeOutOfRange => 5
  | .glyphWrite => 6

/-- Fault entry, `raise Fault(cause, info)` (R213): `PC` goes back to the instruction's address `A`, the status
registers record the fault, the core halts, and nothing else changes. -/
def State.raiseFault (s : State) (cause : FaultCause) (info : Word) : State :=
  { s with
    pc := s.fetchAddr
    faultCause := cause
    faultPc := s.fetchAddr
    faultInfo := info
    halted := true }

/-- A push: `STACK[SP] <- v; SP <- SP + 1`, allowed only when `SP < 16` (R29); none where it is not. -/
def State.push? (s : State) (v : Word) : Option State :=
  if h : s.sp.val < 16 then
    some { s with stack := s.stack.set s.sp.val v h, sp := ⟨s.sp.val + 1, Nat.succ_lt_succ h⟩ }
  else none

/-- A pop: `SP <- SP - 1`, and the entry `STACK[SP]`, allowed only when `SP > 0` (R29); the entry keeps its
value (R30). -/
def State.pop? (s : State) : Option (Word × State) :=
  if h : 0 < s.sp.val then
    have hs : s.sp.val - 1 < 16 := by have := s.sp.isLt; omega
    some (s.stack.get ⟨s.sp.val - 1, hs⟩, { s with sp := ⟨s.sp.val - 1, by omega⟩ })
  else none

/-- A pulse on an output port (R226). -/
def State.emit (s : State) (o : Output) : State := { s with out := s.out ++ [o] }

/-- `DISP[c][r]` of a grid (R40). -/
def Grid.pixel (g : Grid) (c : Column) (r : Row) : Bool := (g.get r).get c

/-- The grid with `DISP[c][r]` inverted (R228). -/
def Grid.toggle (g : Grid) (c : Column) (r : Row) : Grid :=
  g.set r.val ((g.get r).set c.val (!g.pixel c r) c.isLt) r.isLt

/-- `display.clear()` (R227). -/
def State.displayClear (s : State) : State := ({ s with disp := blankGrid }).emit .clear

/-- The state after `display.togglePixel(x, y)` (R228); the call returns `s.disp.pixel`. -/
def State.togglePixel (s : State) (p : Column × Row) : State :=
  ({ s with disp := s.disp.toggle p.1 p.2 }).emit (.toggle p.1 p.2)

/-- Toggling pixels one after another, and whether one of them was set before its toggle (R181). -/
def State.togglePixels (s : State) (collided : Bool) : List (Column × Row) → State × Bool
  | [] => (s, collided)
  | p :: ps => State.togglePixels (s.togglePixel p) (collided || s.disp.pixel p.1 p.2) ps

/-- `display.present()` (R229): `DISP` becomes the visible frame, and the frame window closes. -/
def State.present (s : State) : State :=
  ({ s with visible := s.disp, frameOpen := false, lastPresent := some s.now }).emit .present

/-- `input.pump()` (R99, R231): the environment refreshes `KEYDOWN` and replaces `RELEASED`; both are host
draws (D19). -/
def State.pump (s : State) : State :=
  ({ s with
    keyDown := Config.keyDownDraw s.draws
    released := Config.releasedDraw s.draws
    draws := s.draws + 1 }).emit .pump

/-- One execution of random has taken the byte on the `rand` port: the next finds a fresh one (R234, D8). -/
def State.redrawRand (s : State) : State :=
  { s with rand := Config.randDraw s.draws, draws := s.draws + 1 }

/-- `input.takeReleasedKey()` clears the latch (R231, D33). -/
def State.clearReleased (s : State) : State := { s with released := none }

/-- The `quit` port (R225, R226): set once the host's draw has run out. -/
def State.quit (s : State) : Bool := decide (s.quitIn = some 0)

/-- `audio.playTone()` (R232). -/
def State.playTone (s : State) : State := s.emit .tone

end Sys2Proof.Machine
end

