-- ==== Sys2Proof/Machine/Alu.lean ====
section
/-! DEFINITION. 8-bit register arithmetic and logic (spec/42_alu.md R130 to R142).  Operands are read before any
write (R96) and a flag is written last (R97); `PC` already holds `A + 2` (R92) and is not touched; nothing here
can fault. -/

namespace Sys2Proof.Machine

/-- set-const (R130). -/
def execSetConst (x : Reg) (nn : Byte) (s : State) : Host.Outcome State Fault Refusal :=
  .next (s.setReg x nn)

/-- add-const: no flag (R131). -/
def execAddConst (x : Reg) (nn : Byte) (s : State) : Host.Outcome State Fault Refusal :=
  .next (s.setReg x (s.reg x + nn))

/-- reg-copy: no flag (R132). -/
def execRegCopy (x y : Reg) (s : State) : Host.Outcome State Fault Refusal :=
  .next (s.setReg x (s.reg y))

/-- reg-or: the flag becomes 0 (R133). -/
def execRegOr (x y : Reg) (s : State) : Host.Outcome State Fault Refusal :=
  .next ((s.setReg x (s.reg x ||| s.reg y)).setFlag false)

/-- reg-and: the flag becomes 0 (R134). -/
def execRegAnd (x y : Reg) (s : State) : Host.Outcome State Fault Refusal :=
  .next ((s.setReg x (s.reg x &&& s.reg y)).setFlag false)

/-- reg-xor: the flag becomes 0 (R135). -/
def execRegXor (x y : Reg) (s : State) : Host.Outcome State Fault Refusal :=
  .next ((s.setReg x (s.reg x ^^^ s.reg y)).setFlag false)

/-- reg-add (R136). -/
def execRegAdd (x y : Reg) (s : State) : Host.Outcome State Fault Refusal :=
  .next ((s.setReg x (s.reg x + s.reg y)).setFlag (carries (s.reg x) (s.reg y)))

/-- reg-sub, x minus y (R137; 90_conflicts.md C5: the flag compares the operands before the operation). -/
def execRegSub (x y : Reg) (s : State) : Host.Outcome State Fault Refusal :=
  .next ((s.setReg x (s.reg x - s.reg y)).setFlag (noBorrow (s.reg x) (s.reg y)))

/-- reg-subn, y minus x (R138). -/
def execRegSubn (x y : Reg) (s : State) : Host.Outcome State Fault Refusal :=
  .next ((s.setReg x (s.reg y - s.reg x)).setFlag (noBorrow (s.reg y) (s.reg x)))

/-- shift-right: the source is `V[y]` (R139; 90_conflicts.md C6: the flag is written last). -/
def execShiftRight (x y : Reg) (s : State) : Host.Outcome State Fault Refusal :=
  .next ((s.setReg x (s.reg y >>> 1)).setFlag (lowBit (s.reg y)))

/-- shift-left: the source is `V[y]` (R140). -/
def execShiftLeft (x y : Reg) (s : State) : Host.Outcome State Fault Refusal :=
  .next ((s.setReg x (s.reg y <<< 1)).setFlag (highBit (s.reg y)))

/-- random: `V[x] <- rand & nn`, no flag (R141); the byte on the `rand` port is taken (R234). -/
def execRandom (x : Reg) (nn : Byte) (s : State) : Host.Outcome State Fault Refusal :=
  .next ((s.setReg x (s.rand &&& nn)).redrawRand)

end Sys2Proof.Machine
end

