-- ==== Sys2Proof/Machine/IndexMemory.lean ====
section
/-! DEFINITION. Index register operations, loads and stores (spec/43_index_memory.md R160 to R166).  Every
address of an access is checked before anything is written (R101); the fault records the starting `I` (R211;
90_conflicts.md C11). -/

namespace Sys2Proof.Machine

/-- set-index (R160). -/
def execSetIndex (nnn : Addr12) (s : State) : Host.Outcome State Fault Refusal :=
  .next (s.setIndex (zextAddr nnn))

/-- add-index: modulo 2^16, not masked to 12 bits; the flag tells `I > 0xFFF` (R161). -/
def execAddIndex (x : Reg) (s : State) : Host.Outcome State Fault Refusal :=
  .next ((s.setIndex (s.i + zextByte (s.reg x))).setFlag (pastMemory (s.i + zextByte (s.reg x))))

/-- font-address: the whole byte `V[x]` is used (R162). -/
def execFontAddress (x : Reg) (s : State) : Host.Outcome State Fault Refusal :=
  .next (s.setIndex (glyphAddress (s.reg x)))

/-- store-bcd: hundreds, tens and units at `I`, `I+1`, `I+2`; `I` is not changed (R163). -/
def execStoreBcd (x : Reg) (s : State) : Host.Outcome State Fault Refusal :=
  match firstFault (writeFault s.glyphPolicy) (indexAddress s.i 0) 3 with
  | some cause => .next (s.raiseFault cause s.i)
  | none => .next (s.storeBytes (indexAddress s.i 0) (bcdDigits (s.reg x)))

/-- store-regs: `V[0]..V[x]` from `I` on, then `I <- trunc_16(I + x + 1)` (R164). -/
def execStoreRegs (x : Reg) (s : State) : Host.Outcome State Fault Refusal :=
  match firstFault (writeFault s.glyphPolicy) (indexAddress s.i 0) (x.val + 1) with
  | some cause => .next (s.raiseFault cause s.i)
  | none => .next ((s.storeBytes (indexAddress s.i 0) (s.regsUpTo x)).setIndex (indexAfter s.i x))

/-- load-regs: `x + 1` bytes from `I` on into `V[0]..V[x]`, then `I <- trunc_16(I + x + 1)` (R165). -/
def execLoadRegs (x : Reg) (s : State) : Host.Outcome State Fault Refusal :=
  match firstFault readFault (indexAddress s.i 0) (x.val + 1) with
  | some cause => .next (s.raiseFault cause s.i)
  | none =>
    .next ((s.setRegs 0 (s.mem.readBytes (indexAddress s.i 0) (x.val + 1))).setIndex (indexAfter s.i x))

end Sys2Proof.Machine
end

