-- ==== Sys2Proof/Machine/TimersIo.lean ====
section
/-! DEFINITION. Display, keys and timer instructions (spec/44_timers_io.md R180 to R189). -/

namespace Sys2Proof.Machine

/-- clear-screen: clears the grid, does not wait for the frame window and does not present (R180). -/
def execClearScreen (s : State) : Host.Outcome State Fault Refusal :=
  .next s.displayClear

/-- The body of draw once the frame window is open and every sprite byte is in range (R181, R183): the pixels
toggle, the collision flag is written last, and the frame is presented. -/
def drawSprite (x y : Reg) (n : Nibble) (s : State) : State :=
  let sprite := s.mem.readBytes (indexAddress s.i 0) n.toNat
  let pixels := spritePixels ((s.reg x).toNat % 64) ((s.reg y).toNat % 32) sprite
  let drawn := s.togglePixels false pixels
  (drawn.1.setFlag drawn.2).present

/-- draw: deferred while the frame window is closed (R182), which comes before the range check (R216, D35;
UNVERIFIED 18). -/
def execDraw (x y : Reg) (n : Nibble) (s : State) : Host.Outcome State Fault Refusal :=
  if s.frameOpen then
    match firstFault readFault (indexAddress s.i 0) n.toNat with
    | some cause => .next (s.raiseFault cause s.i)
    | none => .next (drawSprite x y n s)
  else .next s.defer

/-- skip-key-down: a code above 15 is never down (R184; 90_conflicts.md C8). -/
def execSkipKeyDown (x : Reg) (s : State) : Host.Outcome State Fault Refusal :=
  .next (s.skipIf (s.keyIsDown (s.reg x)))

/-- skip-key-up (R185). -/
def execSkipKeyUp (x : Reg) (s : State) : Host.Outcome State Fault Refusal :=
  .next (s.skipIf (!s.keyIsDown (s.reg x)))

/-- get-delay (R186). -/
def execGetDelay (x : Reg) (s : State) : Host.Outcome State Fault Refusal :=
  .next (s.setReg x s.dt)

/-- set-delay (R187). -/
def execSetDelay (x : Reg) (s : State) : Host.Outcome State Fault Refusal :=
  .next { s with dt := s.reg x }

/-- set-sound (R188). -/
def execSetSound (x : Reg) (s : State) : Host.Outcome State Fault Refusal :=
  .next { s with st := s.reg x }

/-- wait-key: re-issues itself until a key release is reported, then takes its code (R189). -/
def execWaitKey (x : Reg) (s : State) : Host.Outcome State Fault Refusal :=
  match s.released with
  | none => .next s.defer
  | some k => .next (s.clearReleased.setReg x (zextKey k))

end Sys2Proof.Machine
end

