-- ==== Sys2Proof/Machine/Unknown.lean ====
section
/-! DEFINITION. Unknown words (spec/45_unknown.md R200, R201). -/

namespace Sys2Proof.Machine

/-- unknown: a no-op that pulses `diag_unknown` with the word and its address (R200, R201). -/
def execUnknown (w : Word) (s : State) : Host.Outcome State Fault Refusal :=
  .next (s.emit (.diagUnknown w s.fetchAddr))

end Sys2Proof.Machine
end

