-- ==== Sys2Proof/Machine/Scheduler.lean ====
section
/-! DEFINITION. The timers and the clock of the dual-rate scheduler (spec/60_exceptions.md R218 to R224): the
timer action, the timer test at a clock sample, the clock samples of a step, and the environment's turn at
the end of a step.  The instruction half of the scheduler is in Machine/Cycle.lean. -/

namespace Sys2Proof.Machine

/-- A timer decreases by exactly 1 while nonzero and stays at 0 (R220). -/
def tick (t : Byte) : Byte := if t = 0#8 then 0#8 else t - 1#8

/-- The timer action (R219): the tone is decided on `ST` before its decrement (D22). -/
def State.timerAction (s : State) : State :=
  { s with dt := tick s.dt, st := tick s.st, out := if s.st = 0#8 then s.out else s.playTone.out }

/-- `now - T_TIMER >= TIMER_PERIOD` (R218). -/
def State.timerDue (s : State) (now : Nat) : Bool := decide (s.rates.timerPeriod ≤ now - s.tTimer)

/-- The timer half of one scheduler iteration at the clock sample `now` (R218, R222).  Field by field, so that
a sample nobody can evaluate leaves every field but the timers' readable; `pollTimer_eq` of Laws/Scheduler.lean
says it is the timer action when due and nothing when not. -/
def State.pollTimer (s : State) (now : Nat) : State :=
  { s with
    now := now
    dt := if s.timerDue now then s.timerAction.dt else s.dt
    st := if s.timerDue now then s.timerAction.st else s.st
    out := if s.timerDue now then s.timerAction.out else s.out
    tTimer := if s.timerDue now then now else s.tTimer }

/-- Clock samples from `start` on, each some units after the one before and none after `last`, so never
decreasing (R223). -/
def samplesUpTo (last : Nat) : Nat → List Nat → List Nat
  | _, [] => []
  | start, gap :: gaps => min (start + gap) last :: samplesUpTo last (min (start + gap) last) gaps

/-- The clock samples that come before the instruction action of this step is due: within the instruction
period (R222, R223). -/
def State.earlySamples (s : State) : List Nat :=
  samplesUpTo (s.tInsn + s.rates.insnPeriod - 1) s.tInsn s.earlyDraw

/-- The clock sample at which the instruction action of this step fires (R218, R222, R223). -/
def State.lateSample (s : State) : Nat := s.tInsn + s.rates.insnPeriod + s.lateDraw

/-- The output ports with no pulse on them: pulses last one action (R226). -/
def State.quiet (s : State) : State := { s with out := [] }

/-- The timer tests at clock samples in order. -/
def State.pollAll (s : State) (samples : List Nat) : State := samples.foldl State.pollTimer s

/-- The timer tests of a step, at its clock samples in order.  Field by field, as `pollTimer`;
`pollTimers_eq_pollAll` of Laws/Scheduler.lean says it is `pollAll`. -/
def State.pollTimers (s : State) : State :=
  let polled := s.quiet.pollAll (s.earlySamples ++ [s.lateSample])
  { s.quiet with
    now := s.lateSample
    dt := polled.dt
    st := polled.st
    out := polled.out
    tTimer := polled.tTimer }

/-- What the next draw finds on `frame_open`: true before any present, a host draw after one (R230, D19). -/
def State.nextFrameOpen (s : State) : Bool :=
  match s.lastPresent with
  | none => true
  | some _ => Config.frameOpenDraw s.draws

/-- The environment's turn at the end of a step: the frame window, the next clock samples, and the host's quit one
instruction action nearer (R223, R225, R230). -/
def State.environmentTurn (s : State) : State :=
  { s with
    frameOpen := s.nextFrameOpen
    earlyDraw := Config.earlyDraw s.draws
    lateDraw := Config.lateDraw s.draws
    quitIn := s.quitIn.map (· - 1)
    draws := s.draws + 1 }

end Sys2Proof.Machine
end

