-- ==== Sys2Proof/Machine/Cycle.lean ====
section
/-! DEFINITION. The instruction action: fetch, decode, execute, pump (spec/40_cycle.md R90 to R101), one
scheduler iteration as R218 writes it, and the placing of an instruction word where the next fetch reads. -/

namespace Sys2Proof.Machine

/-- The fetch (R92): `A <- PC`, `IR <- MEM[A] || MEM[A+1]`, `PC <- trunc_16(A + 2)`. -/
def State.fetched (s : State) : State :=
  { s with fetchAddr := s.pc, ir := s.mem.word s.pc.toNat, pc := s.pc + 2#16 }

/-- A fetch with `PC > 0xFFE` (R91): reads no memory and does not advance `PC`. -/
def State.fetchFault (s : State) : State :=
  ({ s with fetchAddr := s.pc }).raiseFault .fetchOutOfRange s.pc

/-- The end of an instruction action: the input pump, which a faulting action does not issue (R99, R101). -/
def State.afterExecute (s : State) : State := if s.halted then s else s.pump

/-- The instruction action (R90). -/
def State.instructionAction (s : State) : Host.Outcome State Fault Refusal :=
  if s.halted then .next s
  else if 0xFFE < s.pc.toNat then .next s.fetchFault
  else
    match exec (decodeWord (s.mem.word s.pc.toNat)) s.fetched with
    | .next t => .next t.afterExecute
    | .fault r => .fault r
    | .refused r => .refused r

/-- `T_INSN <- now` after an instruction action (R38, R218, R222), one that faults too (DEDUCED 9, unsafe only for a
claim about `T_INSN` of a halted core). -/
def State.recordInsn (s : State) : State := { s with tInsn := s.now }

/-- One scheduler iteration at the clock sample `now`, as R218 writes it.  `step` is these at its early
samples and at the one that fires the instruction action (the statement `StepIsSchedulerIterations`). -/
def State.iteration (s : State) (now : Nat) : Host.Outcome State Fault Refusal :=
  if s.halted then .next s
  else
    let sampled := { s with now := now }
    let timed :=
      if s.rates.timerPeriod ≤ now - s.tTimer then { sampled.timerAction with tTimer := now } else sampled
    if s.rates.insnPeriod ≤ now - s.tInsn then
      match timed.instructionAction with
      | .next t => .next t.recordInsn
      | .fault r => .fault r
      | .refused r => .refused r
    else .next timed

/-- The scheduler over a sequence of clock samples (R218, R223), less the environment's turns. -/
def State.iterations (s : State) : List Nat → Host.Outcome State Fault Refusal
  | [] => .next s
  | now :: rest =>
    match s.iteration now with
    | .next t => State.iterations t rest
    | .fault r => .fault r
    | .refused r => .refused r

/-- The end of a step whose instruction action answered: `T_INSN <- now`, and the environment's turn, which a fault
leaves out, since no call of the core is to come (R214). -/
def State.closeStep (s : State) : State := if s.halted then s.recordInsn else s.recordInsn.environmentTurn

/-- A state whose next step fetches: running, not quit, and `PC` in range. -/
def State.readyToFetch (s : State) : State :=
  { s with
    pc := if s.pc.toNat ≤ 0xFFE then s.pc else Config.resetPc
    halted := false
    quitIn := none }

/-- The state with a word stored where its next step fetches. -/
def State.placeWord (s : State) (w : Word) : State :=
  s.readyToFetch.storeBytes s.readyToFetch.pc.toNat (bytesOfWord w)

end Sys2Proof.Machine
end

