-- ==== Sys2Proof/Machine/Step.lean ====
section
/-! DEFINITION. One step of the machine: the scheduler from just after one instruction action to just after the
next.  It is iterations at any number of clock samples too early for an instruction action (which can run a timer
action only), then an iteration whose sample fires the instruction action (R218), then the environment's turn (DESIGN
CHOICE 6: safe for what a run can do, unsafe for a claim that a run goes on for ever; notes/assumptions/6.md). -/

namespace Sys2Proof.Machine

/-- One step.  A run that the host has quit goes no further (R225; DESIGN CHOICE 7, safe);
a halted core does nothing (R214; DESIGN CHOICE 8, safe). -/
def step (s : State) : Host.Outcome State Fault Refusal :=
  if s.quit then .fault .runEnded
  else if s.halted then .next s.quiet
  else
    match s.pollTimers.instructionAction with
    | .next t => .next t.closeStep
    | .fault r => .fault r
    | .refused r => .refused r

/-- The state with the word `w` of spec/opcode_table.json's numbering stored where `step` fetches its next
instruction, high byte first (R59; DESIGN CHOICE 10, safe). -/
def State.withFetchWord (s : State) (nbits w : Nat) : State := s.placeWord (BitVec.ofNat 16 (w % 2 ^ nbits))

end Sys2Proof.Machine
end

