-- ==== Sys2Proof/Machine/Boot.lean ====
section
/-! DEFINITION. The start of a run (spec/70_reset_and_hazards.md R240 to R242; spec/20_memory.md R56): the
configuration, the program loader, and what the host does to the machine between steps. -/

namespace Sys2Proof.Machine

/-- The default `FONT` as the 80 bytes of the glyph region (R55). -/
def defaultFont : Vector Byte 80 := Vector.ofFn fun k => unlistedByte k.val

/-- What is settled when a run starts: the parameters `GLYPH_WRITE_POLICY` and `FONT` (R9, R53, R55), the
rates `TIMER_HZ` and `INSN_HZ` (R8), and the host's first clock sample `t0` (R240 step 5) and quit (R225). -/
structure BootConfig where
  glyphPolicy : GlyphWritePolicy
  font : Vector Byte 80
  rates : Rates
  t0 : Nat
  quitIn : Option Nat
deriving DecidableEq, Repr

/-- The default configuration, with the clock's first sample and the quit left to the host. -/
def defaultBoot : BootConfig where
  glyphPolicy := .fault
  font := defaultFont
  rates := Config.defaultRates
  t0 := Config.t0
  quitIn := Config.quitIn

/-- The state the scheduler starts in: reset, then the glyphs, then the image, then the first clock sample
(R240). -/
def bootState (cfg : BootConfig) (image : List Byte) : State :=
  { State.reset with
    mem := (State.reset.mem.writeBytes 0 cfg.font.toList).writeBytes Config.progBase image
    tTimer := cfg.t0
    tInsn := cfg.t0
    now := cfg.t0
    glyphPolicy := cfg.glyphPolicy
    rates := cfg.rates
    quitIn := cfg.quitIn }

/-- Boot: the block starts with the program image at 0x200, or it does not start (R56, R233, R242).  `image` is
none when the file could not be read.  Where both an image and a collaborator fail, the image's failure is the one
reported: the spec gives no order (DESIGN CHOICE 25, unsafe
for a claim about which is reported). -/
def boot (cfg : BootConfig) (collaboratorsReady : Bool) (image : Option (List Byte)) :
    Host.Outcome State Fault Refusal :=
  match image with
  | none => .refused .loadFailure
  | some bytes =>
    if Config.progMax < bytes.length then .refused .loadFailure
    else if collaboratorsReady then .next (bootState cfg bytes)
    else .refused .collaboratorInitFailure

/-- The host sets the `quit` port at once (R225). -/
def State.hostQuit (s : State) : State := { s with quitIn := some 0 }

end Sys2Proof.Machine
end

