-- ==== Sys2Proof/Safety.lean ====
section
/-! DEFINITION. The terms claims are made in: frames, what each instruction may write, the sprite bit under a
pixel, the state a fault leaves, and the invariants of a run. -/

namespace Sys2Proof.Machine

/-- One register gets a value; every other register, every other field and every byte of memory is unchanged. -/
def WritesReg (s t : State) (x : Reg) (b : Byte) : Prop :=
  t.reg x = b ∧ (∀ z, z ≠ x → t.reg z = s.reg z) ∧ t = { s with v := t.v } ∧
    ∀ a, t.mem.read a = s.mem.read a

/-- A result register gets a value and then the flag register gets a flag, so with `x = 15` the flag is what
remains (R97); every other register, every other field and every byte of memory is unchanged. -/
def WritesRegAndFlag (s t : State) (x : Reg) (r : Nat) (f : Prop) : Prop :=
  (x ≠ 15 → (t.reg x).toNat = r) ∧
    (f → t.reg 15 = 0x01#8) ∧ (¬f → t.reg 15 = 0x00#8) ∧
    (∀ z, z ≠ x → z ≠ 15 → t.reg z = s.reg z) ∧ t = { s with v := t.v } ∧
    ∀ a, t.mem.read a = s.mem.read a

/-- The state that fault entry leaves (R213): `PC` and `FAULT_PC` name the instruction, the status registers
record the fault, the core is halted, and nothing else changes. -/
def faultState (s : State) (cause : FaultCause) (info : Word) : State :=
  { s with
    pc := s.fetchAddr
    faultCause := cause
    faultPc := s.fetchAddr
    faultInfo := info
    halted := true }

/-- Changing the next state of an outcome. -/
def mapNext (f : State → State) : Host.Outcome State Fault Refusal → Host.Outcome State Fault Refusal
  | .next t => .next (f t)
  | .fault r => .fault r
  | .refused r => .refused r

/-- Draw's sprite has a set bit over the pixel `DISP[c][r]`: its origin is (V[x] mod 64, V[y] mod 32), row `r` is
the byte at `I + (r - y0)`, and bit 7 is its leftmost pixel (R181, R183). -/
def spriteBit (s : State) (x y : Reg) (n : Nibble) (c : Column) (r : Row) : Prop :=
  let x0 := (s.reg x).toNat % 64
  let y0 := (s.reg y).toNat % 32
  x0 ≤ c.val ∧ c.val ≤ x0 + 7 ∧ y0 ≤ r.val ∧ r.val < y0 + n.toNat ∧
    (s.mem.read (indexAddress s.i (r.val - y0))).getLsbD (7 - (c.val - x0)) = true

/-- The instructions that define a flag (R22). -/
def definesFlag : Instr → Bool
  | .regOr _ _ => true
  | .regAnd _ _ => true
  | .regXor _ _ => true
  | .regAdd _ _ => true
  | .regSub _ _ => true
  | .regSubn _ _ => true
  | .shiftRight _ _ => true
  | .shiftLeft _ _ => true
  | .addIndex _ => true
  | .draw _ _ _ => true
  | .clearScreen => false
  | .ret => false
  | .jump _ => false
  | .call _ => false
  | .skipEqConst _ _ => false
  | .skipNeConst _ _ => false
  | .skipEqReg _ _ => false
  | .setConst _ _ => false
  | .addConst _ _ => false
  | .regCopy _ _ => false
  | .skipNeReg _ _ => false
  | .setIndex _ => false
  | .jumpOffset _ => false
  | .random _ _ => false
  | .skipKeyDown _ => false
  | .skipKeyUp _ => false
  | .getDelay _ => false
  | .waitKey _ => false
  | .setDelay _ => false
  | .setSound _ => false
  | .fontAddress _ => false
  | .storeBcd _ => false
  | .storeRegs _ => false
  | .loadRegs _ => false
  | .unknown _ => false

/-- The general registers an instruction writes as data, apart from the flag (R21): `V[x]`, or `V[0]` to `V[x]`
for load-regs. -/
def writesData (z : Reg) : Instr → Prop
  | .setConst x _ => z = x
  | .addConst x _ => z = x
  | .regCopy x _ => z = x
  | .regOr x _ => z = x
  | .regAnd x _ => z = x
  | .regXor x _ => z = x
  | .regAdd x _ => z = x
  | .regSub x _ => z = x
  | .regSubn x _ => z = x
  | .shiftRight x _ => z = x
  | .shiftLeft x _ => z = x
  | .random x _ => z = x
  | .getDelay x => z = x
  | .waitKey x => z = x
  | .loadRegs x => z ≤ x
  | .clearScreen => False
  | .ret => False
  | .jump _ => False
  | .call _ => False
  | .skipEqConst _ _ => False
  | .skipNeConst _ _ => False
  | .skipEqReg _ _ => False
  | .skipNeReg _ _ => False
  | .setIndex _ => False
  | .jumpOffset _ => False
  | .draw _ _ _ => False
  | .skipKeyDown _ => False
  | .skipKeyUp _ => False
  | .setDelay _ => False
  | .setSound _ => False
  | .addIndex _ => False
  | .fontAddress _ => False
  | .storeBcd _ => False
  | .storeRegs _ => False
  | .unknown _ => False

/-- The faults an instruction can raise, when, and the `FAULT_INFO` it records (R211). -/
def RaisesFault (i : Instr) (s : State) (cause : FaultCause) (info : Word) : Prop :=
  (cause = .stackOverflow ∧ s.sp = 16 ∧ info = s.ir ∧ ∃ nnn, i = .call nnn) ∨
  (cause = .stackUnderflow ∧ s.sp = 0 ∧ info = s.ir ∧ i = .ret) ∨
  (cause = .readOutOfRange ∧ info = s.i ∧
    ((∃ x, i = .loadRegs x ∧ 0xFFF < indexAddress s.i x.val) ∨
     (∃ x y n, i = .draw x y n ∧ s.frameOpen = true ∧ 0 < n.toNat ∧ 0xFFF < indexAddress s.i (n.toNat - 1)))) ∨
  (cause = .writeOutOfRange ∧ info = s.i ∧
    ((∃ x, i = .storeBcd x ∧ 0xFFF < indexAddress s.i 2) ∨
     (∃ x, i = .storeRegs x ∧ 0xFFF < indexAddress s.i x.val))) ∨
  (cause = .glyphWrite ∧ info = s.i ∧ s.glyphPolicy = .fault ∧ indexAddress s.i 0 ≤ 0x04F ∧
    ((∃ x, i = .storeBcd x) ∨ ∃ x, i = .storeRegs x))

/-- The core runs: not halted, not quit, and `PC` can be fetched from (R91, R214, R225). -/
def State.running (s : State) : Prop := s.quit = false ∧ s.halted = false ∧ s.pc.toNat ≤ 0xFFE

/-- The instruction the next step runs (R92, R93).  A step's timer actions do not touch memory or `PC`. -/
def State.nextInstr (s : State) : Instr := decodeWord (s.mem.word s.pc.toNat)

/-- The next step of a running core faults: in its fetch (R91), or in its instruction (R211). -/
def FaultsNow (s : State) (cause : FaultCause) (info : Word) : Prop :=
  (0xFFE < s.pc.toNat ∧ cause = .fetchOutOfRange ∧ info = s.pc) ∨
  (s.pc.toNat ≤ 0xFFE ∧ RaisesFault s.nextInstr s.pollTimers.fetched cause info)

/-- The clock of a run (R222, R223): `T_TIMER` does not lie ahead of the last sample, the timer test has been made at
it, and the instruction action that fired last fired at it. -/
def ClockInv (s : State) : Prop :=
  s.tTimer ≤ s.now ∧ s.now < s.tTimer + s.rates.timerPeriod ∧ s.tInsn = s.now

/-- Before any present the frame window is open (R230). -/
def FrameInv (s : State) : Prop := s.lastPresent = none → s.frameOpen = true

/-- The fault status says whether the core is halted: `FAULT_CAUSE` is `NONE` exactly while it runs (R34, R35). -/
def StatusInv (s : State) : Prop := s.halted = true ↔ s.faultCause ≠ .none

/-- The collaborator's law for the frame window, an optional assumption of claims (R230): closed for 1/60 s after
each present, then open. -/
def FrameWindowLaw (s : State) : Prop :=
  ∀ t, s.lastPresent = some t → (s.frameOpen = true ↔ s.rates.unitsPerSecond ≤ 60 * (s.lateSample - t))

end Sys2Proof.Machine
end

