-- ==== Sys2Proof/Certificates/Slice0/Obligations.lean ====
section
/-! DEFINITION. The statements for the provers.  Each docstring names the rules of spec/ it formalises.  `exec`
runs an instruction in the frame of R90 to R101: `pc` holds `A + 2`, `fetchAddr` holds `A`, `ir` the word.

What the spec marks as not its source's words, and the statements take from it: the encodings of R75 other than
6xnn, 7xnn, 2nnn and 00EE and the places of `y` and `n` (notes/assumptions/1.md), strict decoding (D12, 2.md), sprite
bit order (4.md), and the policies of its decisions D1 to D40 (14.md to 20.md).  What the model chose where the spec leaves
it open is in the other entries; a statement that rests on one names it. -/

open Sys2Proof Sys2Proof.Machine

/-! ### Encoding -/

/-- Words written out from R71 and R75 (and the vectors L2-E of 95_test_vectors.md) decode to their families. -/
def Obligations.WrittenOutWordsDecode : Prop :=
  decodeWord 0b0000000011100000#16 = .clearScreen ∧
  decodeWord 0b0000000011101110#16 = .ret ∧
  decodeWord 0b0010001000000100#16 = .call 0x204#12 ∧
  decodeWord 0b0011101001111011#16 = .skipEqConst 10 0x7B#8 ∧
  decodeWord 0b0110000000000101#16 = .setConst 0 0x05#8 ∧
  decodeWord 0b1000111111100100#16 = .regAdd 15 14 ∧
  decodeWord 0b1010001011110000#16 = .setIndex 0x2F0#12 ∧
  decodeWord 0b1101000100100101#16 = .draw 1 2 5#4 ∧
  decodeWord 0b1111100100001010#16 = .waitKey 9 ∧
  decodeWord 0b1111001101010101#16 = .storeRegs 3 ∧
  decodeWord 0b0101000100100001#16 = .unknown 0x5121#16 ∧
  decode [0x60#8, 0x05#8, 0x70#8] = .ok (.setConst 0 0x05#8, [0x70#8]) ∧
  decode [0x60#8] = .error .truncated

/-- Decoding the word, or the bytes, of any well-formed instruction gives it back with every operand. -/
def Obligations.DecodeOfEncodeIsIdentity : Prop :=
  ∀ i : Instr, i.wellFormed = true →
    decodeWord (encode i) = i ∧ ∀ rest, decode (encodeBytes i ++ rest) = .ok (i, rest)

/-- Every word is the encoding of the instruction it decodes to, which is well formed. -/
def Obligations.EncodeOfDecodeIsIdentity : Prop :=
  ∀ w : Word, encode (decodeWord w) = w ∧ (decodeWord w).wellFormed = true

/-- R74, R76: the rows of the opcode map are pairwise disjoint, a word decodes to a row's family exactly when the
word matches the row on every fixed bit, and it is `unknown`, carrying the raw word, exactly when no row does. -/
def Obligations.DecoderFollowsOpcodeMap : Prop :=
  (∀ w r, r ∈ opcodeRows → (r.hits w = true ↔ (decodeWord w).mnemonic = r.mnemonic)) ∧
  (∀ w r q, r ∈ opcodeRows → q ∈ opcodeRows → r.hits w = true → q.hits w = true → r = q) ∧
  (∀ w, (∀ r, r ∈ opcodeRows → r.hits w = false) ↔ decodeWord w = .unknown w)

/-! ### Register arithmetic and logic -/

/-- R130, R131, R132: set-const, add-const and reg-copy write one register, as data and with no flag. -/
def Obligations.ConstAndCopyWriteOneRegister : Prop :=
  ∀ (s : State) (x y : Reg) (nn : Byte),
    (decodeWord (formatXK 0x6 x nn) = .setConst x nn ∧
      ∃ t, exec (.setConst x nn) s = .next t ∧ WritesReg s t x nn) ∧
    (decodeWord (formatXK 0x7 x nn) = .addConst x nn ∧
      ∃ t, exec (.addConst x nn) s = .next t ∧
        WritesReg s t x (BitVec.ofNat 8 (((s.reg x).toNat + nn.toNat) % 256))) ∧
    (decodeWord (formatXYN 0x8 x y 0x0#4) = .regCopy x y ∧
      ∃ t, exec (.regCopy x y) s = .next t ∧ WritesReg s t x (s.reg y))

/-- R133, R134, R135: the logic operations write the result bit by bit and then a flag of 0. -/
def Obligations.LogicWritesResultAndClearsFlag : Prop :=
  ∀ (s : State) (x y : Reg),
    (decodeWord (formatXYN 0x8 x y 0x1#4) = .regOr x y ∧
      ∃ t, exec (.regOr x y) s = .next t ∧
        WritesRegAndFlag s t x ((s.reg x).toNat ||| (s.reg y).toNat) False) ∧
    (decodeWord (formatXYN 0x8 x y 0x2#4) = .regAnd x y ∧
      ∃ t, exec (.regAnd x y) s = .next t ∧
        WritesRegAndFlag s t x ((s.reg x).toNat &&& (s.reg y).toNat) False) ∧
    (decodeWord (formatXYN 0x8 x y 0x3#4) = .regXor x y ∧
      ∃ t, exec (.regXor x y) s = .next t ∧
        WritesRegAndFlag s t x ((s.reg x).toNat ^^^ (s.reg y).toNat) False)

/-- R136, R137, R138: the sum and the differences modulo 256, and then the carry or no-borrow flag of the operands
as they were before the operation. -/
def Obligations.AddAndSubtractWriteResultThenFlag : Prop :=
  ∀ (s : State) (x y : Reg),
    (decodeWord (formatXYN 0x8 x y 0x4#4) = .regAdd x y ∧
      ∃ t, exec (.regAdd x y) s = .next t ∧
        WritesRegAndFlag s t x (((s.reg x).toNat + (s.reg y).toNat) % 256)
          (256 ≤ (s.reg x).toNat + (s.reg y).toNat)) ∧
    (decodeWord (formatXYN 0x8 x y 0x5#4) = .regSub x y ∧
      ∃ t, exec (.regSub x y) s = .next t ∧
        WritesRegAndFlag s t x (((s.reg x).toNat + 256 - (s.reg y).toNat) % 256)
          ((s.reg y).toNat ≤ (s.reg x).toNat)) ∧
    (decodeWord (formatXYN 0x8 x y 0x7#4) = .regSubn x y ∧
      ∃ t, exec (.regSubn x y) s = .next t ∧
        WritesRegAndFlag s t x (((s.reg y).toNat + 256 - (s.reg x).toNat) % 256)
          ((s.reg x).toNat ≤ (s.reg y).toNat))

/-- R139, R140: the shifts read `V[y]`, move by exactly one bit, and then write the bit shifted out as the flag. -/
def Obligations.ShiftsReadSecondRegister : Prop :=
  ∀ (s : State) (x y : Reg),
    (decodeWord (formatXYN 0x8 x y 0x6#4) = .shiftRight x y ∧
      ∃ t, exec (.shiftRight x y) s = .next t ∧
        WritesRegAndFlag s t x ((s.reg y).toNat / 2) ((s.reg y).toNat % 2 = 1)) ∧
    (decodeWord (formatXYN 0x8 x y 0xE#4) = .shiftLeft x y ∧
      ∃ t, exec (.shiftLeft x y) s = .next t ∧
        WritesRegAndFlag s t x ((s.reg y).toNat * 2 % 256) (128 ≤ (s.reg y).toNat))

/-- R141: random writes the byte on the `rand` port, whatever it is, masked by `nn`, so a bit is set only where
`nn` has it; no flag.  The port's next byte and the draw counter are the model's. -/
def Obligations.RandomMasksTheHostByte : Prop :=
  ∀ (s : State) (x : Reg) (nn : Byte),
    decodeWord (formatXK 0xC x nn) = .random x nn ∧
    ∃ t, exec (.random x nn) s = .next t ∧
      (t.reg x).toNat = s.rand.toNat &&& nn.toNat ∧
      (∀ k, (t.reg x).getLsbD k = true → nn.getLsbD k = true) ∧
      (∀ z, z ≠ x → t.reg z = s.reg z) ∧
      t = { s with v := t.v, rand := t.rand, draws := t.draws } ∧
      ∀ a, t.mem.read a = s.mem.read a

/-- R21: an instruction changes a general register only if it names it as a destination (load-regs names `V[0]` to
`V[x]`), or the register is the flag register and the instruction defines a flag. -/
def Obligations.RegistersWrittenOnlyWhenNamed : Prop :=
  ∀ (i : Instr) (s t : State) (z : Reg), exec i s = .next t → t.reg z ≠ s.reg z →
    writesData z i ∨ (z = 15 ∧ definesFlag i = true)

/-- R22, R97: an instruction that defines a flag leaves 0x00 or 0x01 in the flag register whenever it completes (a
draw with the frame window open, in both without a fault), whatever its destination register is. -/
def Obligations.FlagIsZeroOrOne : Prop :=
  ∀ (i : Instr) (s t : State), definesFlag i = true → exec i s = .next t → t.halted = false →
    ((∃ x y n, i = .draw x y n) → s.frameOpen = true) → t.reg 15 = 0x00#8 ∨ t.reg 15 = 0x01#8

/-! ### Control transfer -/

/-- R111, R117: jump and jump-offset set `PC` to their target, unmasked, and change nothing else. -/
def Obligations.JumpsSetThePc : Prop :=
  ∀ (s : State) (nnn : Addr12),
    (decodeWord (formatA 0x1 nnn) = .jump nnn ∧
      exec (.jump nnn) s = .next { s with pc := BitVec.ofNat 16 nnn.toNat }) ∧
    (decodeWord (formatA 0xB nnn) = .jumpOffset nnn ∧
      ∃ t, exec (.jumpOffset nnn) s = .next t ∧ t = { s with pc := t.pc } ∧
        t.pc.toNat = (s.reg 0).toNat + nnn.toNat)

/-- R112: call pushes `PC` (`A + 2`) and jumps, and with 16 entries held faults instead. -/
def Obligations.CallPushesReturnAddress : Prop :=
  ∀ (s : State) (nnn : Addr12),
    decodeWord (formatA 0x2 nnn) = .call nnn ∧
    (∀ h : s.sp.val < 16, ∃ t, exec (.call nnn) s = .next t ∧
      t.sp.val = s.sp.val + 1 ∧ t.pc = BitVec.ofNat 16 nnn.toNat ∧
      t.stack.get ⟨s.sp.val, h⟩ = s.pc ∧
      (∀ k : Fin 16, k.val ≠ s.sp.val → t.stack.get k = s.stack.get k) ∧
      t = { s with pc := t.pc, sp := t.sp, stack := t.stack }) ∧
    (s.sp = 16 → exec (.call nnn) s = .next (faultState s .stackOverflow s.ir))

/-- R110, R30: return pops the top entry into `PC`, as it stands and without clearing it, and with an empty stack
faults instead. -/
def Obligations.ReturnPopsTheStack : Prop :=
  ∀ s : State,
    decodeWord 0x00EE#16 = .ret ∧
    (∀ h : s.sp.val - 1 < 16, 0 < s.sp.val → ∃ t, exec .ret s = .next t ∧
      t.sp.val = s.sp.val - 1 ∧ t.pc = s.stack.get ⟨s.sp.val - 1, h⟩ ∧
      t = { s with pc := t.pc, sp := t.sp }) ∧
    (s.sp = 0 → exec .ret s = .next (faultState s .stackUnderflow s.ir))

/-- A return reached with the stack as a call left it goes back to the instruction after the call, with the depth
as it was, whatever ran in between (R110, R112; vector L1-5). -/
def Obligations.CallThenReturnRestoresThePc : Prop :=
  ∀ (s : State) (nnn : Addr12), s.sp.val < 16 →
    ∃ t, exec (.call nnn) s = .next t ∧
      ∀ u : State, u.sp = t.sp → u.stack = t.stack →
        ∃ r, exec .ret u = .next r ∧ r.pc = s.pc ∧ r.sp = s.sp ∧
          ∀ k : Fin 16, k.val < s.sp.val → r.stack.get k = s.stack.get k

/-- R113, R114, R115, R116: a skip adds 2 to `PC` exactly when its predicate holds, and changes nothing else. -/
def Obligations.SkipsAddTwoWhenTheyHold : Prop :=
  ∀ (s : State) (x y : Reg) (nn : Byte),
    (decodeWord (formatXK 0x3 x nn) = .skipEqConst x nn ∧
      (s.reg x = nn → exec (.skipEqConst x nn) s = .next { s with pc := s.pc + 2#16 }) ∧
      (s.reg x ≠ nn → exec (.skipEqConst x nn) s = .next s)) ∧
    (decodeWord (formatXK 0x4 x nn) = .skipNeConst x nn ∧
      (s.reg x ≠ nn → exec (.skipNeConst x nn) s = .next { s with pc := s.pc + 2#16 }) ∧
      (s.reg x = nn → exec (.skipNeConst x nn) s = .next s)) ∧
    (decodeWord (formatXYN 0x5 x y 0x0#4) = .skipEqReg x y ∧
      (s.reg x = s.reg y → exec (.skipEqReg x y) s = .next { s with pc := s.pc + 2#16 }) ∧
      (s.reg x ≠ s.reg y → exec (.skipEqReg x y) s = .next s)) ∧
    (decodeWord (formatXYN 0x9 x y 0x0#4) = .skipNeReg x y ∧
      (s.reg x ≠ s.reg y → exec (.skipNeReg x y) s = .next { s with pc := s.pc + 2#16 }) ∧
      (s.reg x = s.reg y → exec (.skipNeReg x y) s = .next s))

/-- R184, R185: the key skips test `KEYDOWN[V[x]]`; a code above 15 counts as not down and never faults. -/
def Obligations.KeySkipsTestTheKey : Prop :=
  ∀ (s : State) (x : Reg),
    decodeWord (formatXK 0xE x 0x9E#8) = .skipKeyDown x ∧ decodeWord (formatXK 0xE x 0xA1#8) = .skipKeyUp x ∧
    (∀ h : (s.reg x).toNat < 16, s.keyDown.get ⟨(s.reg x).toNat, h⟩ = true →
      exec (.skipKeyDown x) s = .next { s with pc := s.pc + 2#16 } ∧ exec (.skipKeyUp x) s = .next s) ∧
    ((∀ h : (s.reg x).toNat < 16, s.keyDown.get ⟨(s.reg x).toNat, h⟩ = false) →
      exec (.skipKeyDown x) s = .next s ∧ exec (.skipKeyUp x) s = .next { s with pc := s.pc + 2#16 })

/-! ### The index register and memory -/

/-- R160, R162: a direct assignment to `I`; font-address uses the whole byte `V[x]`. -/
def Obligations.DirectIndexAssignments : Prop :=
  ∀ (s : State) (x : Reg) (nnn : Addr12),
    (decodeWord (formatA 0xA nnn) = .setIndex nnn ∧
      exec (.setIndex nnn) s = .next { s with i := BitVec.ofNat 16 nnn.toNat }) ∧
    (decodeWord (formatXK 0xF x 0x29#8) = .fontAddress x ∧
      ∃ t, exec (.fontAddress x) s = .next t ∧ t = { s with i := t.i } ∧ t.i.toNat = (s.reg x).toNat * 5)

/-- R161: add-index is modulo 2^16 and not masked to 12 bits, and its flag is 1 iff the new `I` is above 0xFFF. -/
def Obligations.AddIndexWrapsAndFlags : Prop :=
  ∀ (s : State) (x : Reg),
    decodeWord (formatXK 0xF x 0x1E#8) = .addIndex x ∧
    ∃ t, exec (.addIndex x) s = .next t ∧
      t.i.toNat = (s.i.toNat + (s.reg x).toNat) % 65536 ∧
      (0xFFF < t.i.toNat → t.reg 15 = 0x01#8) ∧ (t.i.toNat ≤ 0xFFF → t.reg 15 = 0x00#8) ∧
      (∀ z, z ≠ 15 → t.reg z = s.reg z) ∧ t = { s with i := t.i, v := t.v } ∧
      ∀ a, t.mem.read a = s.mem.read a

/-- R163: store-bcd writes the three digits at `I`, `I+1`, `I+2` and nothing else, or faults before any write. -/
def Obligations.StoreBcdWritesThreeDigits : Prop :=
  ∀ (s : State) (x : Reg), s.mem.wf = true →
    decodeWord (formatXK 0xF x 0x33#8) = .storeBcd x ∧
    (indexAddress s.i 2 ≤ 0xFFF → (0x04F < indexAddress s.i 0 ∨ s.glyphPolicy = .allow) →
      ∃ t, exec (.storeBcd x) s = .next t ∧
        (t.mem.read (indexAddress s.i 0)).toNat = (s.reg x).toNat / 100 ∧
        (t.mem.read (indexAddress s.i 1)).toNat = (s.reg x).toNat / 10 % 10 ∧
        (t.mem.read (indexAddress s.i 2)).toNat = (s.reg x).toNat % 10 ∧
        (∀ a, a < indexAddress s.i 0 ∨ indexAddress s.i 2 < a → t.mem.read a = s.mem.read a) ∧
        t = { s with mem := t.mem }) ∧
    (0xFFF < indexAddress s.i 2 → exec (.storeBcd x) s = .next (faultState s .writeOutOfRange s.i)) ∧
    (indexAddress s.i 0 ≤ 0x04F → s.glyphPolicy = .fault →
      exec (.storeBcd x) s = .next (faultState s .glyphWrite s.i))

/-- R164: store-regs writes `V[0]..V[x]` from `I` on and adds `x + 1` to `I`, or faults before any write. -/
def Obligations.StoreRegsWritesTheRange : Prop :=
  ∀ (s : State) (x : Reg), s.mem.wf = true →
    decodeWord (formatXK 0xF x 0x55#8) = .storeRegs x ∧
    (indexAddress s.i x.val ≤ 0xFFF → (0x04F < indexAddress s.i 0 ∨ s.glyphPolicy = .allow) →
      ∃ t, exec (.storeRegs x) s = .next t ∧
        (∀ k : Reg, k ≤ x → t.mem.read (indexAddress s.i k.val) = s.reg k) ∧
        (∀ a, a < indexAddress s.i 0 ∨ indexAddress s.i x.val < a → t.mem.read a = s.mem.read a) ∧
        t.i.toNat = (s.i.toNat + x.val + 1) % 65536 ∧
        t = { s with mem := t.mem, i := t.i }) ∧
    (0xFFF < indexAddress s.i x.val → exec (.storeRegs x) s = .next (faultState s .writeOutOfRange s.i)) ∧
    (indexAddress s.i 0 ≤ 0x04F → s.glyphPolicy = .fault →
      exec (.storeRegs x) s = .next (faultState s .glyphWrite s.i))

/-- R165: load-regs loads `V[0]..V[x]` from `I` on (`V[15]` as data) and adds `x + 1` to `I`, or faults before any
register is loaded. -/
def Obligations.LoadRegsReadsTheRange : Prop :=
  ∀ (s : State) (x : Reg),
    decodeWord (formatXK 0xF x 0x65#8) = .loadRegs x ∧
    (indexAddress s.i x.val ≤ 0xFFF →
      ∃ t, exec (.loadRegs x) s = .next t ∧
        (∀ k : Reg, k ≤ x → t.reg k = s.mem.read (indexAddress s.i k.val)) ∧
        (∀ k : Reg, x < k → t.reg k = s.reg k) ∧
        t.i.toNat = (s.i.toNat + x.val + 1) % 65536 ∧
        t = { s with v := t.v, i := t.i } ∧ ∀ a, t.mem.read a = s.mem.read a) ∧
    (0xFFF < indexAddress s.i x.val → exec (.loadRegs x) s = .next (faultState s .readOutOfRange s.i))

/-- After a store-regs of two registers or more, the word at the address stored to is the two bytes stored, high
byte first: the very next fetch from there reads it (R59, R66; program P6). -/
def Obligations.StoredBytesAreFetched : Prop :=
  ∀ (s t : State) (x : Reg), s.mem.wf = true → 1 ≤ x.val → exec (.storeRegs x) s = .next t → t.halted = false →
    t.mem.word (indexAddress s.i 0) = wordOfBytes (s.reg 0) (s.reg 1) ∧
      ∀ u : State, u.mem = t.mem → u.pc = s.i → u.nextInstr = decodeWord (wordOfBytes (s.reg 0) (s.reg 1))

/-- R63: a read returns the last write to that byte, and a write leaves every other byte alone. -/
def Obligations.ReadReturnsTheLastWrite : Prop :=
  ∀ (m : Memory) (a b : Nat) (u : Byte), m.wf = true →
    (m.write a u).read b = if b = a then u else m.read b

/-- Memories in canonical form that read the same everywhere are equal data. -/
def Obligations.CanonicalMemoriesAreDeterminedByReads : Prop :=
  ∀ m q : Memory, m.wf = true → q.wf = true → (∀ a, m.read a = q.read a) → m = q

/-! ### Display, keys, timers, unknown words -/

/-- R180, R227: clear-screen makes every pixel false, pulses `disp_clear`, and changes nothing else. -/
def Obligations.ClearScreenClearsEveryPixel : Prop :=
  ∀ s : State, decodeWord 0x00E0#16 = .clearScreen ∧
    ∃ t, exec .clearScreen s = .next t ∧ (∀ c r, t.disp.pixel c r = false) ∧
      t = { s with disp := t.disp, out := s.out ++ [.clear] }

/-- R181, R182, R183: with the frame window closed draw only sets `PC <- A`, even where its sprite is out of range; with
it open and a sprite byte past 0xFFF it faults and nothing is drawn; otherwise it inverts exactly the on-grid pixels
under set sprite bits, pulses `disp_toggle` once for each and then `disp_present`, writes the collision flag last, and
presents the frame (R229).  When the frame was presented is the model's field. -/
def Obligations.DrawTogglesTheSprite : Prop :=
  ∀ (s : State) (x y : Reg) (n : Nibble),
    decodeWord (formatXYN 0xD x y n) = .draw x y n ∧
    (s.frameOpen = false → exec (.draw x y n) s = .next { s with pc := s.fetchAddr }) ∧
    (s.frameOpen = true → 0 < n.toNat → 0xFFF < indexAddress s.i (n.toNat - 1) →
      exec (.draw x y n) s = .next (faultState s .readOutOfRange s.i)) ∧
    (s.frameOpen = true → indexAddress s.i n.toNat ≤ 0x1000 ∨ n = 0#4 →
      ∃ (t : State) (ps : List (Column × Row)), exec (.draw x y n) s = .next t ∧
        (∀ c r, spriteBit s x y n c r → t.disp.pixel c r = !s.disp.pixel c r) ∧
        (∀ c r, ¬spriteBit s x y n c r → t.disp.pixel c r = s.disp.pixel c r) ∧
        ((∃ c r, spriteBit s x y n c r ∧ s.disp.pixel c r = true) → t.reg 15 = 0x01#8) ∧
        ((¬∃ c r, spriteBit s x y n c r ∧ s.disp.pixel c r = true) → t.reg 15 = 0x00#8) ∧
        (∀ z, z ≠ 15 → t.reg z = s.reg z) ∧
        t.out = s.out ++ ps.map (fun p : Column × Row => Output.toggle p.1 p.2) ++ [.present] ∧
        ps.Nodup ∧ (∀ c r, (c, r) ∈ ps ↔ spriteBit s x y n c r) ∧
        t.visible = t.disp ∧ t.frameOpen = false ∧ (∀ a, t.mem.read a = s.mem.read a) ∧
        t = { s with
          v := t.v, disp := t.disp, visible := t.visible, frameOpen := t.frameOpen,
          lastPresent := t.lastPresent, out := t.out })

/-- R189: wait-key re-issues itself, changing nothing else, until a key release is reported; then it takes the code
and clears the latch (R231). -/
def Obligations.WaitKeyTakesAReleasedKey : Prop :=
  ∀ (s : State) (x : Reg),
    decodeWord (formatXK 0xF x 0x0A#8) = .waitKey x ∧
    (s.released = none → exec (.waitKey x) s = .next { s with pc := s.fetchAddr }) ∧
    (∀ k, s.released = some k → ∃ t, exec (.waitKey x) s = .next t ∧
      (t.reg x).toNat = k.val ∧ (∀ z, z ≠ x → t.reg z = s.reg z) ∧
      t = { s with v := t.v, released := none } ∧ ∀ a, t.mem.read a = s.mem.read a)

/-- R186: get-delay reads `DT`, and in a step the value that the timer actions of the step leave.  R186 speaks of one
scheduler iteration; what a step is, and so which timer actions come before, is the model's choice
(notes/assumptions/6.md). -/
def Obligations.GetDelayReadsTheTimer : Prop :=
  ∀ (s : State) (x : Reg),
    decodeWord (formatXK 0xF x 0x07#8) = .getDelay x ∧
    (∃ t, exec (.getDelay x) s = .next t ∧ WritesReg s t x s.dt) ∧
    (s.running → s.nextInstr = .getDelay x → ∃ t, step s = .next t ∧ t.reg x = s.pollTimers.dt)

/-- R187: set-delay writes `DT`, and no other instruction increases it. -/
def Obligations.SetDelaySetsTheTimer : Prop :=
  ∀ (s : State) (x : Reg),
    decodeWord (formatXK 0xF x 0x15#8) = .setDelay x ∧
    exec (.setDelay x) s = .next { s with dt := s.reg x } ∧
    ∀ (i : Instr) (t : State), exec i s = .next t → s.dt.toNat < t.dt.toNat → ∃ y, i = .setDelay y

/-- R188, R221: set-sound writes `ST`, and after it with the value `k` exactly the next `k` timer actions each request
a tone. -/
def Obligations.SetSoundCountsTones : Prop :=
  ∀ (s : State) (x : Reg),
    decodeWord (formatXK 0xF x 0x18#8) = .setSound x ∧
    exec (.setSound x) s = .next { s with st := s.reg x } ∧
    ∀ n : Nat, (State.timerAction^[n] { s with st := s.reg x }).out =
      s.out ++ List.replicate (min n (s.reg x).toNat) Output.tone

/-- R200, R201: every word that matches no row of the opcode map is a no-op that pulses `diag_unknown` with the word
and its address. -/
def Obligations.UnknownWordsAreNoOps : Prop :=
  ∀ (s : State) (w : Word), isListed w = false →
    decodeWord w = .unknown w ∧
    exec (.unknown w) s = .next { s with out := s.out ++ [.diagUnknown w s.fetchAddr] }

/-! ### Who may write or read what -/

/-- Each field of the state has only its writers among the instructions: `V` (R21, R22), `I` (R24), `PC` (R26), `SP` and
the stack (R30), `DT` (R31), `ST` (R32), memory (R61), the halt and the fault status (R34 to R37), the display (R40), the
visible frame, the frame window and the last present (R229), the released latch (R231), the random port (R234), the
pulses (R226); the key flags (R42), the clock, the configuration, `IR`, `A` and the host's quit have none.  The last
present, the draws and the list of pulses are the model's fields (notes/assumptions/13.md, 5.md, 21.md). -/
def Obligations.EachFieldHasItsWriters : Prop :=
  ∀ (i : Instr) (s t : State), exec i s = .next t →
    (t.v ≠ s.v → (∃ z, writesData z i) ∨ definesFlag i = true) ∧
    (t.i ≠ s.i → (∃ nnn, i = .setIndex nnn) ∨ (∃ x, i = .fontAddress x) ∨ (∃ x, i = .addIndex x) ∨
      (∃ x, i = .storeRegs x) ∨ ∃ x, i = .loadRegs x) ∧
    (t.pc ≠ s.pc → i = .ret ∨ (∃ nnn, i = .jump nnn) ∨ (∃ nnn, i = .call nnn) ∨ (∃ nnn, i = .jumpOffset nnn) ∨
      (∃ x nn, i = .skipEqConst x nn) ∨ (∃ x nn, i = .skipNeConst x nn) ∨ (∃ x y, i = .skipEqReg x y) ∨
      (∃ x y, i = .skipNeReg x y) ∨ (∃ x, i = .skipKeyDown x) ∨ (∃ x, i = .skipKeyUp x) ∨
      (∃ x y n, i = .draw x y n) ∨ (∃ x, i = .waitKey x) ∨ (t.halted = true ∧ t.pc = s.fetchAddr)) ∧
    (t.sp ≠ s.sp → i = .ret ∨ ∃ nnn, i = .call nnn) ∧
    (t.stack ≠ s.stack → ∃ nnn, i = .call nnn) ∧
    (t.dt ≠ s.dt → ∃ x, i = .setDelay x) ∧
    (t.st ≠ s.st → ∃ x, i = .setSound x) ∧
    (t.mem ≠ s.mem → (∃ x, i = .storeBcd x) ∨ ∃ x, i = .storeRegs x) ∧
    (t.halted ≠ s.halted ∨ t.faultCause ≠ s.faultCause ∨ t.faultPc ≠ s.faultPc ∨ t.faultInfo ≠ s.faultInfo →
      ∃ cause info, RaisesFault i s cause info) ∧
    (t.disp ≠ s.disp → i = .clearScreen ∨ ∃ x y n, i = .draw x y n) ∧
    (t.visible ≠ s.visible ∨ t.frameOpen ≠ s.frameOpen ∨ t.lastPresent ≠ s.lastPresent → ∃ x y n, i = .draw x y n) ∧
    (t.released ≠ s.released → ∃ x, i = .waitKey x) ∧
    (t.rand ≠ s.rand ∨ t.draws ≠ s.draws → ∃ x nn, i = .random x nn) ∧
    (t.out ≠ s.out → i = .clearScreen ∨ (∃ x y n, i = .draw x y n) ∨ ∃ w, i = .unknown w) ∧
    t.keyDown = s.keyDown ∧ t.tTimer = s.tTimer ∧ t.tInsn = s.tInsn ∧ t.now = s.now ∧
    t.ir = s.ir ∧ t.fetchAddr = s.fetchAddr ∧ t.quitIn = s.quitIn ∧ t.glyphPolicy = s.glyphPolicy ∧
    t.rates = s.rates ∧ t.earlyDraw = s.earlyDraw ∧ t.lateDraw = s.lateDraw

/-- R30: the call stack is read and written only by call and return: any other instruction runs the same whatever the
stack holds, and leaves it as it was. -/
def Obligations.StackIsPrivateToCallAndReturn : Prop :=
  ∀ (i : Instr) (s : State) (sp : Fin 17) (stack : Vector Word 16), i ≠ .ret → (∀ nnn, i ≠ .call nnn) →
    exec i { s with sp := sp, stack := stack } =
      mapNext (fun t => { t with sp := sp, stack := stack }) (exec i s)

/-- R61: no instruction but draw, store-bcd, store-regs and load-regs touches memory, in reading or in writing. -/
def Obligations.MemoryIsPrivateToItsInstructions : Prop :=
  ∀ (i : Instr) (s : State) (mem : Memory), (∀ x y n, i ≠ .draw x y n) → (∀ x, i ≠ .storeBcd x) →
    (∀ x, i ≠ .storeRegs x) → (∀ x, i ≠ .loadRegs x) →
    exec i { s with mem := mem } = mapNext (fun t => { t with mem := mem }) (exec i s)

/-- R32, R38: no instruction reads `ST` or the scheduler's reference times: it runs the same whatever they hold
(set-sound writes `ST` the same). -/
def Obligations.SoundTimerAndReferenceTimesAreUnreadable : Prop :=
  ∀ (i : Instr) (s : State) (st : Byte) (tTimer tInsn : Nat),
    exec i { s with st := st, tTimer := tTimer, tInsn := tInsn } =
      mapNext (fun t => { t with st := if ∃ x, i = .setSound x then t.st else st, tTimer := tTimer, tInsn := tInsn })
        (exec i s)

/-- R34 to R37, R212: no instruction reads the fault status: a running core does the same whatever the status
registers hold, and keeps them unless it faults. -/
def Obligations.FaultStatusIsUnreadable : Prop :=
  ∀ (i : Instr) (s : State) (cause : FaultCause) (fpc info : Word), s.halted = false →
    exec i { s with faultCause := cause, faultPc := fpc, faultInfo := info } =
      mapNext (fun t => if t.halted then t else { t with faultCause := cause, faultPc := fpc, faultInfo := info })
        (exec i s)

/-! ### Faults -/

/-- Every instruction, in every state, answers a next state: the block has no illegal instruction and no stop of the
model's (R74, R200, R213). -/
def Obligations.EveryInstructionAnswersNext : Prop :=
  ∀ (i : Instr) (s : State), ∃ t, exec i s = .next t

/-- R101, R211, R213: an instruction that halts the core raised one of its own causes, with its `FAULT_INFO`, and
left everything else as it was with `PC` naming it. -/
def Obligations.InstructionFaultsArePrecise : Prop :=
  ∀ (i : Instr) (s t : State), s.halted = false → exec i s = .next t → t.halted = true →
    ∃ cause info, RaisesFault i s cause info ∧ t = faultState s cause info

/-- The other way: whenever the condition of one of its causes holds, the instruction raises it (R211, R216). -/
def Obligations.FaultConditionsHalt : Prop :=
  ∀ (i : Instr) (s : State) (cause : FaultCause) (info : Word), RaisesFault i s cause info →
    exec i s = .next (faultState s cause info)

/-- R91, R213: a fetch above 0xFFE raises `FETCH_OUT_OF_RANGE` with the `PC` it was attempted at, after the timer actions
of the step, and changes nothing else but the fetch address and `T_INSN`; a fetch at 0xFFE reads 0xFFE and 0xFFF and runs.  That an
action that faults is recorded in `T_INSN` as any other (R38, R218, R222), in the fetch or in the instruction, is DEDUCED
beside the words of R213 and R214 (notes/assumptions/9.md); the samples and the environment's turn are those of
notes/assumptions/6.md and 5.md. -/
def Obligations.FetchPastMemoryHalts : Prop :=
  ∀ s : State, s.quit = false → s.halted = false →
    (0xFFE < s.pc.toNat → step s = .next { s.pollTimers with
      fetchAddr := s.pc, faultCause := .fetchOutOfRange, faultPc := s.pc, faultInfo := s.pc, halted := true,
      tInsn := s.lateSample }) ∧
    (s.pc = 0x0FFE#16 →
      step s = mapNext (fun t => if t.halted then t.recordInsn else t.pump.recordInsn.environmentTurn)
        (exec (decodeWord (wordOfBytes (s.mem.read 0xFFE) (s.mem.read 0xFFF))) { s.pollTimers with
          fetchAddr := 0x0FFE#16, ir := wordOfBytes (s.mem.read 0xFFE) (s.mem.read 0xFFF), pc := 0x1000#16 }))

/-- R101, R213, R222: a step faults exactly when its fetch or its instruction meets a fault condition, and then it leaves
what the timer actions of the step left, with `PC` and `FAULT_PC` at the faulting instruction, the cause recorded, and
`T_INSN` at the sample that fired the action: no effect of the instruction and no input pump.  That `T_INSN` is recorded
beside the words of R213 and R214 is DEDUCED from R38, R218 and R222 (notes/assumptions/9.md). -/
def Obligations.FaultEntryRecordsTheFault : Prop :=
  ∀ s : State, s.quit = false → s.halted = false →
    (∀ cause info, FaultsNow s cause info → ∃ t, step s = .next t ∧
      t = { s.pollTimers with
        fetchAddr := s.pc, ir := t.ir, pc := s.pc, faultCause := cause, faultPc := s.pc, faultInfo := info,
        halted := true, tInsn := s.lateSample }) ∧
    (∀ t, step s = .next t → t.halted = true → ∃ cause info, FaultsNow s cause info)

/-- R214, R215: a halted core stays as it is for the rest of the run: however many steps, every piece of state keeps
its value and no output port pulses. -/
def Obligations.HaltedIsFinal : Prop :=
  ∀ (k : Nat) (s : State), s.quit = false → s.halted = true →
    Host.Core.run core (k + 1) s = .next { s with out := [] }

/-! ### The step and the scheduler -/

/-- When the bytes at `PC` decode to an instruction, a step of a running core polls the timers, fetches, runs exactly
`exec` of it with `PC = A + 2`, and then pumps the input collaborator (unless it faulted), records `T_INSN` and (unless it
faulted) lets the environment take its turn (R90, R92, R93, R99, R218).  That a faulting action records `T_INSN` too is
DEDUCED beside the words of R213 and R214 (notes/assumptions/9.md); that a step ends after one instruction action, and
with the environment's turn, is the model's choice (notes/assumptions/6.md, 5.md). -/
def Obligations.StepRunsTheDecodedInstruction : Prop :=
  ∀ (s : State) (i : Instr) (rest : List Byte), s.running → i.wellFormed = true →
    decode (s.mem.read s.pc.toNat :: s.mem.read (s.pc.toNat + 1) :: rest) = .ok (i, rest) →
    step s = mapNext (fun t => if t.halted then t.recordInsn else t.pump.recordInsn.environmentTurn)
      (exec i { s.pollTimers with
        fetchAddr := s.pc, ir := encode i, pc := BitVec.ofNat 16 (s.pc.toNat + 2) })

/-- The model's step is total until the host quits: every step of a core that the host has not quit answers a next state,
and only brings the host's own quit one instruction action nearer, unless it leaves the core halted (R225).  This rests on the model's choices: that the host goes on sampling the clock until an
instruction action is due (DESIGN CHOICE notes/assumptions/6.md, unsafe for just this claim), that a core halted by a
fault, which ends a run of the block (R247), steps to itself (DESIGN CHOICE notes/assumptions/8.md), and how the host's
quit is held (DESIGN CHOICE notes/assumptions/7.md). -/
def Obligations.EveryStepAnswersNext : Prop :=
  ∀ s : State, s.quit = false → ∃ t, step s = .next t ∧
    t.quitIn = if t.halted then s.quitIn else s.quitIn.map (· - 1)

/-- R225 as the model takes it (notes/assumptions/7.md): once the host has set `quit` the run is over, and the step
after it, and no other, gives no state; and from a state in which the host quits after `n` instruction actions no run is
longer than `n` steps, unless a fault has halted it. -/
def Obligations.QuitEndsTheRun : Prop :=
  (∀ s : State, step s.hostQuit = .fault .runEnded) ∧
  (∀ s : State, step s = .fault .runEnded ↔ s.quit = true) ∧
  ∀ (n : Nat) (s t : State), s.quitIn = some n → Host.Core.run core (n + 1) s = .next t → t.halted = true

/-- A step is scheduler iterations of R218: at samples too early for an instruction action, never decreasing, and at one
that fires it, and then the environment's turn.  Any early samples that never decrease, and any late one, are the samples
of some host draws, so no sampling by the host is lost (R222, R223).  That a step goes from one instruction action to the
next is the model's choice (notes/assumptions/6.md), and so are the draws (notes/assumptions/5.md). -/
def Obligations.StepIsSchedulerIterations : Prop :=
  ∀ s : State, s.quit = false → s.halted = false →
    step s = mapNext (fun t => if t.halted then t else t.environmentTurn)
      (State.iterations s.quiet (s.earlySamples ++ [s.lateSample])) ∧
    (∀ now, now ∈ s.earlySamples → s.tInsn ≤ now ∧ now < s.tInsn + s.rates.insnPeriod) ∧
    s.earlySamples.Pairwise (· ≤ ·) ∧ s.tInsn + s.rates.insnPeriod ≤ s.lateSample ∧
    (∀ early : List Nat, early.Pairwise (· ≤ ·) →
      (∀ now, now ∈ early → s.tInsn ≤ now ∧ now < s.tInsn + s.rates.insnPeriod) →
      ∃ gaps, ({ s with earlyDraw := gaps } : State).earlySamples = early) ∧
    ∀ late : Nat, s.tInsn + s.rates.insnPeriod ≤ late → ∃ d, ({ s with lateDraw := d } : State).lateSample = late

/-- Where instructions are due at least as often as timers, as at the default rates, whatever samples come before an
instruction action is due, and then one at which it is, the scheduler of R218 does what it does with one early sample
(R218, R222, R223).  It says how much of the choice of notes/assumptions/6.md, any number of early samples in a step, a run
can show. -/
def Obligations.EarlySamplesCollapseToOne : Prop :=
  ∀ (s : State) (early : List Nat) (late : Nat), s.rates.insnPeriod ≤ s.rates.timerPeriod →
    ClockInv s → s.halted = false →
    (∀ now, now ∈ early → s.tInsn ≤ now ∧ now < s.tInsn + s.rates.insnPeriod) →
    s.tInsn + s.rates.insnPeriod ≤ late →
    ∃ e, e < s.rates.insnPeriod ∧
      State.iterations s (early ++ [late]) = State.iterations s [s.tInsn + e, late]

/-- R99: an instruction action that does not fault, deferred or not, pumps the input collaborator once, after executing,
and finds on the key ports what the host then draws (R231); one that faults does not pump. -/
def Obligations.EachActionPumpsOnce : Prop :=
  ∀ s t : State, s.running → step s = .next t →
    (t.halted = false → t.out.count .pump = 1 ∧ t.out.getLast? = some .pump ∧
      t.keyDown = Config.keyDownDraw (t.draws - 2) ∧ t.released = Config.releasedDraw (t.draws - 2)) ∧
    (t.halted = true → Output.pump ∉ t.out ∧ t.keyDown = s.keyDown ∧ t.released = s.released)

/-- R219, R220: the timer action decrements each nonzero timer by 1, leaves a zero timer at 0, and requests a tone
iff `ST` was nonzero before its decrement. -/
def Obligations.TimerActionDecrementsAndTones : Prop :=
  ∀ s : State,
    s.timerAction.dt.toNat = s.dt.toNat - 1 ∧ s.timerAction.st.toNat = s.st.toNat - 1 ∧
    (s.st ≠ 0#8 → s.timerAction.out = s.out ++ [.tone]) ∧ (s.st = 0#8 → s.timerAction.out = s.out) ∧
    s.timerAction = { s with dt := s.timerAction.dt, st := s.timerAction.st, out := s.timerAction.out }

/-- With samples 1 unit apart timer actions fall exactly every timer period, which at the default rates is 70 units: from a
reference time on, `n` samples bring the delay timer down by one for every period (R220, R223; trace S1). -/
def Obligations.UnitSamplesTickEverySeventy : Prop :=
  ∀ (s : State) (n : Nat),
    let t := (List.range n).foldl (fun u k => u.pollTimer (s.tTimer + (k + 1))) s
    let period := s.rates.timerPeriod
    t.dt.toNat = s.dt.toNat - n / period ∧ t.tTimer = s.tTimer + n / period * period ∧
      (s.rates = Config.defaultRates → period = 70)

/-- R31, R187: the delay timer increases in a step only if the step ran a set-delay. -/
def Obligations.DelayTimerRisesOnlyBySetDelay : Prop :=
  ∀ s t : State, step s = .next t → s.dt.toNat < t.dt.toNat →
    s.running ∧ ∃ x, s.nextInstr = .setDelay x

/-- R98: a draw with the window closed, and a wait-key with no release, is fetched again by the next step: the core still
runs (unless the host quits at the end of this step), `PC` is where it was, and registers, flag, memory, stack, display, visible frame, fault status and random port are
unchanged, while the timers run and the input is pumped.  That the timers are as the step's samples leave them, and the
environment's turn at its end, are the model's (notes/assumptions/6.md, 5.md), as is how the host's quit is held (7.md). -/
def Obligations.DeferredInstructionIsRefetched : Prop :=
  ∀ s : State, s.running →
    ((∃ x y n, s.nextInstr = .draw x y n ∧ s.frameOpen = false) ∨ ∃ x, s.nextInstr = .waitKey x ∧ s.released = none) →
    ∃ t, step s = .next t ∧ t.halted = false ∧ (s.quitIn ≠ some 1 → t.running) ∧ t.pc = s.pc ∧ t.nextInstr = s.nextInstr ∧ t.v = s.v ∧ t.i = s.i ∧
      t.mem = s.mem ∧ t.sp = s.sp ∧ t.stack = s.stack ∧ t.disp = s.disp ∧ t.visible = s.visible ∧
      t.lastPresent = s.lastPresent ∧ t.faultCause = s.faultCause ∧ t.faultPc = s.faultPc ∧
      t.faultInfo = s.faultInfo ∧ t.rand = s.rand ∧ t.glyphPolicy = s.glyphPolicy ∧ t.rates = s.rates ∧
      t.dt = s.pollTimers.dt ∧ t.st = s.pollTimers.st ∧ Output.pump ∈ t.out

/-! ### Reset and invariants -/

/-- R45, R240, R241: the state a run starts in, for every configuration and image that fits. -/
def Obligations.BootGivesTheResetState : Prop :=
  ∀ (cfg : BootConfig) (image : List Byte), image.length ≤ 3584 →
    ∃ s, boot cfg true (some image) = .next s ∧
      (∀ z, s.reg z = 0x00#8) ∧ s.i = 0x0000#16 ∧ s.pc = 0x0200#16 ∧ s.sp = 0 ∧
      (∀ k, s.stack.get k = 0x0000#16) ∧ s.dt = 0x00#8 ∧ s.st = 0x00#8 ∧
      (∀ k : Fin 80, s.mem.read k.val = cfg.font.get k) ∧
      (∀ a, 0x050 ≤ a → a ≤ 0x1FF → s.mem.read a = 0x00#8) ∧
      (∀ j, ∀ h : j < image.length, s.mem.read (0x200 + j) = image[j]) ∧
      (∀ a, 0x200 + image.length ≤ a → a ≤ 0xFFF → s.mem.read a = 0x00#8) ∧
      s.halted = false ∧ s.faultCause = .none ∧ s.faultPc = 0x0000#16 ∧ s.faultInfo = 0x0000#16 ∧
      s.tTimer = cfg.t0 ∧ s.tInsn = cfg.t0 ∧ s.now = cfg.t0 ∧ s.glyphPolicy = cfg.glyphPolicy ∧ s.rates = cfg.rates ∧
      s.quitIn = cfg.quitIn ∧
      (∀ c r, s.disp.pixel c r = false) ∧ s.frameOpen = true ∧ (∀ k, s.keyDown.get k = false) ∧
      s.released = none

/-- R56: an image longer than 3584 bytes is refused and not truncated, and so is one that could not be read; the image
goes to 0x200 byte by byte (R233, R242).  The names of the refusals are the model's (notes/assumptions/22.md), and so is
which one is given where a collaborator is not ready as well (DESIGN CHOICE, notes/assumptions/25.md): the spec says only
that the block does not start. -/
def Obligations.LoaderPlacesOrRefusesTheImage : Prop :=
  (∀ (cfg : BootConfig) (ready : Bool) (image : List Byte), 3584 < image.length →
    boot cfg ready (some image) = .refused .loadFailure) ∧
  (∀ (cfg : BootConfig) (ready : Bool), boot cfg ready none = .refused .loadFailure) ∧
  (∀ (cfg : BootConfig) (image : List Byte), image.length ≤ 3584 →
    boot cfg false (some image) = .refused .collaboratorInitFailure ∧
    ∃ s, boot cfg true (some image) = .next s ∧ ∀ j, ∀ h : j < image.length, s.mem.read (0x200 + j) = image[j])

/-- The state a run starts in meets every invariant and, unless the host quits before the first instruction action, runs,
for every configuration and every image that fits; the reset state is the one of the default configuration and an empty
image (R45, R240).  The canonical form of memory is DESIGN CHOICE 12, and how the host's quit is held DESIGN CHOICE 7. -/
def Obligations.ResetMeetsTheInvariants : Prop :=
  (∀ (cfg : BootConfig) (image : List Byte), image.length ≤ 3584 →
    ∃ s, boot cfg true (some image) = .next s ∧
      s.mem.wf = true ∧ ClockInv s ∧ FrameInv s ∧ StatusInv s ∧
      s.halted = false ∧ s.pc.toNat ≤ 0xFFE ∧ (cfg.quitIn ≠ some 0 → s.running)) ∧
  boot defaultBoot true (some []) = .next State.reset ∧
  State.reset.mem.wf = true ∧ ClockInv State.reset ∧ FrameInv State.reset ∧ StatusInv State.reset ∧
  State.reset.halted = false ∧ State.reset.pc.toNat ≤ 0xFFE ∧ (Config.quitIn ≠ some 0 → State.reset.running)

/-- Every step keeps memory in the model's canonical form.  The form, a list of address and byte pairs, is DESIGN CHOICE 12
(notes/assumptions/12.md) and no rule's; that every byte stored lies inside memory is R51 and R58. -/
def Obligations.StepKeepsMemoryCanonical : Prop :=
  ∀ s t : State, s.mem.wf = true → step s = .next t → t.mem.wf = true

/-- R222, R223: every step keeps the clock's invariant, and the clock never runs back; a timer action that fires is a
period after the one before it, and so is the instruction action of a step.  Where the step faults, both that `T_INSN` is
the last sample and that it is a period later rest on a faulting action recording it, DEDUCED in notes/assumptions/9.md
and unsafe for such a claim about a halted core; what a step is is the model's choice (6.md). -/
def Obligations.StepKeepsTheClock : Prop :=
  ∀ s t : State, ClockInv s → step s = .next t →
    ClockInv t ∧ s.now ≤ t.now ∧ (t.tTimer = s.tTimer ∨ s.tTimer + s.rates.timerPeriod ≤ t.tTimer) ∧
      (s.halted = false → s.tInsn + s.rates.insnPeriod ≤ t.tInsn)

/-- Every step keeps the frame window open before any present (R230) and the fault status honest (R34, R35). -/
def Obligations.StepKeepsFrameAndStatus : Prop :=
  ∀ s t : State, step s = .next t →
    (FrameInv s → FrameInv t) ∧ (StatusInv s → StatusInv t)

/-- R53: under the default policy the glyph region is never mutated: however long a run goes on from a state whose
memory is in canonical form, the 80 glyph bytes read as they did. -/
def Obligations.GlyphsAreNeverMutated : Prop :=
  ∀ (k : Nat) (s t : State), s.glyphPolicy = .fault → s.mem.wf = true → Host.Core.run core k s = .next t →
    t.glyphPolicy = .fault ∧ ∀ a, a ≤ 0x04F → t.mem.read a = s.mem.read a
end

