-- ==== Sys2Proof/Laws/Decode.lean ====
section
/-! SUPPORT. The fields of the encoder's formats, and the opcode map's masks said through the fields (R71, R75). -/

namespace Sys2Proof

theorem toNat_formatA {f : Nat} (hf : f < 16) (nnn : Addr12) :
    (formatA f nnn).toNat = f * 4096 + nnn.toNat := by
  have := nnn.isLt
  simp only [formatA, BitVec.toNat_ofNat]; omega

theorem toNat_formatXK {f : Nat} (hf : f < 16) (x : Reg) (nn : Byte) :
    (formatXK f x nn).toNat = f * 4096 + x.val * 256 + nn.toNat := by
  have := nn.isLt; have := x.isLt
  simp only [formatXK, BitVec.toNat_ofNat]; omega

theorem toNat_formatXYN {f : Nat} (hf : f < 16) (x y : Reg) (n : Nibble) :
    (formatXYN f x y n).toNat = f * 4096 + x.val * 256 + y.val * 16 + n.toNat := by
  have := n.isLt; have := x.isLt; have := y.isLt
  simp only [formatXYN, BitVec.toNat_ofNat]; omega

@[simp] theorem fieldF_formatA {f : Nat} (hf : f < 16) (nnn : Addr12) : fieldF (formatA f nnn) = f := by
  have := nnn.isLt
  simp only [fieldF, bits, toNat_formatA hf]; omega

@[simp] theorem constNNN_formatA {f : Nat} (hf : f < 16) (nnn : Addr12) : constNNN (formatA f nnn) = nnn := by
  have := nnn.isLt
  apply BitVec.eq_of_toNat_eq
  simp only [constNNN, bits, toNat_formatA hf, BitVec.toNat_ofNat]; omega

@[simp] theorem fieldF_formatXK {f : Nat} (hf : f < 16) (x : Reg) (nn : Byte) :
    fieldF (formatXK f x nn) = f := by
  have := nn.isLt; have := x.isLt
  simp only [fieldF, bits, toNat_formatXK hf]; omega

@[simp] theorem fieldX_formatXK {f : Nat} (hf : f < 16) (x : Reg) (nn : Byte) :
    fieldX (formatXK f x nn) = x := by
  have := nn.isLt; have := x.isLt
  apply Fin.ext
  simp only [fieldX, bits, toNat_formatXK hf, Fin.val_ofNat]; omega

@[simp] theorem fieldNN_formatXK {f : Nat} (hf : f < 16) (x : Reg) (nn : Byte) :
    fieldNN (formatXK f x nn) = nn.toNat := by
  have := nn.isLt; have := x.isLt
  simp only [fieldNN, bits, toNat_formatXK hf]; omega

@[simp] theorem constNN_formatXK {f : Nat} (hf : f < 16) (x : Reg) (nn : Byte) :
    constNN (formatXK f x nn) = nn := by
  simp [constNN, fieldNN_formatXK hf]

@[simp] theorem fieldF_formatXYN {f : Nat} (hf : f < 16) (x y : Reg) (n : Nibble) :
    fieldF (formatXYN f x y n) = f := by
  have := n.isLt; have := x.isLt; have := y.isLt
  simp only [fieldF, bits, toNat_formatXYN hf]; omega

@[simp] theorem fieldX_formatXYN {f : Nat} (hf : f < 16) (x y : Reg) (n : Nibble) :
    fieldX (formatXYN f x y n) = x := by
  have := n.isLt; have := x.isLt; have := y.isLt
  apply Fin.ext
  simp only [fieldX, bits, toNat_formatXYN hf, Fin.val_ofNat]; omega

@[simp] theorem fieldY_formatXYN {f : Nat} (hf : f < 16) (x y : Reg) (n : Nibble) :
    fieldY (formatXYN f x y n) = y := by
  have := n.isLt; have := x.isLt; have := y.isLt
  apply Fin.ext
  simp only [fieldY, bits, toNat_formatXYN hf, Fin.val_ofNat]; omega

@[simp] theorem fieldN_formatXYN {f : Nat} (hf : f < 16) (x y : Reg) (n : Nibble) :
    fieldN (formatXYN f x y n) = n.toNat := by
  have := n.isLt; have := x.isLt; have := y.isLt
  simp only [fieldN, bits, toNat_formatXYN hf]; omega

@[simp] theorem constN_formatXYN {f : Nat} (hf : f < 16) (x y : Reg) (n : Nibble) :
    constN (formatXYN f x y n) = n := by
  simp [constN, fieldN_formatXYN hf]

/-- A word is its two bytes, high byte first (R59). -/
@[simp] theorem wordOfBytes_bytes (w : Word) : wordOfBytes (highByte w) (lowByte w) = w := by
  have := w.isLt
  apply BitVec.eq_of_toNat_eq
  simp only [wordOfBytes, highByte, lowByte, BitVec.toNat_ofNat]; omega

/-- The decoder on the bytes of a word. -/
@[simp] theorem decode_bytesOfWord (w : Word) (rest : List Byte) :
    decode (bytesOfWord w ++ rest) = .ok (decodeWord w, rest) := by
  simp [bytesOfWord, decode]

/-- The host's table word is decoded as its word (R59, R74). -/
theorem decodeTableWord_toNat (w : Word) : decodeTableWord 16 w.toNat = some (decodeWord w) := by
  have hw : BitVec.ofNat 16 (w.toNat % 2 ^ 16) = w := by
    apply BitVec.eq_of_toNat_eq; have := w.isLt; simp only [BitVec.toNat_ofNat]; omega
  have := decode_bytesOfWord w []
  simp only [List.append_nil] at this
  rw [decodeTableWord, hw, this]

/-! ### The masks of the opcode map -/

theorem fieldF_lt (w : Word) : fieldF w < 16 := by simp only [fieldF, bits]; omega

theorem fieldN_lt (w : Word) : fieldN w < 16 := by simp only [fieldN, bits]; omega

theorem fieldNN_lt (w : Word) : fieldNN w < 256 := by simp only [fieldNN, bits]; omega

theorem testBit_past {w : Word} {j : Nat} (hj : 16 ≤ j) : w.toNat.testBit j = false :=
  Nat.testBit_lt_two_pow (Nat.lt_of_lt_of_le w.isLt (Nat.pow_le_pow_right (by decide) hj))

/-- A mask of the family nibble and the low `k` bits keeps just those fields. -/
theorem toNat_and_mask {w : Word} {k : Nat} (hk : k ≤ 12) (mask : Word)
    (hm : ∀ j, j < 16 → mask.toNat.testBit j = (decide (j < k) || decide (12 ≤ j))) :
    (w &&& mask).toNat = 2 ^ 12 * (w.toNat / 2 ^ 12) + w.toNat % 2 ^ k := by
  apply Nat.eq_of_testBit_eq
  intro j
  have hlt : w.toNat % 2 ^ k < 2 ^ 12 :=
    Nat.lt_of_lt_of_le (Nat.mod_lt _ (Nat.two_pow_pos k)) (Nat.pow_le_pow_right (by decide) hk)
  rw [BitVec.toNat_and, Nat.testBit_and, Nat.testBit_two_pow_mul_add _ hlt]
  by_cases hj : j < 16
  · rw [hm j hj]
    by_cases h12 : j < 12
    · rw [if_pos h12, Nat.testBit_mod_two_pow]
      have : ¬(12 ≤ j) := by omega
      simp [this, Bool.and_comm]
    · rw [if_neg h12, Nat.testBit_div_two_pow]
      have h1 : 12 ≤ j := by omega
      have h2 : j - 12 + 12 = j := by omega
      simp [h1]
  · have h16 : 16 ≤ j := by omega
    rw [testBit_past h16, if_neg (by omega), Nat.testBit_div_two_pow]
    have h2 : j - 12 + 12 = j := by omega
    rw [h2]
    simp only [testBit_past h16, Bool.false_and]

theorem and_F000 (w : Word) : (w &&& 0xF000#16).toNat = fieldF w * 4096 := by
  rw [toNat_and_mask (k := 0) (by decide) _ (by decide)]
  have := w.isLt
  simp only [fieldF, bits]; omega

theorem and_F00F (w : Word) : (w &&& 0xF00F#16).toNat = fieldF w * 4096 + fieldN w := by
  rw [toNat_and_mask (k := 4) (by decide) _ (by decide)]
  have := w.isLt
  simp only [fieldF, fieldN, bits]; omega

theorem and_F0FF (w : Word) : (w &&& 0xF0FF#16).toNat = fieldF w * 4096 + fieldNN w := by
  rw [toNat_and_mask (k := 8) (by decide) _ (by decide)]
  have := w.isLt
  simp only [fieldF, fieldNN, bits]; omega

theorem and_FFFF (w : Word) : w &&& 0xFFFF#16 = w := by
  have : (0xFFFF#16 : Word) = BitVec.allOnes 16 := by decide
  rw [this, BitVec.and_allOnes]

/-- A row with the mask of format `A`, `XK` or `XYN` hits the words of its family nibble. -/
theorem hits_F000 {m : String} {p : Word} (w : Word) :
    (OpcodeRow.mk m 0xF000#16 p).hits w = true ↔ fieldF w * 4096 = p.toNat := by
  rw [← and_F000, BitVec.toNat_inj]; simp [OpcodeRow.hits]

/-- A row with the mask of format `XY` hits the words of its family nibble and low nibble. -/
theorem hits_F00F {m : String} {p : Word} (w : Word) :
    (OpcodeRow.mk m 0xF00F#16 p).hits w = true ↔ fieldF w * 4096 + fieldN w = p.toNat := by
  rw [← and_F00F, BitVec.toNat_inj]; simp [OpcodeRow.hits]

/-- A row with the mask of format `X` hits the words of its family nibble and low byte. -/
theorem hits_F0FF {m : String} {p : Word} (w : Word) :
    (OpcodeRow.mk m 0xF0FF#16 p).hits w = true ↔ fieldF w * 4096 + fieldNN w = p.toNat := by
  rw [← and_F0FF, BitVec.toNat_inj]; simp [OpcodeRow.hits]

/-- A row with every bit fixed hits its word alone. -/
theorem hits_FFFF {m : String} {p : Word} (w : Word) :
    (OpcodeRow.mk m 0xFFFF#16 p).hits w = true ↔ w = p := by
  simp only [OpcodeRow.hits, and_FFFF, beq_iff_eq]

end Sys2Proof
end

