-- ==== Sys2Proof/Laws/Memory.lean ====
section
/-! SUPPORT. Memory: every operation keeps the canonical form; a read after a write; what the checks of an access
say about its range (R57, R58, R63, R166). -/

namespace Sys2Proof.Machine

theorem font_length : font.length = 80 := by decide

/-- Past the glyph region an unlisted address reads as zero (R45, R52). -/
theorem unlistedByte_past {a : Nat} (h : 80 ≤ a) : unlistedByte a = 0#8 :=
  List.getD_eq_default _ _ (by rw [font_length]; exact h)

/-! ### Canonical form -/

theorem Memory.wfFrom_cons {lo b : Nat} {w : Byte} {m : Memory} :
    Memory.wfFrom lo ((b, w) :: m) = true ↔
      lo ≤ b ∧ b < Config.memSize ∧ w ≠ unlistedByte b ∧ Memory.wfFrom (b + 1) m = true := by
  simp [Memory.wfFrom, and_assoc]

theorem Memory.wfFrom_mono {lo hi : Nat} (h : lo ≤ hi) {m : Memory} (hm : Memory.wfFrom hi m = true) :
    Memory.wfFrom lo m = true := by
  cases m with
  | nil => rfl
  | cons e m =>
    obtain ⟨b, w⟩ := e
    rw [Memory.wfFrom_cons] at hm ⊢
    exact ⟨Nat.le_trans h hm.1, hm.2⟩

/-- An address below a canonical memory is not listed in it. -/
theorem Memory.read_below {lo a : Nat} {m : Memory} (hm : Memory.wfFrom lo m = true) (ha : a < lo) :
    Memory.read m a = unlistedByte a := by
  induction m generalizing lo with
  | nil => rfl
  | cons e m ih =>
    obtain ⟨b, w⟩ := e
    rw [Memory.wfFrom_cons] at hm
    rw [Memory.read, if_neg (by omega)]
    exact ih hm.2.2.2 (by omega)

theorem Memory.write_wfFrom {lo a : Nat} {u : Byte} {m : Memory} (hm : Memory.wfFrom lo m = true) (hlo : lo ≤ a)
    (ha : a < Config.memSize) : Memory.wfFrom lo (Memory.write m a u) = true := by
  induction m generalizing lo with
  | nil =>
    rw [Memory.write]
    split
    · rfl
    · rw [Memory.wfFrom_cons]; exact ⟨hlo, ha, ‹_›, rfl⟩
  | cons e m ih =>
    obtain ⟨b, w⟩ := e
    have hm' := hm
    rw [Memory.wfFrom_cons] at hm
    obtain ⟨h1, h2, h3, h4⟩ := hm
    rw [Memory.write]
    split
    · split
      · exact hm'
      · rw [Memory.wfFrom_cons]
        refine ⟨hlo, ha, ‹_›, ?_⟩
        rw [Memory.wfFrom_cons]
        exact ⟨by omega, h2, h3, h4⟩
    · split
      · split
        · exact Memory.wfFrom_mono (by omega) h4
        · rw [Memory.wfFrom_cons]; subst_vars; exact ⟨h1, h2, ‹_›, h4⟩
      · rw [Memory.wfFrom_cons]; exact ⟨h1, h2, h3, ih h4 (by omega)⟩

theorem Memory.read_write_from {lo a b : Nat} {u : Byte} {m : Memory} (hm : Memory.wfFrom lo m = true) :
    Memory.read (Memory.write m a u) b = if b = a then u else Memory.read m b := by
  induction m generalizing lo with
  | nil =>
    rw [Memory.write]
    split
    · by_cases h : b = a <;> simp_all [Memory.read]
    · simp [Memory.read]
  | cons e m ih =>
    obtain ⟨c, w⟩ := e
    have hm' := hm
    rw [Memory.wfFrom_cons] at hm
    obtain ⟨h1, h2, h3, h4⟩ := hm
    rw [Memory.write]
    split
    · split
      · by_cases h : b = a
        · subst h
          rw [if_pos rfl, Memory.read, if_neg (by omega), Memory.read_below h4 (by omega)]
          exact Eq.symm ‹_›
        · rw [if_neg h]
      · simp [Memory.read]
    · split
      · subst_vars
        split
        · by_cases h : b = c
          · subst h
            rw [if_pos rfl, Memory.read_below h4 (by omega)]
            exact Eq.symm ‹_›
          · rw [if_neg h, Memory.read, if_neg h]
        · by_cases h : b = c <;> simp [Memory.read, h]
      · rw [Memory.read, Memory.read, ih h4]
        by_cases h : b = a
        · subst h; simp [show ¬b = c by omega]
        · simp [h]

/-- Every write inside memory keeps the canonical form. -/
theorem Memory.write_wf {m : Memory} {a : Nat} (u : Byte) (hm : m.wf = true) (ha : a < Config.memSize) :
    (m.write a u).wf = true :=
  Memory.write_wfFrom hm (Nat.zero_le a) ha

/-- Storing bytes inside memory keeps the canonical form. -/
theorem Memory.writeBytes_wf {m : Memory} {base : Nat} (us : List Byte) (hm : m.wf = true)
    (h : base + us.length ≤ Config.memSize) : (m.writeBytes base us).wf = true := by
  induction us generalizing m base with
  | nil => exact hm
  | cons u us ih =>
    simp only [List.length_cons] at h
    exact ih (Memory.write_wf u hm (by omega)) (by omega)

/-- What storing bytes leaves at an address: the byte stored there, or what was there before. -/
theorem Memory.read_writeBytes {m : Memory} {base : Nat} (us : List Byte) (a : Nat) (hm : m.wf = true)
    (h : base + us.length ≤ Config.memSize) :
    (m.writeBytes base us).read a =
      if hk : base ≤ a ∧ a - base < us.length then us[a - base]'hk.2 else m.read a := by
  induction us generalizing m base with
  | nil => simp [Memory.writeBytes]
  | cons u us ih =>
    simp only [List.length_cons] at h
    rw [Memory.writeBytes, ih (Memory.write_wf u hm (by omega)) (by omega), Memory.read_write_from hm]
    by_cases h0 : a = base
    · subst h0
      rw [dif_neg (by omega), if_pos rfl, dif_pos ⟨by omega, by simp⟩]
      simp
    · by_cases h1 : base + 1 ≤ a ∧ a - (base + 1) < us.length
      · rw [dif_pos h1, dif_pos ⟨by omega, by simp only [List.length_cons]; omega⟩]
        have : a - base = (a - (base + 1)) + 1 := by omega
        simp [this]
      · rw [dif_neg h1, if_neg h0, dif_neg (by simp only [List.length_cons]; omega)]

theorem Memory.readBytes_length (m : Memory) (base n : Nat) : (m.readBytes base n).length = n := by
  induction n generalizing base with
  | zero => rfl
  | succ n ih => simp [Memory.readBytes, ih]

theorem Memory.getElem_readBytes {m : Memory} {base n k : Nat} (h : k < (m.readBytes base n).length) :
    (m.readBytes base n)[k] = m.read (base + k) := by
  induction n generalizing base k with
  | zero => exact absurd h (Nat.not_lt_zero k)
  | succ n ih =>
    cases k with
    | zero => rfl
    | succ k =>
      simp only [Memory.readBytes, List.getElem_cons_succ]
      rw [ih]
      congr 1; omega

/-! ### The checks of an access -/

/-- A read access to `n` bytes passes its checks iff its last byte is inside memory (R57, R166). -/
theorem firstFault_read (base n : Nat) :
    firstFault readFault base n = if 0 < n ∧ 0xFFF < base + (n - 1) then some .readOutOfRange else none := by
  induction n generalizing base with
  | zero => rfl
  | succ n ih =>
    rw [firstFault, readFault]
    by_cases h : 0xFFF < base
    · rw [if_pos h, if_pos (by omega)]
    · rw [if_neg h, ih]
      by_cases h2 : 0 < n ∧ 0xFFF < base + 1 + (n - 1)
      · rw [if_pos h2, if_pos (by omega)]
      · rw [if_neg h2, if_neg (by omega)]

/-- The checks of a write access of at most 16 bytes: range, then glyph protection (R58, R166, R216). -/
theorem firstFault_write (policy : GlyphWritePolicy) (base n : Nat) (hn : n ≤ 16) :
    firstFault (writeFault policy) base n =
      if 0 < n ∧ 0xFFF < base + (n - 1) then some .writeOutOfRange
      else if 0 < n ∧ base ≤ 0x04F ∧ policy = .fault then some .glyphWrite
      else none := by
  induction n generalizing base with
  | zero => rfl
  | succ n ih =>
    rw [firstFault, writeFault]
    by_cases h : 0xFFF < base
    · rw [if_pos h, if_pos (by omega)]
    · rw [if_neg h]
      by_cases hg : base ≤ 0x04F ∧ policy = .fault
      · have h1 := hg.1
        rw [if_pos hg, if_neg (by omega), if_pos ⟨by omega, hg⟩]
      · rw [if_neg hg, ih _ (by omega)]
        by_cases h2 : 0 < n ∧ 0xFFF < base + 1 + (n - 1)
        · rw [if_pos h2, if_pos (by omega)]
        · have h3 : ¬(0 < n ∧ base + 1 ≤ 0x04F ∧ policy = .fault) := fun h => hg ⟨by omega, h.2.2⟩
          rw [if_neg h2, if_neg h3, if_neg (by omega), if_neg fun h => hg h.2]

end Sys2Proof.Machine
end

