-- ==== Sys2Proof/Laws/State.lean ====
section
/-! SUPPORT. One lemma for each field and each update, so that no later proof unfolds a record update. -/

namespace Sys2Proof.Machine

@[simp] theorem State.setReg_v (s : State) (x : Reg) (b : Byte) :
    (s.setReg x b).v = s.v.set x.val b x.isLt := rfl

@[simp] theorem State.setReg_i (s : State) (x : Reg) (b : Byte) : (s.setReg x b).i = s.i := rfl

@[simp] theorem State.setReg_pc (s : State) (x : Reg) (b : Byte) : (s.setReg x b).pc = s.pc := rfl

@[simp] theorem State.setReg_sp (s : State) (x : Reg) (b : Byte) : (s.setReg x b).sp = s.sp := rfl

@[simp] theorem State.setReg_stack (s : State) (x : Reg) (b : Byte) : (s.setReg x b).stack = s.stack := rfl

@[simp] theorem State.setReg_dt (s : State) (x : Reg) (b : Byte) : (s.setReg x b).dt = s.dt := rfl

@[simp] theorem State.setReg_st (s : State) (x : Reg) (b : Byte) : (s.setReg x b).st = s.st := rfl

@[simp] theorem State.setReg_mem (s : State) (x : Reg) (b : Byte) : (s.setReg x b).mem = s.mem := rfl

@[simp] theorem State.setReg_halted (s : State) (x : Reg) (b : Byte) : (s.setReg x b).halted = s.halted := rfl

@[simp] theorem State.setReg_faultCause (s : State) (x : Reg) (b : Byte) : (s.setReg x b).faultCause = s.faultCause := rfl

@[simp] theorem State.setReg_faultPc (s : State) (x : Reg) (b : Byte) : (s.setReg x b).faultPc = s.faultPc := rfl

@[simp] theorem State.setReg_faultInfo (s : State) (x : Reg) (b : Byte) : (s.setReg x b).faultInfo = s.faultInfo := rfl

@[simp] theorem State.setReg_tTimer (s : State) (x : Reg) (b : Byte) : (s.setReg x b).tTimer = s.tTimer := rfl

@[simp] theorem State.setReg_tInsn (s : State) (x : Reg) (b : Byte) : (s.setReg x b).tInsn = s.tInsn := rfl

@[simp] theorem State.setReg_ir (s : State) (x : Reg) (b : Byte) : (s.setReg x b).ir = s.ir := rfl

@[simp] theorem State.setReg_fetchAddr (s : State) (x : Reg) (b : Byte) : (s.setReg x b).fetchAddr = s.fetchAddr := rfl

@[simp] theorem State.setReg_disp (s : State) (x : Reg) (b : Byte) : (s.setReg x b).disp = s.disp := rfl

@[simp] theorem State.setReg_visible (s : State) (x : Reg) (b : Byte) : (s.setReg x b).visible = s.visible := rfl

@[simp] theorem State.setReg_lastPresent (s : State) (x : Reg) (b : Byte) : (s.setReg x b).lastPresent = s.lastPresent := rfl

@[simp] theorem State.setReg_frameOpen (s : State) (x : Reg) (b : Byte) : (s.setReg x b).frameOpen = s.frameOpen := rfl

@[simp] theorem State.setReg_keyDown (s : State) (x : Reg) (b : Byte) : (s.setReg x b).keyDown = s.keyDown := rfl

@[simp] theorem State.setReg_released (s : State) (x : Reg) (b : Byte) : (s.setReg x b).released = s.released := rfl

@[simp] theorem State.setReg_now (s : State) (x : Reg) (b : Byte) : (s.setReg x b).now = s.now := rfl

@[simp] theorem State.setReg_rand (s : State) (x : Reg) (b : Byte) : (s.setReg x b).rand = s.rand := rfl

@[simp] theorem State.setReg_quitIn (s : State) (x : Reg) (b : Byte) : (s.setReg x b).quitIn = s.quitIn := rfl

@[simp] theorem State.setReg_glyphPolicy (s : State) (x : Reg) (b : Byte) : (s.setReg x b).glyphPolicy = s.glyphPolicy := rfl

@[simp] theorem State.setReg_rates (s : State) (x : Reg) (b : Byte) : (s.setReg x b).rates = s.rates := rfl

@[simp] theorem State.setReg_earlyDraw (s : State) (x : Reg) (b : Byte) : (s.setReg x b).earlyDraw = s.earlyDraw := rfl

@[simp] theorem State.setReg_lateDraw (s : State) (x : Reg) (b : Byte) : (s.setReg x b).lateDraw = s.lateDraw := rfl

@[simp] theorem State.setReg_draws (s : State) (x : Reg) (b : Byte) : (s.setReg x b).draws = s.draws := rfl

@[simp] theorem State.setReg_out (s : State) (x : Reg) (b : Byte) : (s.setReg x b).out = s.out := rfl

@[simp] theorem State.setFlag_i (s : State) (b : Bool) : (s.setFlag b).i = s.i := rfl

@[simp] theorem State.setFlag_pc (s : State) (b : Bool) : (s.setFlag b).pc = s.pc := rfl

@[simp] theorem State.setFlag_sp (s : State) (b : Bool) : (s.setFlag b).sp = s.sp := rfl

@[simp] theorem State.setFlag_stack (s : State) (b : Bool) : (s.setFlag b).stack = s.stack := rfl

@[simp] theorem State.setFlag_dt (s : State) (b : Bool) : (s.setFlag b).dt = s.dt := rfl

@[simp] theorem State.setFlag_st (s : State) (b : Bool) : (s.setFlag b).st = s.st := rfl

@[simp] theorem State.setFlag_mem (s : State) (b : Bool) : (s.setFlag b).mem = s.mem := rfl

@[simp] theorem State.setFlag_halted (s : State) (b : Bool) : (s.setFlag b).halted = s.halted := rfl

@[simp] theorem State.setFlag_faultCause (s : State) (b : Bool) : (s.setFlag b).faultCause = s.faultCause := rfl

@[simp] theorem State.setFlag_faultPc (s : State) (b : Bool) : (s.setFlag b).faultPc = s.faultPc := rfl

@[simp] theorem State.setFlag_faultInfo (s : State) (b : Bool) : (s.setFlag b).faultInfo = s.faultInfo := rfl

@[simp] theorem State.setFlag_tTimer (s : State) (b : Bool) : (s.setFlag b).tTimer = s.tTimer := rfl

@[simp] theorem State.setFlag_tInsn (s : State) (b : Bool) : (s.setFlag b).tInsn = s.tInsn := rfl

@[simp] theorem State.setFlag_ir (s : State) (b : Bool) : (s.setFlag b).ir = s.ir := rfl

@[simp] theorem State.setFlag_fetchAddr (s : State) (b : Bool) : (s.setFlag b).fetchAddr = s.fetchAddr := rfl

@[simp] theorem State.setFlag_disp (s : State) (b : Bool) : (s.setFlag b).disp = s.disp := rfl

@[simp] theorem State.setFlag_visible (s : State) (b : Bool) : (s.setFlag b).visible = s.visible := rfl

@[simp] theorem State.setFlag_lastPresent (s : State) (b : Bool) : (s.setFlag b).lastPresent = s.lastPresent := rfl

@[simp] theorem State.setFlag_frameOpen (s : State) (b : Bool) : (s.setFlag b).frameOpen = s.frameOpen := rfl

@[simp] theorem State.setFlag_keyDown (s : State) (b : Bool) : (s.setFlag b).keyDown = s.keyDown := rfl

@[simp] theorem State.setFlag_released (s : State) (b : Bool) : (s.setFlag b).released = s.released := rfl

@[simp] theorem State.setFlag_now (s : State) (b : Bool) : (s.setFlag b).now = s.now := rfl

@[simp] theorem State.setFlag_rand (s : State) (b : Bool) : (s.setFlag b).rand = s.rand := rfl

@[simp] theorem State.setFlag_quitIn (s : State) (b : Bool) : (s.setFlag b).quitIn = s.quitIn := rfl

@[simp] theorem State.setFlag_glyphPolicy (s : State) (b : Bool) : (s.setFlag b).glyphPolicy = s.glyphPolicy := rfl

@[simp] theorem State.setFlag_rates (s : State) (b : Bool) : (s.setFlag b).rates = s.rates := rfl

@[simp] theorem State.setFlag_earlyDraw (s : State) (b : Bool) : (s.setFlag b).earlyDraw = s.earlyDraw := rfl

@[simp] theorem State.setFlag_lateDraw (s : State) (b : Bool) : (s.setFlag b).lateDraw = s.lateDraw := rfl

@[simp] theorem State.setFlag_draws (s : State) (b : Bool) : (s.setFlag b).draws = s.draws := rfl

@[simp] theorem State.setFlag_out (s : State) (b : Bool) : (s.setFlag b).out = s.out := rfl

@[simp] theorem State.setIndex_v (s : State) (w : Word) : (s.setIndex w).v = s.v := rfl

@[simp] theorem State.setIndex_i (s : State) (w : Word) :
    (s.setIndex w).i = w := rfl

@[simp] theorem State.setIndex_pc (s : State) (w : Word) : (s.setIndex w).pc = s.pc := rfl

@[simp] theorem State.setIndex_sp (s : State) (w : Word) : (s.setIndex w).sp = s.sp := rfl

@[simp] theorem State.setIndex_stack (s : State) (w : Word) : (s.setIndex w).stack = s.stack := rfl

@[simp] theorem State.setIndex_dt (s : State) (w : Word) : (s.setIndex w).dt = s.dt := rfl

@[simp] theorem State.setIndex_st (s : State) (w : Word) : (s.setIndex w).st = s.st := rfl

@[simp] theorem State.setIndex_mem (s : State) (w : Word) : (s.setIndex w).mem = s.mem := rfl

@[simp] theorem State.setIndex_halted (s : State) (w : Word) : (s.setIndex w).halted = s.halted := rfl

@[simp] theorem State.setIndex_faultCause (s : State) (w : Word) : (s.setIndex w).faultCause = s.faultCause := rfl

@[simp] theorem State.setIndex_faultPc (s : State) (w : Word) : (s.setIndex w).faultPc = s.faultPc := rfl

@[simp] theorem State.setIndex_faultInfo (s : State) (w : Word) : (s.setIndex w).faultInfo = s.faultInfo := rfl

@[simp] theorem State.setIndex_tTimer (s : State) (w : Word) : (s.setIndex w).tTimer = s.tTimer := rfl

@[simp] theorem State.setIndex_tInsn (s : State) (w : Word) : (s.setIndex w).tInsn = s.tInsn := rfl

@[simp] theorem State.setIndex_ir (s : State) (w : Word) : (s.setIndex w).ir = s.ir := rfl

@[simp] theorem State.setIndex_fetchAddr (s : State) (w : Word) : (s.setIndex w).fetchAddr = s.fetchAddr := rfl

@[simp] theorem State.setIndex_disp (s : State) (w : Word) : (s.setIndex w).disp = s.disp := rfl

@[simp] theorem State.setIndex_visible (s : State) (w : Word) : (s.setIndex w).visible = s.visible := rfl

@[simp] theorem State.setIndex_lastPresent (s : State) (w : Word) : (s.setIndex w).lastPresent = s.lastPresent := rfl

@[simp] theorem State.setIndex_frameOpen (s : State) (w : Word) : (s.setIndex w).frameOpen = s.frameOpen := rfl

@[simp] theorem State.setIndex_keyDown (s : State) (w : Word) : (s.setIndex w).keyDown = s.keyDown := rfl

@[simp] theorem State.setIndex_released (s : State) (w : Word) : (s.setIndex w).released = s.released := rfl

@[simp] theorem State.setIndex_now (s : State) (w : Word) : (s.setIndex w).now = s.now := rfl

@[simp] theorem State.setIndex_rand (s : State) (w : Word) : (s.setIndex w).rand = s.rand := rfl

@[simp] theorem State.setIndex_quitIn (s : State) (w : Word) : (s.setIndex w).quitIn = s.quitIn := rfl

@[simp] theorem State.setIndex_glyphPolicy (s : State) (w : Word) : (s.setIndex w).glyphPolicy = s.glyphPolicy := rfl

@[simp] theorem State.setIndex_rates (s : State) (w : Word) : (s.setIndex w).rates = s.rates := rfl

@[simp] theorem State.setIndex_earlyDraw (s : State) (w : Word) : (s.setIndex w).earlyDraw = s.earlyDraw := rfl

@[simp] theorem State.setIndex_lateDraw (s : State) (w : Word) : (s.setIndex w).lateDraw = s.lateDraw := rfl

@[simp] theorem State.setIndex_draws (s : State) (w : Word) : (s.setIndex w).draws = s.draws := rfl

@[simp] theorem State.setIndex_out (s : State) (w : Word) : (s.setIndex w).out = s.out := rfl

@[simp] theorem State.setPc_v (s : State) (w : Word) : (s.setPc w).v = s.v := rfl

@[simp] theorem State.setPc_i (s : State) (w : Word) : (s.setPc w).i = s.i := rfl

@[simp] theorem State.setPc_pc (s : State) (w : Word) :
    (s.setPc w).pc = w := rfl

@[simp] theorem State.setPc_sp (s : State) (w : Word) : (s.setPc w).sp = s.sp := rfl

@[simp] theorem State.setPc_stack (s : State) (w : Word) : (s.setPc w).stack = s.stack := rfl

@[simp] theorem State.setPc_dt (s : State) (w : Word) : (s.setPc w).dt = s.dt := rfl

@[simp] theorem State.setPc_st (s : State) (w : Word) : (s.setPc w).st = s.st := rfl

@[simp] theorem State.setPc_mem (s : State) (w : Word) : (s.setPc w).mem = s.mem := rfl

@[simp] theorem State.setPc_halted (s : State) (w : Word) : (s.setPc w).halted = s.halted := rfl

@[simp] theorem State.setPc_faultCause (s : State) (w : Word) : (s.setPc w).faultCause = s.faultCause := rfl

@[simp] theorem State.setPc_faultPc (s : State) (w : Word) : (s.setPc w).faultPc = s.faultPc := rfl

@[simp] theorem State.setPc_faultInfo (s : State) (w : Word) : (s.setPc w).faultInfo = s.faultInfo := rfl

@[simp] theorem State.setPc_tTimer (s : State) (w : Word) : (s.setPc w).tTimer = s.tTimer := rfl

@[simp] theorem State.setPc_tInsn (s : State) (w : Word) : (s.setPc w).tInsn = s.tInsn := rfl

@[simp] theorem State.setPc_ir (s : State) (w : Word) : (s.setPc w).ir = s.ir := rfl

@[simp] theorem State.setPc_fetchAddr (s : State) (w : Word) : (s.setPc w).fetchAddr = s.fetchAddr := rfl

@[simp] theorem State.setPc_disp (s : State) (w : Word) : (s.setPc w).disp = s.disp := rfl

@[simp] theorem State.setPc_visible (s : State) (w : Word) : (s.setPc w).visible = s.visible := rfl

@[simp] theorem State.setPc_lastPresent (s : State) (w : Word) : (s.setPc w).lastPresent = s.lastPresent := rfl

@[simp] theorem State.setPc_frameOpen (s : State) (w : Word) : (s.setPc w).frameOpen = s.frameOpen := rfl

@[simp] theorem State.setPc_keyDown (s : State) (w : Word) : (s.setPc w).keyDown = s.keyDown := rfl

@[simp] theorem State.setPc_released (s : State) (w : Word) : (s.setPc w).released = s.released := rfl

@[simp] theorem State.setPc_now (s : State) (w : Word) : (s.setPc w).now = s.now := rfl

@[simp] theorem State.setPc_rand (s : State) (w : Word) : (s.setPc w).rand = s.rand := rfl

@[simp] theorem State.setPc_quitIn (s : State) (w : Word) : (s.setPc w).quitIn = s.quitIn := rfl

@[simp] theorem State.setPc_glyphPolicy (s : State) (w : Word) : (s.setPc w).glyphPolicy = s.glyphPolicy := rfl

@[simp] theorem State.setPc_rates (s : State) (w : Word) : (s.setPc w).rates = s.rates := rfl

@[simp] theorem State.setPc_earlyDraw (s : State) (w : Word) : (s.setPc w).earlyDraw = s.earlyDraw := rfl

@[simp] theorem State.setPc_lateDraw (s : State) (w : Word) : (s.setPc w).lateDraw = s.lateDraw := rfl

@[simp] theorem State.setPc_draws (s : State) (w : Word) : (s.setPc w).draws = s.draws := rfl

@[simp] theorem State.setPc_out (s : State) (w : Word) : (s.setPc w).out = s.out := rfl

@[simp] theorem State.skipIf_v (s : State) (b : Bool) : (s.skipIf b).v = s.v := rfl

@[simp] theorem State.skipIf_i (s : State) (b : Bool) : (s.skipIf b).i = s.i := rfl

@[simp] theorem State.skipIf_pc (s : State) (b : Bool) :
    (s.skipIf b).pc = if b then s.pc + 2#16 else s.pc := rfl

@[simp] theorem State.skipIf_sp (s : State) (b : Bool) : (s.skipIf b).sp = s.sp := rfl

@[simp] theorem State.skipIf_stack (s : State) (b : Bool) : (s.skipIf b).stack = s.stack := rfl

@[simp] theorem State.skipIf_dt (s : State) (b : Bool) : (s.skipIf b).dt = s.dt := rfl

@[simp] theorem State.skipIf_st (s : State) (b : Bool) : (s.skipIf b).st = s.st := rfl

@[simp] theorem State.skipIf_mem (s : State) (b : Bool) : (s.skipIf b).mem = s.mem := rfl

@[simp] theorem State.skipIf_halted (s : State) (b : Bool) : (s.skipIf b).halted = s.halted := rfl

@[simp] theorem State.skipIf_faultCause (s : State) (b : Bool) : (s.skipIf b).faultCause = s.faultCause := rfl

@[simp] theorem State.skipIf_faultPc (s : State) (b : Bool) : (s.skipIf b).faultPc = s.faultPc := rfl

@[simp] theorem State.skipIf_faultInfo (s : State) (b : Bool) : (s.skipIf b).faultInfo = s.faultInfo := rfl

@[simp] theorem State.skipIf_tTimer (s : State) (b : Bool) : (s.skipIf b).tTimer = s.tTimer := rfl

@[simp] theorem State.skipIf_tInsn (s : State) (b : Bool) : (s.skipIf b).tInsn = s.tInsn := rfl

@[simp] theorem State.skipIf_ir (s : State) (b : Bool) : (s.skipIf b).ir = s.ir := rfl

@[simp] theorem State.skipIf_fetchAddr (s : State) (b : Bool) : (s.skipIf b).fetchAddr = s.fetchAddr := rfl

@[simp] theorem State.skipIf_disp (s : State) (b : Bool) : (s.skipIf b).disp = s.disp := rfl

@[simp] theorem State.skipIf_visible (s : State) (b : Bool) : (s.skipIf b).visible = s.visible := rfl

@[simp] theorem State.skipIf_lastPresent (s : State) (b : Bool) : (s.skipIf b).lastPresent = s.lastPresent := rfl

@[simp] theorem State.skipIf_frameOpen (s : State) (b : Bool) : (s.skipIf b).frameOpen = s.frameOpen := rfl

@[simp] theorem State.skipIf_keyDown (s : State) (b : Bool) : (s.skipIf b).keyDown = s.keyDown := rfl

@[simp] theorem State.skipIf_released (s : State) (b : Bool) : (s.skipIf b).released = s.released := rfl

@[simp] theorem State.skipIf_now (s : State) (b : Bool) : (s.skipIf b).now = s.now := rfl

@[simp] theorem State.skipIf_rand (s : State) (b : Bool) : (s.skipIf b).rand = s.rand := rfl

@[simp] theorem State.skipIf_quitIn (s : State) (b : Bool) : (s.skipIf b).quitIn = s.quitIn := rfl

@[simp] theorem State.skipIf_glyphPolicy (s : State) (b : Bool) : (s.skipIf b).glyphPolicy = s.glyphPolicy := rfl

@[simp] theorem State.skipIf_rates (s : State) (b : Bool) : (s.skipIf b).rates = s.rates := rfl

@[simp] theorem State.skipIf_earlyDraw (s : State) (b : Bool) : (s.skipIf b).earlyDraw = s.earlyDraw := rfl

@[simp] theorem State.skipIf_lateDraw (s : State) (b : Bool) : (s.skipIf b).lateDraw = s.lateDraw := rfl

@[simp] theorem State.skipIf_draws (s : State) (b : Bool) : (s.skipIf b).draws = s.draws := rfl

@[simp] theorem State.skipIf_out (s : State) (b : Bool) : (s.skipIf b).out = s.out := rfl

@[simp] theorem State.defer_v (s : State) : (s.defer).v = s.v := rfl

@[simp] theorem State.defer_i (s : State) : (s.defer).i = s.i := rfl

@[simp] theorem State.defer_pc (s : State) :
    (s.defer).pc = s.fetchAddr := rfl

@[simp] theorem State.defer_sp (s : State) : (s.defer).sp = s.sp := rfl

@[simp] theorem State.defer_stack (s : State) : (s.defer).stack = s.stack := rfl

@[simp] theorem State.defer_dt (s : State) : (s.defer).dt = s.dt := rfl

@[simp] theorem State.defer_st (s : State) : (s.defer).st = s.st := rfl

@[simp] theorem State.defer_mem (s : State) : (s.defer).mem = s.mem := rfl

@[simp] theorem State.defer_halted (s : State) : (s.defer).halted = s.halted := rfl

@[simp] theorem State.defer_faultCause (s : State) : (s.defer).faultCause = s.faultCause := rfl

@[simp] theorem State.defer_faultPc (s : State) : (s.defer).faultPc = s.faultPc := rfl

@[simp] theorem State.defer_faultInfo (s : State) : (s.defer).faultInfo = s.faultInfo := rfl

@[simp] theorem State.defer_tTimer (s : State) : (s.defer).tTimer = s.tTimer := rfl

@[simp] theorem State.defer_tInsn (s : State) : (s.defer).tInsn = s.tInsn := rfl

@[simp] theorem State.defer_ir (s : State) : (s.defer).ir = s.ir := rfl

@[simp] theorem State.defer_fetchAddr (s : State) : (s.defer).fetchAddr = s.fetchAddr := rfl

@[simp] theorem State.defer_disp (s : State) : (s.defer).disp = s.disp := rfl

@[simp] theorem State.defer_visible (s : State) : (s.defer).visible = s.visible := rfl

@[simp] theorem State.defer_lastPresent (s : State) : (s.defer).lastPresent = s.lastPresent := rfl

@[simp] theorem State.defer_frameOpen (s : State) : (s.defer).frameOpen = s.frameOpen := rfl

@[simp] theorem State.defer_keyDown (s : State) : (s.defer).keyDown = s.keyDown := rfl

@[simp] theorem State.defer_released (s : State) : (s.defer).released = s.released := rfl

@[simp] theorem State.defer_now (s : State) : (s.defer).now = s.now := rfl

@[simp] theorem State.defer_rand (s : State) : (s.defer).rand = s.rand := rfl

@[simp] theorem State.defer_quitIn (s : State) : (s.defer).quitIn = s.quitIn := rfl

@[simp] theorem State.defer_glyphPolicy (s : State) : (s.defer).glyphPolicy = s.glyphPolicy := rfl

@[simp] theorem State.defer_rates (s : State) : (s.defer).rates = s.rates := rfl

@[simp] theorem State.defer_earlyDraw (s : State) : (s.defer).earlyDraw = s.earlyDraw := rfl

@[simp] theorem State.defer_lateDraw (s : State) : (s.defer).lateDraw = s.lateDraw := rfl

@[simp] theorem State.defer_draws (s : State) : (s.defer).draws = s.draws := rfl

@[simp] theorem State.defer_out (s : State) : (s.defer).out = s.out := rfl

@[simp] theorem State.storeBytes_v (s : State) (base : Nat) (bs : List Byte) : (s.storeBytes base bs).v = s.v := rfl

@[simp] theorem State.storeBytes_i (s : State) (base : Nat) (bs : List Byte) : (s.storeBytes base bs).i = s.i := rfl

@[simp] theorem State.storeBytes_pc (s : State) (base : Nat) (bs : List Byte) : (s.storeBytes base bs).pc = s.pc := rfl

@[simp] theorem State.storeBytes_sp (s : State) (base : Nat) (bs : List Byte) : (s.storeBytes base bs).sp = s.sp := rfl

@[simp] theorem State.storeBytes_stack (s : State) (base : Nat) (bs : List Byte) : (s.storeBytes base bs).stack = s.stack := rfl

@[simp] theorem State.storeBytes_dt (s : State) (base : Nat) (bs : List Byte) : (s.storeBytes base bs).dt = s.dt := rfl

@[simp] theorem State.storeBytes_st (s : State) (base : Nat) (bs : List Byte) : (s.storeBytes base bs).st = s.st := rfl

@[simp] theorem State.storeBytes_mem (s : State) (base : Nat) (bs : List Byte) :
    (s.storeBytes base bs).mem = s.mem.writeBytes base bs := rfl

@[simp] theorem State.storeBytes_halted (s : State) (base : Nat) (bs : List Byte) : (s.storeBytes base bs).halted = s.halted := rfl

@[simp] theorem State.storeBytes_faultCause (s : State) (base : Nat) (bs : List Byte) : (s.storeBytes base bs).faultCause = s.faultCause := rfl

@[simp] theorem State.storeBytes_faultPc (s : State) (base : Nat) (bs : List Byte) : (s.storeBytes base bs).faultPc = s.faultPc := rfl

@[simp] theorem State.storeBytes_faultInfo (s : State) (base : Nat) (bs : List Byte) : (s.storeBytes base bs).faultInfo = s.faultInfo := rfl

@[simp] theorem State.storeBytes_tTimer (s : State) (base : Nat) (bs : List Byte) : (s.storeBytes base bs).tTimer = s.tTimer := rfl

@[simp] theorem State.storeBytes_tInsn (s : State) (base : Nat) (bs : List Byte) : (s.storeBytes base bs).tInsn = s.tInsn := rfl

@[simp] theorem State.storeBytes_ir (s : State) (base : Nat) (bs : List Byte) : (s.storeBytes base bs).ir = s.ir := rfl

@[simp] theorem State.storeBytes_fetchAddr (s : State) (base : Nat) (bs : List Byte) : (s.storeBytes base bs).fetchAddr = s.fetchAddr := rfl

@[simp] theorem State.storeBytes_disp (s : State) (base : Nat) (bs : List Byte) : (s.storeBytes base bs).disp = s.disp := rfl

@[simp] theorem State.storeBytes_visible (s : State) (base : Nat) (bs : List Byte) : (s.storeBytes base bs).visible = s.visible := rfl

@[simp] theorem State.storeBytes_lastPresent (s : State) (base : Nat) (bs : List Byte) : (s.storeBytes base bs).lastPresent = s.lastPresent := rfl

@[simp] theorem State.storeBytes_frameOpen (s : State) (base : Nat) (bs : List Byte) : (s.storeBytes base bs).frameOpen = s.frameOpen := rfl

@[simp] theorem State.storeBytes_keyDown (s : State) (base : Nat) (bs : List Byte) : (s.storeBytes base bs).keyDown = s.keyDown := rfl

@[simp] theorem State.storeBytes_released (s : State) (base : Nat) (bs : List Byte) : (s.storeBytes base bs).released = s.released := rfl

@[simp] theorem State.storeBytes_now (s : State) (base : Nat) (bs : List Byte) : (s.storeBytes base bs).now = s.now := rfl

@[simp] theorem State.storeBytes_rand (s : State) (base : Nat) (bs : List Byte) : (s.storeBytes base bs).rand = s.rand := rfl

@[simp] theorem State.storeBytes_quitIn (s : State) (base : Nat) (bs : List Byte) : (s.storeBytes base bs).quitIn = s.quitIn := rfl

@[simp] theorem State.storeBytes_glyphPolicy (s : State) (base : Nat) (bs : List Byte) : (s.storeBytes base bs).glyphPolicy = s.glyphPolicy := rfl

@[simp] theorem State.storeBytes_rates (s : State) (base : Nat) (bs : List Byte) : (s.storeBytes base bs).rates = s.rates := rfl

@[simp] theorem State.storeBytes_earlyDraw (s : State) (base : Nat) (bs : List Byte) : (s.storeBytes base bs).earlyDraw = s.earlyDraw := rfl

@[simp] theorem State.storeBytes_lateDraw (s : State) (base : Nat) (bs : List Byte) : (s.storeBytes base bs).lateDraw = s.lateDraw := rfl

@[simp] theorem State.storeBytes_draws (s : State) (base : Nat) (bs : List Byte) : (s.storeBytes base bs).draws = s.draws := rfl

@[simp] theorem State.storeBytes_out (s : State) (base : Nat) (bs : List Byte) : (s.storeBytes base bs).out = s.out := rfl

@[simp] theorem State.raiseFault_v (s : State) (c : FaultCause) (info : Word) : (s.raiseFault c info).v = s.v := rfl

@[simp] theorem State.raiseFault_i (s : State) (c : FaultCause) (info : Word) : (s.raiseFault c info).i = s.i := rfl

@[simp] theorem State.raiseFault_pc (s : State) (c : FaultCause) (info : Word) :
    (s.raiseFault c info).pc = s.fetchAddr := rfl

@[simp] theorem State.raiseFault_sp (s : State) (c : FaultCause) (info : Word) : (s.raiseFault c info).sp = s.sp := rfl

@[simp] theorem State.raiseFault_stack (s : State) (c : FaultCause) (info : Word) : (s.raiseFault c info).stack = s.stack := rfl

@[simp] theorem State.raiseFault_dt (s : State) (c : FaultCause) (info : Word) : (s.raiseFault c info).dt = s.dt := rfl

@[simp] theorem State.raiseFault_st (s : State) (c : FaultCause) (info : Word) : (s.raiseFault c info).st = s.st := rfl

@[simp] theorem State.raiseFault_mem (s : State) (c : FaultCause) (info : Word) : (s.raiseFault c info).mem = s.mem := rfl

@[simp] theorem State.raiseFault_halted (s : State) (c : FaultCause) (info : Word) :
    (s.raiseFault c info).halted = true := rfl

@[simp] theorem State.raiseFault_faultCause (s : State) (c : FaultCause) (info : Word) :
    (s.raiseFault c info).faultCause = c := rfl

@[simp] theorem State.raiseFault_faultPc (s : State) (c : FaultCause) (info : Word) :
    (s.raiseFault c info).faultPc = s.fetchAddr := rfl

@[simp] theorem State.raiseFault_faultInfo (s : State) (c : FaultCause) (info : Word) :
    (s.raiseFault c info).faultInfo = info := rfl

@[simp] theorem State.raiseFault_tTimer (s : State) (c : FaultCause) (info : Word) : (s.raiseFault c info).tTimer = s.tTimer := rfl

@[simp] theorem State.raiseFault_tInsn (s : State) (c : FaultCause) (info : Word) : (s.raiseFault c info).tInsn = s.tInsn := rfl

@[simp] theorem State.raiseFault_ir (s : State) (c : FaultCause) (info : Word) : (s.raiseFault c info).ir = s.ir := rfl

@[simp] theorem State.raiseFault_fetchAddr (s : State) (c : FaultCause) (info : Word) : (s.raiseFault c info).fetchAddr = s.fetchAddr := rfl

@[simp] theorem State.raiseFault_disp (s : State) (c : FaultCause) (info : Word) : (s.raiseFault c info).disp = s.disp := rfl

@[simp] theorem State.raiseFault_visible (s : State) (c : FaultCause) (info : Word) : (s.raiseFault c info).visible = s.visible := rfl

@[simp] theorem State.raiseFault_lastPresent (s : State) (c : FaultCause) (info : Word) : (s.raiseFault c info).lastPresent = s.lastPresent := rfl

@[simp] theorem State.raiseFault_frameOpen (s : State) (c : FaultCause) (info : Word) : (s.raiseFault c info).frameOpen = s.frameOpen := rfl

@[simp] theorem State.raiseFault_keyDown (s : State) (c : FaultCause) (info : Word) : (s.raiseFault c info).keyDown = s.keyDown := rfl

@[simp] theorem State.raiseFault_released (s : State) (c : FaultCause) (info : Word) : (s.raiseFault c info).released = s.released := rfl

@[simp] theorem State.raiseFault_now (s : State) (c : FaultCause) (info : Word) : (s.raiseFault c info).now = s.now := rfl

@[simp] theorem State.raiseFault_rand (s : State) (c : FaultCause) (info : Word) : (s.raiseFault c info).rand = s.rand := rfl

@[simp] theorem State.raiseFault_quitIn (s : State) (c : FaultCause) (info : Word) : (s.raiseFault c info).quitIn = s.quitIn := rfl

@[simp] theorem State.raiseFault_glyphPolicy (s : State) (c : FaultCause) (info : Word) : (s.raiseFault c info).glyphPolicy = s.glyphPolicy := rfl

@[simp] theorem State.raiseFault_rates (s : State) (c : FaultCause) (info : Word) : (s.raiseFault c info).rates = s.rates := rfl

@[simp] theorem State.raiseFault_earlyDraw (s : State) (c : FaultCause) (info : Word) : (s.raiseFault c info).earlyDraw = s.earlyDraw := rfl

@[simp] theorem State.raiseFault_lateDraw (s : State) (c : FaultCause) (info : Word) : (s.raiseFault c info).lateDraw = s.lateDraw := rfl

@[simp] theorem State.raiseFault_draws (s : State) (c : FaultCause) (info : Word) : (s.raiseFault c info).draws = s.draws := rfl

@[simp] theorem State.raiseFault_out (s : State) (c : FaultCause) (info : Word) : (s.raiseFault c info).out = s.out := rfl

@[simp] theorem State.emit_v (s : State) (o : Output) : (s.emit o).v = s.v := rfl

@[simp] theorem State.emit_i (s : State) (o : Output) : (s.emit o).i = s.i := rfl

@[simp] theorem State.emit_pc (s : State) (o : Output) : (s.emit o).pc = s.pc := rfl

@[simp] theorem State.emit_sp (s : State) (o : Output) : (s.emit o).sp = s.sp := rfl

@[simp] theorem State.emit_stack (s : State) (o : Output) : (s.emit o).stack = s.stack := rfl

@[simp] theorem State.emit_dt (s : State) (o : Output) : (s.emit o).dt = s.dt := rfl

@[simp] theorem State.emit_st (s : State) (o : Output) : (s.emit o).st = s.st := rfl

@[simp] theorem State.emit_mem (s : State) (o : Output) : (s.emit o).mem = s.mem := rfl

@[simp] theorem State.emit_halted (s : State) (o : Output) : (s.emit o).halted = s.halted := rfl

@[simp] theorem State.emit_faultCause (s : State) (o : Output) : (s.emit o).faultCause = s.faultCause := rfl

@[simp] theorem State.emit_faultPc (s : State) (o : Output) : (s.emit o).faultPc = s.faultPc := rfl

@[simp] theorem State.emit_faultInfo (s : State) (o : Output) : (s.emit o).faultInfo = s.faultInfo := rfl

@[simp] theorem State.emit_tTimer (s : State) (o : Output) : (s.emit o).tTimer = s.tTimer := rfl

@[simp] theorem State.emit_tInsn (s : State) (o : Output) : (s.emit o).tInsn = s.tInsn := rfl

@[simp] theorem State.emit_ir (s : State) (o : Output) : (s.emit o).ir = s.ir := rfl

@[simp] theorem State.emit_fetchAddr (s : State) (o : Output) : (s.emit o).fetchAddr = s.fetchAddr := rfl

@[simp] theorem State.emit_disp (s : State) (o : Output) : (s.emit o).disp = s.disp := rfl

@[simp] theorem State.emit_visible (s : State) (o : Output) : (s.emit o).visible = s.visible := rfl

@[simp] theorem State.emit_lastPresent (s : State) (o : Output) : (s.emit o).lastPresent = s.lastPresent := rfl

@[simp] theorem State.emit_frameOpen (s : State) (o : Output) : (s.emit o).frameOpen = s.frameOpen := rfl

@[simp] theorem State.emit_keyDown (s : State) (o : Output) : (s.emit o).keyDown = s.keyDown := rfl

@[simp] theorem State.emit_released (s : State) (o : Output) : (s.emit o).released = s.released := rfl

@[simp] theorem State.emit_now (s : State) (o : Output) : (s.emit o).now = s.now := rfl

@[simp] theorem State.emit_rand (s : State) (o : Output) : (s.emit o).rand = s.rand := rfl

@[simp] theorem State.emit_quitIn (s : State) (o : Output) : (s.emit o).quitIn = s.quitIn := rfl

@[simp] theorem State.emit_glyphPolicy (s : State) (o : Output) : (s.emit o).glyphPolicy = s.glyphPolicy := rfl

@[simp] theorem State.emit_rates (s : State) (o : Output) : (s.emit o).rates = s.rates := rfl

@[simp] theorem State.emit_earlyDraw (s : State) (o : Output) : (s.emit o).earlyDraw = s.earlyDraw := rfl

@[simp] theorem State.emit_lateDraw (s : State) (o : Output) : (s.emit o).lateDraw = s.lateDraw := rfl

@[simp] theorem State.emit_draws (s : State) (o : Output) : (s.emit o).draws = s.draws := rfl

@[simp] theorem State.emit_out (s : State) (o : Output) :
    (s.emit o).out = s.out ++ [o] := rfl

@[simp] theorem State.displayClear_v (s : State) : (s.displayClear).v = s.v := rfl

@[simp] theorem State.displayClear_i (s : State) : (s.displayClear).i = s.i := rfl

@[simp] theorem State.displayClear_pc (s : State) : (s.displayClear).pc = s.pc := rfl

@[simp] theorem State.displayClear_sp (s : State) : (s.displayClear).sp = s.sp := rfl

@[simp] theorem State.displayClear_stack (s : State) : (s.displayClear).stack = s.stack := rfl

@[simp] theorem State.displayClear_dt (s : State) : (s.displayClear).dt = s.dt := rfl

@[simp] theorem State.displayClear_st (s : State) : (s.displayClear).st = s.st := rfl

@[simp] theorem State.displayClear_mem (s : State) : (s.displayClear).mem = s.mem := rfl

@[simp] theorem State.displayClear_halted (s : State) : (s.displayClear).halted = s.halted := rfl

@[simp] theorem State.displayClear_faultCause (s : State) : (s.displayClear).faultCause = s.faultCause := rfl

@[simp] theorem State.displayClear_faultPc (s : State) : (s.displayClear).faultPc = s.faultPc := rfl

@[simp] theorem State.displayClear_faultInfo (s : State) : (s.displayClear).faultInfo = s.faultInfo := rfl

@[simp] theorem State.displayClear_tTimer (s : State) : (s.displayClear).tTimer = s.tTimer := rfl

@[simp] theorem State.displayClear_tInsn (s : State) : (s.displayClear).tInsn = s.tInsn := rfl

@[simp] theorem State.displayClear_ir (s : State) : (s.displayClear).ir = s.ir := rfl

@[simp] theorem State.displayClear_fetchAddr (s : State) : (s.displayClear).fetchAddr = s.fetchAddr := rfl

@[simp] theorem State.displayClear_disp (s : State) :
    (s.displayClear).disp = blankGrid := rfl

@[simp] theorem State.displayClear_visible (s : State) : (s.displayClear).visible = s.visible := rfl

@[simp] theorem State.displayClear_lastPresent (s : State) : (s.displayClear).lastPresent = s.lastPresent := rfl

@[simp] theorem State.displayClear_frameOpen (s : State) : (s.displayClear).frameOpen = s.frameOpen := rfl

@[simp] theorem State.displayClear_keyDown (s : State) : (s.displayClear).keyDown = s.keyDown := rfl

@[simp] theorem State.displayClear_released (s : State) : (s.displayClear).released = s.released := rfl

@[simp] theorem State.displayClear_now (s : State) : (s.displayClear).now = s.now := rfl

@[simp] theorem State.displayClear_rand (s : State) : (s.displayClear).rand = s.rand := rfl

@[simp] theorem State.displayClear_quitIn (s : State) : (s.displayClear).quitIn = s.quitIn := rfl

@[simp] theorem State.displayClear_glyphPolicy (s : State) : (s.displayClear).glyphPolicy = s.glyphPolicy := rfl

@[simp] theorem State.displayClear_rates (s : State) : (s.displayClear).rates = s.rates := rfl

@[simp] theorem State.displayClear_earlyDraw (s : State) : (s.displayClear).earlyDraw = s.earlyDraw := rfl

@[simp] theorem State.displayClear_lateDraw (s : State) : (s.displayClear).lateDraw = s.lateDraw := rfl

@[simp] theorem State.displayClear_draws (s : State) : (s.displayClear).draws = s.draws := rfl

@[simp] theorem State.displayClear_out (s : State) :
    (s.displayClear).out = s.out ++ [.clear] := rfl

@[simp] theorem State.togglePixel_v (s : State) (p : Column × Row) : (s.togglePixel p).v = s.v := rfl

@[simp] theorem State.togglePixel_i (s : State) (p : Column × Row) : (s.togglePixel p).i = s.i := rfl

@[simp] theorem State.togglePixel_pc (s : State) (p : Column × Row) : (s.togglePixel p).pc = s.pc := rfl

@[simp] theorem State.togglePixel_sp (s : State) (p : Column × Row) : (s.togglePixel p).sp = s.sp := rfl

@[simp] theorem State.togglePixel_stack (s : State) (p : Column × Row) : (s.togglePixel p).stack = s.stack := rfl

@[simp] theorem State.togglePixel_dt (s : State) (p : Column × Row) : (s.togglePixel p).dt = s.dt := rfl

@[simp] theorem State.togglePixel_st (s : State) (p : Column × Row) : (s.togglePixel p).st = s.st := rfl

@[simp] theorem State.togglePixel_mem (s : State) (p : Column × Row) : (s.togglePixel p).mem = s.mem := rfl

@[simp] theorem State.togglePixel_halted (s : State) (p : Column × Row) : (s.togglePixel p).halted = s.halted := rfl

@[simp] theorem State.togglePixel_faultCause (s : State) (p : Column × Row) : (s.togglePixel p).faultCause = s.faultCause := rfl

@[simp] theorem State.togglePixel_faultPc (s : State) (p : Column × Row) : (s.togglePixel p).faultPc = s.faultPc := rfl

@[simp] theorem State.togglePixel_faultInfo (s : State) (p : Column × Row) : (s.togglePixel p).faultInfo = s.faultInfo := rfl

@[simp] theorem State.togglePixel_tTimer (s : State) (p : Column × Row) : (s.togglePixel p).tTimer = s.tTimer := rfl

@[simp] theorem State.togglePixel_tInsn (s : State) (p : Column × Row) : (s.togglePixel p).tInsn = s.tInsn := rfl

@[simp] theorem State.togglePixel_ir (s : State) (p : Column × Row) : (s.togglePixel p).ir = s.ir := rfl

@[simp] theorem State.togglePixel_fetchAddr (s : State) (p : Column × Row) : (s.togglePixel p).fetchAddr = s.fetchAddr := rfl

@[simp] theorem State.togglePixel_disp (s : State) (p : Column × Row) :
    (s.togglePixel p).disp = s.disp.toggle p.1 p.2 := rfl

@[simp] theorem State.togglePixel_visible (s : State) (p : Column × Row) : (s.togglePixel p).visible = s.visible := rfl

@[simp] theorem State.togglePixel_lastPresent (s : State) (p : Column × Row) : (s.togglePixel p).lastPresent = s.lastPresent := rfl

@[simp] theorem State.togglePixel_frameOpen (s : State) (p : Column × Row) : (s.togglePixel p).frameOpen = s.frameOpen := rfl

@[simp] theorem State.togglePixel_keyDown (s : State) (p : Column × Row) : (s.togglePixel p).keyDown = s.keyDown := rfl

@[simp] theorem State.togglePixel_released (s : State) (p : Column × Row) : (s.togglePixel p).released = s.released := rfl

@[simp] theorem State.togglePixel_now (s : State) (p : Column × Row) : (s.togglePixel p).now = s.now := rfl

@[simp] theorem State.togglePixel_rand (s : State) (p : Column × Row) : (s.togglePixel p).rand = s.rand := rfl

@[simp] theorem State.togglePixel_quitIn (s : State) (p : Column × Row) : (s.togglePixel p).quitIn = s.quitIn := rfl

@[simp] theorem State.togglePixel_glyphPolicy (s : State) (p : Column × Row) : (s.togglePixel p).glyphPolicy = s.glyphPolicy := rfl

@[simp] theorem State.togglePixel_rates (s : State) (p : Column × Row) : (s.togglePixel p).rates = s.rates := rfl

@[simp] theorem State.togglePixel_earlyDraw (s : State) (p : Column × Row) : (s.togglePixel p).earlyDraw = s.earlyDraw := rfl

@[simp] theorem State.togglePixel_lateDraw (s : State) (p : Column × Row) : (s.togglePixel p).lateDraw = s.lateDraw := rfl

@[simp] theorem State.togglePixel_draws (s : State) (p : Column × Row) : (s.togglePixel p).draws = s.draws := rfl

@[simp] theorem State.togglePixel_out (s : State) (p : Column × Row) :
    (s.togglePixel p).out = s.out ++ [.toggle p.1 p.2] := rfl

@[simp] theorem State.present_v (s : State) : (s.present).v = s.v := rfl

@[simp] theorem State.present_i (s : State) : (s.present).i = s.i := rfl

@[simp] theorem State.present_pc (s : State) : (s.present).pc = s.pc := rfl

@[simp] theorem State.present_sp (s : State) : (s.present).sp = s.sp := rfl

@[simp] theorem State.present_stack (s : State) : (s.present).stack = s.stack := rfl

@[simp] theorem State.present_dt (s : State) : (s.present).dt = s.dt := rfl

@[simp] theorem State.present_st (s : State) : (s.present).st = s.st := rfl

@[simp] theorem State.present_mem (s : State) : (s.present).mem = s.mem := rfl

@[simp] theorem State.present_halted (s : State) : (s.present).halted = s.halted := rfl

@[simp] theorem State.present_faultCause (s : State) : (s.present).faultCause = s.faultCause := rfl

@[simp] theorem State.present_faultPc (s : State) : (s.present).faultPc = s.faultPc := rfl

@[simp] theorem State.present_faultInfo (s : State) : (s.present).faultInfo = s.faultInfo := rfl

@[simp] theorem State.present_tTimer (s : State) : (s.present).tTimer = s.tTimer := rfl

@[simp] theorem State.present_tInsn (s : State) : (s.present).tInsn = s.tInsn := rfl

@[simp] theorem State.present_ir (s : State) : (s.present).ir = s.ir := rfl

@[simp] theorem State.present_fetchAddr (s : State) : (s.present).fetchAddr = s.fetchAddr := rfl

@[simp] theorem State.present_disp (s : State) : (s.present).disp = s.disp := rfl

@[simp] theorem State.present_visible (s : State) :
    (s.present).visible = s.disp := rfl

@[simp] theorem State.present_lastPresent (s : State) :
    (s.present).lastPresent = some s.now := rfl

@[simp] theorem State.present_frameOpen (s : State) :
    (s.present).frameOpen = false := rfl

@[simp] theorem State.present_keyDown (s : State) : (s.present).keyDown = s.keyDown := rfl

@[simp] theorem State.present_released (s : State) : (s.present).released = s.released := rfl

@[simp] theorem State.present_now (s : State) : (s.present).now = s.now := rfl

@[simp] theorem State.present_rand (s : State) : (s.present).rand = s.rand := rfl

@[simp] theorem State.present_quitIn (s : State) : (s.present).quitIn = s.quitIn := rfl

@[simp] theorem State.present_glyphPolicy (s : State) : (s.present).glyphPolicy = s.glyphPolicy := rfl

@[simp] theorem State.present_rates (s : State) : (s.present).rates = s.rates := rfl

@[simp] theorem State.present_earlyDraw (s : State) : (s.present).earlyDraw = s.earlyDraw := rfl

@[simp] theorem State.present_lateDraw (s : State) : (s.present).lateDraw = s.lateDraw := rfl

@[simp] theorem State.present_draws (s : State) : (s.present).draws = s.draws := rfl

@[simp] theorem State.present_out (s : State) :
    (s.present).out = s.out ++ [.present] := rfl

@[simp] theorem State.pump_v (s : State) : (s.pump).v = s.v := rfl

@[simp] theorem State.pump_i (s : State) : (s.pump).i = s.i := rfl

@[simp] theorem State.pump_pc (s : State) : (s.pump).pc = s.pc := rfl

@[simp] theorem State.pump_sp (s : State) : (s.pump).sp = s.sp := rfl

@[simp] theorem State.pump_stack (s : State) : (s.pump).stack = s.stack := rfl

@[simp] theorem State.pump_dt (s : State) : (s.pump).dt = s.dt := rfl

@[simp] theorem State.pump_st (s : State) : (s.pump).st = s.st := rfl

@[simp] theorem State.pump_mem (s : State) : (s.pump).mem = s.mem := rfl

@[simp] theorem State.pump_halted (s : State) : (s.pump).halted = s.halted := rfl

@[simp] theorem State.pump_faultCause (s : State) : (s.pump).faultCause = s.faultCause := rfl

@[simp] theorem State.pump_faultPc (s : State) : (s.pump).faultPc = s.faultPc := rfl

@[simp] theorem State.pump_faultInfo (s : State) : (s.pump).faultInfo = s.faultInfo := rfl

@[simp] theorem State.pump_tTimer (s : State) : (s.pump).tTimer = s.tTimer := rfl

@[simp] theorem State.pump_tInsn (s : State) : (s.pump).tInsn = s.tInsn := rfl

@[simp] theorem State.pump_ir (s : State) : (s.pump).ir = s.ir := rfl

@[simp] theorem State.pump_fetchAddr (s : State) : (s.pump).fetchAddr = s.fetchAddr := rfl

@[simp] theorem State.pump_disp (s : State) : (s.pump).disp = s.disp := rfl

@[simp] theorem State.pump_visible (s : State) : (s.pump).visible = s.visible := rfl

@[simp] theorem State.pump_lastPresent (s : State) : (s.pump).lastPresent = s.lastPresent := rfl

@[simp] theorem State.pump_frameOpen (s : State) : (s.pump).frameOpen = s.frameOpen := rfl

@[simp] theorem State.pump_keyDown (s : State) :
    (s.pump).keyDown = Config.keyDownDraw s.draws := rfl

@[simp] theorem State.pump_released (s : State) :
    (s.pump).released = Config.releasedDraw s.draws := rfl

@[simp] theorem State.pump_now (s : State) : (s.pump).now = s.now := rfl

@[simp] theorem State.pump_rand (s : State) : (s.pump).rand = s.rand := rfl

@[simp] theorem State.pump_quitIn (s : State) : (s.pump).quitIn = s.quitIn := rfl

@[simp] theorem State.pump_glyphPolicy (s : State) : (s.pump).glyphPolicy = s.glyphPolicy := rfl

@[simp] theorem State.pump_rates (s : State) : (s.pump).rates = s.rates := rfl

@[simp] theorem State.pump_earlyDraw (s : State) : (s.pump).earlyDraw = s.earlyDraw := rfl

@[simp] theorem State.pump_lateDraw (s : State) : (s.pump).lateDraw = s.lateDraw := rfl

@[simp] theorem State.pump_draws (s : State) :
    (s.pump).draws = s.draws + 1 := rfl

@[simp] theorem State.pump_out (s : State) :
    (s.pump).out = s.out ++ [.pump] := rfl

@[simp] theorem State.redrawRand_v (s : State) : (s.redrawRand).v = s.v := rfl

@[simp] theorem State.redrawRand_i (s : State) : (s.redrawRand).i = s.i := rfl

@[simp] theorem State.redrawRand_pc (s : State) : (s.redrawRand).pc = s.pc := rfl

@[simp] theorem State.redrawRand_sp (s : State) : (s.redrawRand).sp = s.sp := rfl

@[simp] theorem State.redrawRand_stack (s : State) : (s.redrawRand).stack = s.stack := rfl

@[simp] theorem State.redrawRand_dt (s : State) : (s.redrawRand).dt = s.dt := rfl

@[simp] theorem State.redrawRand_st (s : State) : (s.redrawRand).st = s.st := rfl

@[simp] theorem State.redrawRand_mem (s : State) : (s.redrawRand).mem = s.mem := rfl

@[simp] theorem State.redrawRand_halted (s : State) : (s.redrawRand).halted = s.halted := rfl

@[simp] theorem State.redrawRand_faultCause (s : State) : (s.redrawRand).faultCause = s.faultCause := rfl

@[simp] theorem State.redrawRand_faultPc (s : State) : (s.redrawRand).faultPc = s.faultPc := rfl

@[simp] theorem State.redrawRand_faultInfo (s : State) : (s.redrawRand).faultInfo = s.faultInfo := rfl

@[simp] theorem State.redrawRand_tTimer (s : State) : (s.redrawRand).tTimer = s.tTimer := rfl

@[simp] theorem State.redrawRand_tInsn (s : State) : (s.redrawRand).tInsn = s.tInsn := rfl

@[simp] theorem State.redrawRand_ir (s : State) : (s.redrawRand).ir = s.ir := rfl

@[simp] theorem State.redrawRand_fetchAddr (s : State) : (s.redrawRand).fetchAddr = s.fetchAddr := rfl

@[simp] theorem State.redrawRand_disp (s : State) : (s.redrawRand).disp = s.disp := rfl

@[simp] theorem State.redrawRand_visible (s : State) : (s.redrawRand).visible = s.visible := rfl

@[simp] theorem State.redrawRand_lastPresent (s : State) : (s.redrawRand).lastPresent = s.lastPresent := rfl

@[simp] theorem State.redrawRand_frameOpen (s : State) : (s.redrawRand).frameOpen = s.frameOpen := rfl

@[simp] theorem State.redrawRand_keyDown (s : State) : (s.redrawRand).keyDown = s.keyDown := rfl

@[simp] theorem State.redrawRand_released (s : State) : (s.redrawRand).released = s.released := rfl

@[simp] theorem State.redrawRand_now (s : State) : (s.redrawRand).now = s.now := rfl

@[simp] theorem State.redrawRand_rand (s : State) :
    (s.redrawRand).rand = Config.randDraw s.draws := rfl

@[simp] theorem State.redrawRand_quitIn (s : State) : (s.redrawRand).quitIn = s.quitIn := rfl

@[simp] theorem State.redrawRand_glyphPolicy (s : State) : (s.redrawRand).glyphPolicy = s.glyphPolicy := rfl

@[simp] theorem State.redrawRand_rates (s : State) : (s.redrawRand).rates = s.rates := rfl

@[simp] theorem State.redrawRand_earlyDraw (s : State) : (s.redrawRand).earlyDraw = s.earlyDraw := rfl

@[simp] theorem State.redrawRand_lateDraw (s : State) : (s.redrawRand).lateDraw = s.lateDraw := rfl

@[simp] theorem State.redrawRand_draws (s : State) :
    (s.redrawRand).draws = s.draws + 1 := rfl

@[simp] theorem State.redrawRand_out (s : State) : (s.redrawRand).out = s.out := rfl

@[simp] theorem State.clearReleased_v (s : State) : (s.clearReleased).v = s.v := rfl

@[simp] theorem State.clearReleased_i (s : State) : (s.clearReleased).i = s.i := rfl

@[simp] theorem State.clearReleased_pc (s : State) : (s.clearReleased).pc = s.pc := rfl

@[simp] theorem State.clearReleased_sp (s : State) : (s.clearReleased).sp = s.sp := rfl

@[simp] theorem State.clearReleased_stack (s : State) : (s.clearReleased).stack = s.stack := rfl

@[simp] theorem State.clearReleased_dt (s : State) : (s.clearReleased).dt = s.dt := rfl

@[simp] theorem State.clearReleased_st (s : State) : (s.clearReleased).st = s.st := rfl

@[simp] theorem State.clearReleased_mem (s : State) : (s.clearReleased).mem = s.mem := rfl

@[simp] theorem State.clearReleased_halted (s : State) : (s.clearReleased).halted = s.halted := rfl

@[simp] theorem State.clearReleased_faultCause (s : State) : (s.clearReleased).faultCause = s.faultCause := rfl

@[simp] theorem State.clearReleased_faultPc (s : State) : (s.clearReleased).faultPc = s.faultPc := rfl

@[simp] theorem State.clearReleased_faultInfo (s : State) : (s.clearReleased).faultInfo = s.faultInfo := rfl

@[simp] theorem State.clearReleased_tTimer (s : State) : (s.clearReleased).tTimer = s.tTimer := rfl

@[simp] theorem State.clearReleased_tInsn (s : State) : (s.clearReleased).tInsn = s.tInsn := rfl

@[simp] theorem State.clearReleased_ir (s : State) : (s.clearReleased).ir = s.ir := rfl

@[simp] theorem State.clearReleased_fetchAddr (s : State) : (s.clearReleased).fetchAddr = s.fetchAddr := rfl

@[simp] theorem State.clearReleased_disp (s : State) : (s.clearReleased).disp = s.disp := rfl

@[simp] theorem State.clearReleased_visible (s : State) : (s.clearReleased).visible = s.visible := rfl

@[simp] theorem State.clearReleased_lastPresent (s : State) : (s.clearReleased).lastPresent = s.lastPresent := rfl

@[simp] theorem State.clearReleased_frameOpen (s : State) : (s.clearReleased).frameOpen = s.frameOpen := rfl

@[simp] theorem State.clearReleased_keyDown (s : State) : (s.clearReleased).keyDown = s.keyDown := rfl

@[simp] theorem State.clearReleased_released (s : State) :
    (s.clearReleased).released = none := rfl

@[simp] theorem State.clearReleased_now (s : State) : (s.clearReleased).now = s.now := rfl

@[simp] theorem State.clearReleased_rand (s : State) : (s.clearReleased).rand = s.rand := rfl

@[simp] theorem State.clearReleased_quitIn (s : State) : (s.clearReleased).quitIn = s.quitIn := rfl

@[simp] theorem State.clearReleased_glyphPolicy (s : State) : (s.clearReleased).glyphPolicy = s.glyphPolicy := rfl

@[simp] theorem State.clearReleased_rates (s : State) : (s.clearReleased).rates = s.rates := rfl

@[simp] theorem State.clearReleased_earlyDraw (s : State) : (s.clearReleased).earlyDraw = s.earlyDraw := rfl

@[simp] theorem State.clearReleased_lateDraw (s : State) : (s.clearReleased).lateDraw = s.lateDraw := rfl

@[simp] theorem State.clearReleased_draws (s : State) : (s.clearReleased).draws = s.draws := rfl

@[simp] theorem State.clearReleased_out (s : State) : (s.clearReleased).out = s.out := rfl

@[simp] theorem State.pollTimer_v (s : State) (t : Nat) : (s.pollTimer t).v = s.v := rfl

@[simp] theorem State.pollTimer_i (s : State) (t : Nat) : (s.pollTimer t).i = s.i := rfl

@[simp] theorem State.pollTimer_pc (s : State) (t : Nat) : (s.pollTimer t).pc = s.pc := rfl

@[simp] theorem State.pollTimer_sp (s : State) (t : Nat) : (s.pollTimer t).sp = s.sp := rfl

@[simp] theorem State.pollTimer_stack (s : State) (t : Nat) : (s.pollTimer t).stack = s.stack := rfl

@[simp] theorem State.pollTimer_dt (s : State) (t : Nat) :
    (s.pollTimer t).dt = if s.timerDue t then s.timerAction.dt else s.dt := rfl

@[simp] theorem State.pollTimer_st (s : State) (t : Nat) :
    (s.pollTimer t).st = if s.timerDue t then s.timerAction.st else s.st := rfl

@[simp] theorem State.pollTimer_mem (s : State) (t : Nat) : (s.pollTimer t).mem = s.mem := rfl

@[simp] theorem State.pollTimer_halted (s : State) (t : Nat) : (s.pollTimer t).halted = s.halted := rfl

@[simp] theorem State.pollTimer_faultCause (s : State) (t : Nat) : (s.pollTimer t).faultCause = s.faultCause := rfl

@[simp] theorem State.pollTimer_faultPc (s : State) (t : Nat) : (s.pollTimer t).faultPc = s.faultPc := rfl

@[simp] theorem State.pollTimer_faultInfo (s : State) (t : Nat) : (s.pollTimer t).faultInfo = s.faultInfo := rfl

@[simp] theorem State.pollTimer_tTimer (s : State) (t : Nat) :
    (s.pollTimer t).tTimer = if s.timerDue t then t else s.tTimer := rfl

@[simp] theorem State.pollTimer_tInsn (s : State) (t : Nat) : (s.pollTimer t).tInsn = s.tInsn := rfl

@[simp] theorem State.pollTimer_ir (s : State) (t : Nat) : (s.pollTimer t).ir = s.ir := rfl

@[simp] theorem State.pollTimer_fetchAddr (s : State) (t : Nat) : (s.pollTimer t).fetchAddr = s.fetchAddr := rfl

@[simp] theorem State.pollTimer_disp (s : State) (t : Nat) : (s.pollTimer t).disp = s.disp := rfl

@[simp] theorem State.pollTimer_visible (s : State) (t : Nat) : (s.pollTimer t).visible = s.visible := rfl

@[simp] theorem State.pollTimer_lastPresent (s : State) (t : Nat) : (s.pollTimer t).lastPresent = s.lastPresent := rfl

@[simp] theorem State.pollTimer_frameOpen (s : State) (t : Nat) : (s.pollTimer t).frameOpen = s.frameOpen := rfl

@[simp] theorem State.pollTimer_keyDown (s : State) (t : Nat) : (s.pollTimer t).keyDown = s.keyDown := rfl

@[simp] theorem State.pollTimer_released (s : State) (t : Nat) : (s.pollTimer t).released = s.released := rfl

@[simp] theorem State.pollTimer_now (s : State) (t : Nat) :
    (s.pollTimer t).now = t := rfl

@[simp] theorem State.pollTimer_rand (s : State) (t : Nat) : (s.pollTimer t).rand = s.rand := rfl

@[simp] theorem State.pollTimer_quitIn (s : State) (t : Nat) : (s.pollTimer t).quitIn = s.quitIn := rfl

@[simp] theorem State.pollTimer_glyphPolicy (s : State) (t : Nat) : (s.pollTimer t).glyphPolicy = s.glyphPolicy := rfl

@[simp] theorem State.pollTimer_rates (s : State) (t : Nat) : (s.pollTimer t).rates = s.rates := rfl

@[simp] theorem State.pollTimer_earlyDraw (s : State) (t : Nat) : (s.pollTimer t).earlyDraw = s.earlyDraw := rfl

@[simp] theorem State.pollTimer_lateDraw (s : State) (t : Nat) : (s.pollTimer t).lateDraw = s.lateDraw := rfl

@[simp] theorem State.pollTimer_draws (s : State) (t : Nat) : (s.pollTimer t).draws = s.draws := rfl

@[simp] theorem State.pollTimer_out (s : State) (t : Nat) :
    (s.pollTimer t).out = if s.timerDue t then s.timerAction.out else s.out := rfl

@[simp] theorem State.pollTimers_v (s : State) : (s.pollTimers).v = s.v := rfl

@[simp] theorem State.pollTimers_i (s : State) : (s.pollTimers).i = s.i := rfl

@[simp] theorem State.pollTimers_pc (s : State) : (s.pollTimers).pc = s.pc := rfl

@[simp] theorem State.pollTimers_sp (s : State) : (s.pollTimers).sp = s.sp := rfl

@[simp] theorem State.pollTimers_stack (s : State) : (s.pollTimers).stack = s.stack := rfl

@[simp] theorem State.pollTimers_mem (s : State) : (s.pollTimers).mem = s.mem := rfl

@[simp] theorem State.pollTimers_halted (s : State) : (s.pollTimers).halted = s.halted := rfl

@[simp] theorem State.pollTimers_faultCause (s : State) : (s.pollTimers).faultCause = s.faultCause := rfl

@[simp] theorem State.pollTimers_faultPc (s : State) : (s.pollTimers).faultPc = s.faultPc := rfl

@[simp] theorem State.pollTimers_faultInfo (s : State) : (s.pollTimers).faultInfo = s.faultInfo := rfl

@[simp] theorem State.pollTimers_tInsn (s : State) : (s.pollTimers).tInsn = s.tInsn := rfl

@[simp] theorem State.pollTimers_ir (s : State) : (s.pollTimers).ir = s.ir := rfl

@[simp] theorem State.pollTimers_fetchAddr (s : State) : (s.pollTimers).fetchAddr = s.fetchAddr := rfl

@[simp] theorem State.pollTimers_disp (s : State) : (s.pollTimers).disp = s.disp := rfl

@[simp] theorem State.pollTimers_visible (s : State) : (s.pollTimers).visible = s.visible := rfl

@[simp] theorem State.pollTimers_lastPresent (s : State) : (s.pollTimers).lastPresent = s.lastPresent := rfl

@[simp] theorem State.pollTimers_frameOpen (s : State) : (s.pollTimers).frameOpen = s.frameOpen := rfl

@[simp] theorem State.pollTimers_keyDown (s : State) : (s.pollTimers).keyDown = s.keyDown := rfl

@[simp] theorem State.pollTimers_released (s : State) : (s.pollTimers).released = s.released := rfl

@[simp] theorem State.pollTimers_now (s : State) :
    (s.pollTimers).now = s.lateSample := rfl

@[simp] theorem State.pollTimers_rand (s : State) : (s.pollTimers).rand = s.rand := rfl

@[simp] theorem State.pollTimers_quitIn (s : State) : (s.pollTimers).quitIn = s.quitIn := rfl

@[simp] theorem State.pollTimers_glyphPolicy (s : State) : (s.pollTimers).glyphPolicy = s.glyphPolicy := rfl

@[simp] theorem State.pollTimers_rates (s : State) : (s.pollTimers).rates = s.rates := rfl

@[simp] theorem State.pollTimers_earlyDraw (s : State) : (s.pollTimers).earlyDraw = s.earlyDraw := rfl

@[simp] theorem State.pollTimers_lateDraw (s : State) : (s.pollTimers).lateDraw = s.lateDraw := rfl

@[simp] theorem State.pollTimers_draws (s : State) : (s.pollTimers).draws = s.draws := rfl

@[simp] theorem State.quiet_v (s : State) : (s.quiet).v = s.v := rfl

@[simp] theorem State.quiet_i (s : State) : (s.quiet).i = s.i := rfl

@[simp] theorem State.quiet_pc (s : State) : (s.quiet).pc = s.pc := rfl

@[simp] theorem State.quiet_sp (s : State) : (s.quiet).sp = s.sp := rfl

@[simp] theorem State.quiet_stack (s : State) : (s.quiet).stack = s.stack := rfl

@[simp] theorem State.quiet_dt (s : State) : (s.quiet).dt = s.dt := rfl

@[simp] theorem State.quiet_st (s : State) : (s.quiet).st = s.st := rfl

@[simp] theorem State.quiet_mem (s : State) : (s.quiet).mem = s.mem := rfl

@[simp] theorem State.quiet_halted (s : State) : (s.quiet).halted = s.halted := rfl

@[simp] theorem State.quiet_faultCause (s : State) : (s.quiet).faultCause = s.faultCause := rfl

@[simp] theorem State.quiet_faultPc (s : State) : (s.quiet).faultPc = s.faultPc := rfl

@[simp] theorem State.quiet_faultInfo (s : State) : (s.quiet).faultInfo = s.faultInfo := rfl

@[simp] theorem State.quiet_tTimer (s : State) : (s.quiet).tTimer = s.tTimer := rfl

@[simp] theorem State.quiet_tInsn (s : State) : (s.quiet).tInsn = s.tInsn := rfl

@[simp] theorem State.quiet_ir (s : State) : (s.quiet).ir = s.ir := rfl

@[simp] theorem State.quiet_fetchAddr (s : State) : (s.quiet).fetchAddr = s.fetchAddr := rfl

@[simp] theorem State.quiet_disp (s : State) : (s.quiet).disp = s.disp := rfl

@[simp] theorem State.quiet_visible (s : State) : (s.quiet).visible = s.visible := rfl

@[simp] theorem State.quiet_lastPresent (s : State) : (s.quiet).lastPresent = s.lastPresent := rfl

@[simp] theorem State.quiet_frameOpen (s : State) : (s.quiet).frameOpen = s.frameOpen := rfl

@[simp] theorem State.quiet_keyDown (s : State) : (s.quiet).keyDown = s.keyDown := rfl

@[simp] theorem State.quiet_released (s : State) : (s.quiet).released = s.released := rfl

@[simp] theorem State.quiet_now (s : State) : (s.quiet).now = s.now := rfl

@[simp] theorem State.quiet_rand (s : State) : (s.quiet).rand = s.rand := rfl

@[simp] theorem State.quiet_quitIn (s : State) : (s.quiet).quitIn = s.quitIn := rfl

@[simp] theorem State.quiet_glyphPolicy (s : State) : (s.quiet).glyphPolicy = s.glyphPolicy := rfl

@[simp] theorem State.quiet_rates (s : State) : (s.quiet).rates = s.rates := rfl

@[simp] theorem State.quiet_earlyDraw (s : State) : (s.quiet).earlyDraw = s.earlyDraw := rfl

@[simp] theorem State.quiet_lateDraw (s : State) : (s.quiet).lateDraw = s.lateDraw := rfl

@[simp] theorem State.quiet_draws (s : State) : (s.quiet).draws = s.draws := rfl

@[simp] theorem State.quiet_out (s : State) :
    (s.quiet).out = [] := rfl

@[simp] theorem State.environmentTurn_v (s : State) : (s.environmentTurn).v = s.v := rfl

@[simp] theorem State.environmentTurn_i (s : State) : (s.environmentTurn).i = s.i := rfl

@[simp] theorem State.environmentTurn_pc (s : State) : (s.environmentTurn).pc = s.pc := rfl

@[simp] theorem State.environmentTurn_sp (s : State) : (s.environmentTurn).sp = s.sp := rfl

@[simp] theorem State.environmentTurn_stack (s : State) : (s.environmentTurn).stack = s.stack := rfl

@[simp] theorem State.environmentTurn_dt (s : State) : (s.environmentTurn).dt = s.dt := rfl

@[simp] theorem State.environmentTurn_st (s : State) : (s.environmentTurn).st = s.st := rfl

@[simp] theorem State.environmentTurn_mem (s : State) : (s.environmentTurn).mem = s.mem := rfl

@[simp] theorem State.environmentTurn_halted (s : State) : (s.environmentTurn).halted = s.halted := rfl

@[simp] theorem State.environmentTurn_faultCause (s : State) : (s.environmentTurn).faultCause = s.faultCause := rfl

@[simp] theorem State.environmentTurn_faultPc (s : State) : (s.environmentTurn).faultPc = s.faultPc := rfl

@[simp] theorem State.environmentTurn_faultInfo (s : State) : (s.environmentTurn).faultInfo = s.faultInfo := rfl

@[simp] theorem State.environmentTurn_tTimer (s : State) : (s.environmentTurn).tTimer = s.tTimer := rfl

@[simp] theorem State.environmentTurn_tInsn (s : State) : (s.environmentTurn).tInsn = s.tInsn := rfl

@[simp] theorem State.environmentTurn_ir (s : State) : (s.environmentTurn).ir = s.ir := rfl

@[simp] theorem State.environmentTurn_fetchAddr (s : State) : (s.environmentTurn).fetchAddr = s.fetchAddr := rfl

@[simp] theorem State.environmentTurn_disp (s : State) : (s.environmentTurn).disp = s.disp := rfl

@[simp] theorem State.environmentTurn_visible (s : State) : (s.environmentTurn).visible = s.visible := rfl

@[simp] theorem State.environmentTurn_lastPresent (s : State) : (s.environmentTurn).lastPresent = s.lastPresent := rfl

@[simp] theorem State.environmentTurn_frameOpen (s : State) :
    (s.environmentTurn).frameOpen = s.nextFrameOpen := rfl

@[simp] theorem State.environmentTurn_keyDown (s : State) : (s.environmentTurn).keyDown = s.keyDown := rfl

@[simp] theorem State.environmentTurn_released (s : State) : (s.environmentTurn).released = s.released := rfl

@[simp] theorem State.environmentTurn_now (s : State) : (s.environmentTurn).now = s.now := rfl

@[simp] theorem State.environmentTurn_rand (s : State) : (s.environmentTurn).rand = s.rand := rfl

@[simp] theorem State.environmentTurn_quitIn (s : State) :
    (s.environmentTurn).quitIn = s.quitIn.map (· - 1) := rfl

@[simp] theorem State.environmentTurn_glyphPolicy (s : State) : (s.environmentTurn).glyphPolicy = s.glyphPolicy := rfl

@[simp] theorem State.environmentTurn_rates (s : State) : (s.environmentTurn).rates = s.rates := rfl

@[simp] theorem State.environmentTurn_earlyDraw (s : State) :
    (s.environmentTurn).earlyDraw = Config.earlyDraw s.draws := rfl

@[simp] theorem State.environmentTurn_lateDraw (s : State) :
    (s.environmentTurn).lateDraw = Config.lateDraw s.draws := rfl

@[simp] theorem State.environmentTurn_draws (s : State) :
    (s.environmentTurn).draws = s.draws + 1 := rfl

@[simp] theorem State.environmentTurn_out (s : State) : (s.environmentTurn).out = s.out := rfl

@[simp] theorem State.recordInsn_v (s : State) : (s.recordInsn).v = s.v := rfl

@[simp] theorem State.recordInsn_i (s : State) : (s.recordInsn).i = s.i := rfl

@[simp] theorem State.recordInsn_pc (s : State) : (s.recordInsn).pc = s.pc := rfl

@[simp] theorem State.recordInsn_sp (s : State) : (s.recordInsn).sp = s.sp := rfl

@[simp] theorem State.recordInsn_stack (s : State) : (s.recordInsn).stack = s.stack := rfl

@[simp] theorem State.recordInsn_dt (s : State) : (s.recordInsn).dt = s.dt := rfl

@[simp] theorem State.recordInsn_st (s : State) : (s.recordInsn).st = s.st := rfl

@[simp] theorem State.recordInsn_mem (s : State) : (s.recordInsn).mem = s.mem := rfl

@[simp] theorem State.recordInsn_halted (s : State) : (s.recordInsn).halted = s.halted := rfl

@[simp] theorem State.recordInsn_faultCause (s : State) : (s.recordInsn).faultCause = s.faultCause := rfl

@[simp] theorem State.recordInsn_faultPc (s : State) : (s.recordInsn).faultPc = s.faultPc := rfl

@[simp] theorem State.recordInsn_faultInfo (s : State) : (s.recordInsn).faultInfo = s.faultInfo := rfl

@[simp] theorem State.recordInsn_tTimer (s : State) : (s.recordInsn).tTimer = s.tTimer := rfl

@[simp] theorem State.recordInsn_tInsn (s : State) :
    (s.recordInsn).tInsn = s.now := rfl

@[simp] theorem State.recordInsn_ir (s : State) : (s.recordInsn).ir = s.ir := rfl

@[simp] theorem State.recordInsn_fetchAddr (s : State) : (s.recordInsn).fetchAddr = s.fetchAddr := rfl

@[simp] theorem State.recordInsn_disp (s : State) : (s.recordInsn).disp = s.disp := rfl

@[simp] theorem State.recordInsn_visible (s : State) : (s.recordInsn).visible = s.visible := rfl

@[simp] theorem State.recordInsn_lastPresent (s : State) : (s.recordInsn).lastPresent = s.lastPresent := rfl

@[simp] theorem State.recordInsn_frameOpen (s : State) : (s.recordInsn).frameOpen = s.frameOpen := rfl

@[simp] theorem State.recordInsn_keyDown (s : State) : (s.recordInsn).keyDown = s.keyDown := rfl

@[simp] theorem State.recordInsn_released (s : State) : (s.recordInsn).released = s.released := rfl

@[simp] theorem State.recordInsn_now (s : State) : (s.recordInsn).now = s.now := rfl

@[simp] theorem State.recordInsn_rand (s : State) : (s.recordInsn).rand = s.rand := rfl

@[simp] theorem State.recordInsn_quitIn (s : State) : (s.recordInsn).quitIn = s.quitIn := rfl

@[simp] theorem State.recordInsn_glyphPolicy (s : State) : (s.recordInsn).glyphPolicy = s.glyphPolicy := rfl

@[simp] theorem State.recordInsn_rates (s : State) : (s.recordInsn).rates = s.rates := rfl

@[simp] theorem State.recordInsn_earlyDraw (s : State) : (s.recordInsn).earlyDraw = s.earlyDraw := rfl

@[simp] theorem State.recordInsn_lateDraw (s : State) : (s.recordInsn).lateDraw = s.lateDraw := rfl

@[simp] theorem State.recordInsn_draws (s : State) : (s.recordInsn).draws = s.draws := rfl

@[simp] theorem State.recordInsn_out (s : State) : (s.recordInsn).out = s.out := rfl

@[simp] theorem State.fetched_v (s : State) : (s.fetched).v = s.v := rfl

@[simp] theorem State.fetched_i (s : State) : (s.fetched).i = s.i := rfl

@[simp] theorem State.fetched_pc (s : State) :
    (s.fetched).pc = s.pc + 2#16 := rfl

@[simp] theorem State.fetched_sp (s : State) : (s.fetched).sp = s.sp := rfl

@[simp] theorem State.fetched_stack (s : State) : (s.fetched).stack = s.stack := rfl

@[simp] theorem State.fetched_dt (s : State) : (s.fetched).dt = s.dt := rfl

@[simp] theorem State.fetched_st (s : State) : (s.fetched).st = s.st := rfl

@[simp] theorem State.fetched_mem (s : State) : (s.fetched).mem = s.mem := rfl

@[simp] theorem State.fetched_halted (s : State) : (s.fetched).halted = s.halted := rfl

@[simp] theorem State.fetched_faultCause (s : State) : (s.fetched).faultCause = s.faultCause := rfl

@[simp] theorem State.fetched_faultPc (s : State) : (s.fetched).faultPc = s.faultPc := rfl

@[simp] theorem State.fetched_faultInfo (s : State) : (s.fetched).faultInfo = s.faultInfo := rfl

@[simp] theorem State.fetched_tTimer (s : State) : (s.fetched).tTimer = s.tTimer := rfl

@[simp] theorem State.fetched_tInsn (s : State) : (s.fetched).tInsn = s.tInsn := rfl

@[simp] theorem State.fetched_ir (s : State) :
    (s.fetched).ir = s.mem.word s.pc.toNat := rfl

@[simp] theorem State.fetched_fetchAddr (s : State) :
    (s.fetched).fetchAddr = s.pc := rfl

@[simp] theorem State.fetched_disp (s : State) : (s.fetched).disp = s.disp := rfl

@[simp] theorem State.fetched_visible (s : State) : (s.fetched).visible = s.visible := rfl

@[simp] theorem State.fetched_lastPresent (s : State) : (s.fetched).lastPresent = s.lastPresent := rfl

@[simp] theorem State.fetched_frameOpen (s : State) : (s.fetched).frameOpen = s.frameOpen := rfl

@[simp] theorem State.fetched_keyDown (s : State) : (s.fetched).keyDown = s.keyDown := rfl

@[simp] theorem State.fetched_released (s : State) : (s.fetched).released = s.released := rfl

@[simp] theorem State.fetched_now (s : State) : (s.fetched).now = s.now := rfl

@[simp] theorem State.fetched_rand (s : State) : (s.fetched).rand = s.rand := rfl

@[simp] theorem State.fetched_quitIn (s : State) : (s.fetched).quitIn = s.quitIn := rfl

@[simp] theorem State.fetched_glyphPolicy (s : State) : (s.fetched).glyphPolicy = s.glyphPolicy := rfl

@[simp] theorem State.fetched_rates (s : State) : (s.fetched).rates = s.rates := rfl

@[simp] theorem State.fetched_earlyDraw (s : State) : (s.fetched).earlyDraw = s.earlyDraw := rfl

@[simp] theorem State.fetched_lateDraw (s : State) : (s.fetched).lateDraw = s.lateDraw := rfl

@[simp] theorem State.fetched_draws (s : State) : (s.fetched).draws = s.draws := rfl

@[simp] theorem State.fetched_out (s : State) : (s.fetched).out = s.out := rfl

@[simp] theorem State.fetchFault_v (s : State) : (s.fetchFault).v = s.v := rfl

@[simp] theorem State.fetchFault_i (s : State) : (s.fetchFault).i = s.i := rfl

@[simp] theorem State.fetchFault_pc (s : State) : (s.fetchFault).pc = s.pc := rfl

@[simp] theorem State.fetchFault_sp (s : State) : (s.fetchFault).sp = s.sp := rfl

@[simp] theorem State.fetchFault_stack (s : State) : (s.fetchFault).stack = s.stack := rfl

@[simp] theorem State.fetchFault_dt (s : State) : (s.fetchFault).dt = s.dt := rfl

@[simp] theorem State.fetchFault_st (s : State) : (s.fetchFault).st = s.st := rfl

@[simp] theorem State.fetchFault_mem (s : State) : (s.fetchFault).mem = s.mem := rfl

@[simp] theorem State.fetchFault_halted (s : State) :
    (s.fetchFault).halted = true := rfl

@[simp] theorem State.fetchFault_faultCause (s : State) :
    (s.fetchFault).faultCause = .fetchOutOfRange := rfl

@[simp] theorem State.fetchFault_faultPc (s : State) :
    (s.fetchFault).faultPc = s.pc := rfl

@[simp] theorem State.fetchFault_faultInfo (s : State) :
    (s.fetchFault).faultInfo = s.pc := rfl

@[simp] theorem State.fetchFault_tTimer (s : State) : (s.fetchFault).tTimer = s.tTimer := rfl

@[simp] theorem State.fetchFault_tInsn (s : State) : (s.fetchFault).tInsn = s.tInsn := rfl

@[simp] theorem State.fetchFault_ir (s : State) : (s.fetchFault).ir = s.ir := rfl

@[simp] theorem State.fetchFault_fetchAddr (s : State) :
    (s.fetchFault).fetchAddr = s.pc := rfl

@[simp] theorem State.fetchFault_disp (s : State) : (s.fetchFault).disp = s.disp := rfl

@[simp] theorem State.fetchFault_visible (s : State) : (s.fetchFault).visible = s.visible := rfl

@[simp] theorem State.fetchFault_lastPresent (s : State) : (s.fetchFault).lastPresent = s.lastPresent := rfl

@[simp] theorem State.fetchFault_frameOpen (s : State) : (s.fetchFault).frameOpen = s.frameOpen := rfl

@[simp] theorem State.fetchFault_keyDown (s : State) : (s.fetchFault).keyDown = s.keyDown := rfl

@[simp] theorem State.fetchFault_released (s : State) : (s.fetchFault).released = s.released := rfl

@[simp] theorem State.fetchFault_now (s : State) : (s.fetchFault).now = s.now := rfl

@[simp] theorem State.fetchFault_rand (s : State) : (s.fetchFault).rand = s.rand := rfl

@[simp] theorem State.fetchFault_quitIn (s : State) : (s.fetchFault).quitIn = s.quitIn := rfl

@[simp] theorem State.fetchFault_glyphPolicy (s : State) : (s.fetchFault).glyphPolicy = s.glyphPolicy := rfl

@[simp] theorem State.fetchFault_rates (s : State) : (s.fetchFault).rates = s.rates := rfl

@[simp] theorem State.fetchFault_earlyDraw (s : State) : (s.fetchFault).earlyDraw = s.earlyDraw := rfl

@[simp] theorem State.fetchFault_lateDraw (s : State) : (s.fetchFault).lateDraw = s.lateDraw := rfl

@[simp] theorem State.fetchFault_draws (s : State) : (s.fetchFault).draws = s.draws := rfl

@[simp] theorem State.fetchFault_out (s : State) : (s.fetchFault).out = s.out := rfl

@[simp] theorem State.reg_setIndex (s : State) (w : Word) (z : Reg) : (s.setIndex w).reg z = s.reg z := rfl

@[simp] theorem State.reg_setPc (s : State) (w : Word) (z : Reg) : (s.setPc w).reg z = s.reg z := rfl

@[simp] theorem State.reg_skipIf (s : State) (b : Bool) (z : Reg) : (s.skipIf b).reg z = s.reg z := rfl

@[simp] theorem State.reg_defer (s : State) (z : Reg) : (s.defer).reg z = s.reg z := rfl

@[simp] theorem State.reg_storeBytes (s : State) (base : Nat) (bs : List Byte) (z : Reg) : (s.storeBytes base bs).reg z = s.reg z := rfl

@[simp] theorem State.reg_raiseFault (s : State) (c : FaultCause) (info : Word) (z : Reg) : (s.raiseFault c info).reg z = s.reg z := rfl

@[simp] theorem State.reg_emit (s : State) (o : Output) (z : Reg) : (s.emit o).reg z = s.reg z := rfl

@[simp] theorem State.reg_displayClear (s : State) (z : Reg) : (s.displayClear).reg z = s.reg z := rfl

@[simp] theorem State.reg_togglePixel (s : State) (p : Column × Row) (z : Reg) : (s.togglePixel p).reg z = s.reg z := rfl

@[simp] theorem State.reg_present (s : State) (z : Reg) : (s.present).reg z = s.reg z := rfl

@[simp] theorem State.reg_pump (s : State) (z : Reg) : (s.pump).reg z = s.reg z := rfl

@[simp] theorem State.reg_redrawRand (s : State) (z : Reg) : (s.redrawRand).reg z = s.reg z := rfl

@[simp] theorem State.reg_clearReleased (s : State) (z : Reg) : (s.clearReleased).reg z = s.reg z := rfl

@[simp] theorem State.reg_pollTimer (s : State) (t : Nat) (z : Reg) : (s.pollTimer t).reg z = s.reg z := rfl

@[simp] theorem State.reg_pollTimers (s : State) (z : Reg) : (s.pollTimers).reg z = s.reg z := rfl

@[simp] theorem State.reg_quiet (s : State) (z : Reg) : (s.quiet).reg z = s.reg z := rfl

@[simp] theorem State.reg_environmentTurn (s : State) (z : Reg) : (s.environmentTurn).reg z = s.reg z := rfl

@[simp] theorem State.reg_recordInsn (s : State) (z : Reg) : (s.recordInsn).reg z = s.reg z := rfl

@[simp] theorem State.reg_fetched (s : State) (z : Reg) : (s.fetched).reg z = s.reg z := rfl

@[simp] theorem State.reg_fetchFault (s : State) (z : Reg) : (s.fetchFault).reg z = s.reg z := rfl

@[simp] theorem State.quit_setReg (s : State) (x : Reg) (b : Byte) : (s.setReg x b).quit = s.quit := rfl

@[simp] theorem State.quit_setFlag (s : State) (b : Bool) : (s.setFlag b).quit = s.quit := rfl

@[simp] theorem State.quit_setIndex (s : State) (w : Word) : (s.setIndex w).quit = s.quit := rfl

@[simp] theorem State.quit_setPc (s : State) (w : Word) : (s.setPc w).quit = s.quit := rfl

@[simp] theorem State.quit_skipIf (s : State) (b : Bool) : (s.skipIf b).quit = s.quit := rfl

@[simp] theorem State.quit_defer (s : State) : (s.defer).quit = s.quit := rfl

@[simp] theorem State.quit_storeBytes (s : State) (base : Nat) (bs : List Byte) : (s.storeBytes base bs).quit = s.quit := rfl

@[simp] theorem State.quit_raiseFault (s : State) (c : FaultCause) (info : Word) : (s.raiseFault c info).quit = s.quit := rfl

@[simp] theorem State.quit_emit (s : State) (o : Output) : (s.emit o).quit = s.quit := rfl

@[simp] theorem State.quit_displayClear (s : State) : (s.displayClear).quit = s.quit := rfl

@[simp] theorem State.quit_togglePixel (s : State) (p : Column × Row) : (s.togglePixel p).quit = s.quit := rfl

@[simp] theorem State.quit_present (s : State) : (s.present).quit = s.quit := rfl

@[simp] theorem State.quit_pump (s : State) : (s.pump).quit = s.quit := rfl

@[simp] theorem State.quit_redrawRand (s : State) : (s.redrawRand).quit = s.quit := rfl

@[simp] theorem State.quit_clearReleased (s : State) : (s.clearReleased).quit = s.quit := rfl

@[simp] theorem State.quit_pollTimer (s : State) (t : Nat) : (s.pollTimer t).quit = s.quit := rfl

@[simp] theorem State.quit_pollTimers (s : State) : (s.pollTimers).quit = s.quit := rfl

@[simp] theorem State.quit_quiet (s : State) : (s.quiet).quit = s.quit := rfl

@[simp] theorem State.quit_recordInsn (s : State) : (s.recordInsn).quit = s.quit := rfl

@[simp] theorem State.quit_fetched (s : State) : (s.fetched).quit = s.quit := rfl

@[simp] theorem State.quit_fetchFault (s : State) : (s.fetchFault).quit = s.quit := rfl

end Sys2Proof.Machine
end

