-- ==== Sys2Proof/Laws/Ops.lean ====
section
/-! SUPPORT. What each shared operation does, said once: registers and flags, fault entry, the call stack, the
display grid, and the values of the operand forms. -/

namespace Sys2Proof.Machine

/-! ### Registers -/

theorem State.reg_eq (s : State) (x : Reg) : s.reg x = s.v[x.val] := rfl

/-- A register write changes that register alone (R20, R21). -/
@[simp] theorem State.reg_setReg (s : State) (x z : Reg) (b : Byte) :
    (s.setReg x b).reg z = if z = x then b else s.reg z := by
  simp only [State.reg_eq, State.setReg_v, Vector.getElem_set, eq_comm (a := x.val), Fin.val_inj]

/-- A flag write changes `V[15]` alone (R22). -/
@[simp] theorem State.reg_setFlag (s : State) (z : Reg) (b : Bool) :
    (s.setFlag b).reg z = if z = 15 then flagByte b else s.reg z := State.reg_setReg s 15 z _

theorem State.setReg_eq (s : State) (x : Reg) (b : Byte) : s.setReg x b = { s with v := (s.setReg x b).v } := rfl

theorem State.setFlag_eq (s : State) (b : Bool) : s.setFlag b = { s with v := (s.setFlag b).v } := rfl

@[simp] theorem flagByte_true : flagByte true = 0x01#8 := rfl

@[simp] theorem flagByte_false : flagByte false = 0x00#8 := rfl

theorem flagByte_zero_or_one (b : Bool) : flagByte b = 0x00#8 ∨ flagByte b = 0x01#8 := by
  cases b
  · exact .inl rfl
  · exact .inr rfl

/-- One register written, and nothing else. -/
theorem writesReg_setReg (s : State) (x : Reg) (b : Byte) : WritesReg s (s.setReg x b) x b :=
  ⟨by simp, fun z hz => by simp [hz], rfl, fun _ => rfl⟩

/-- A result written and then a flag (R97). -/
theorem writesRegAndFlag_setReg_setFlag (s : State) (x : Reg) (b : Byte) (f : Bool) {r : Nat} {p : Prop}
    (hr : b.toNat = r) (hp : f = true ↔ p) : WritesRegAndFlag s ((s.setReg x b).setFlag f) x r p := by
  refine ⟨fun hx => ?_, fun h => ?_, fun h => ?_, fun z hz h15 => ?_, rfl, fun _ => rfl⟩
  · simp [hx, hr]
  · simp [hp.2 h]
  · have : f = false := by simpa using fun hf => h (hp.1 hf)
    simp [this]
  · simp [hz, h15]

/-- Loading successive registers: register `z` gets byte `z - k` of the list where there is one (R165). -/
theorem State.reg_setRegs (s : State) (k : Nat) (bs : List Byte) (z : Reg) :
    (s.setRegs k bs).reg z = if h : k ≤ z.val ∧ z.val - k < bs.length then bs[z.val - k]'h.2 else s.reg z := by
  induction bs generalizing s k with
  | nil => simp [State.setRegs]
  | cons b bs ih =>
    rw [State.setRegs, ih]
    by_cases h0 : z.val = k
    · rw [dif_neg (by omega), dif_pos ⟨by omega, by simp [h0]⟩]
      simp [State.reg_eq, h0]
    · by_cases h1 : k + 1 ≤ z.val ∧ z.val - (k + 1) < bs.length
      · rw [dif_pos h1, dif_pos ⟨by omega, by simp only [List.length_cons]; omega⟩]
        have : z.val - k = (z.val - (k + 1)) + 1 := by omega
        simp [this]
      · rw [dif_neg h1, dif_neg (by simp only [List.length_cons]; omega)]
        have : k ≠ z.val := fun h => h0 h.symm
        simp [State.reg_eq, this]

/-- Loading registers changes the registers alone. -/
theorem State.setRegs_eq (s : State) (k : Nat) (bs : List Byte) :
    s.setRegs k bs = { s with v := (s.setRegs k bs).v } := by
  induction bs generalizing s k with
  | nil => rfl
  | cons b bs ih => rw [State.setRegs, ih]

/-- What loading registers leaves in them depends on the registers alone. -/
theorem State.setRegs_v_congr {s t : State} (h : t.v = s.v) (k : Nat) (bs : List Byte) :
    (t.setRegs k bs).v = (s.setRegs k bs).v := by
  induction bs generalizing s t k with
  | nil => exact h
  | cons b bs ih => exact ih (by simp only [h]) (k + 1)

theorem State.regsUpTo_length (s : State) (x : Reg) : (s.regsUpTo x).length = x.val + 1 := by
  have := x.isLt
  simp only [State.regsUpTo, List.length_take, Vector.length_toList]; omega

theorem State.getElem_regsUpTo (s : State) (x : Reg) {k : Nat} (h : k < (s.regsUpTo x).length) :
    (s.regsUpTo x)[k] = s.reg ⟨k, by rw [s.regsUpTo_length x] at h; omega⟩ := by
  simp only [State.regsUpTo, List.getElem_take, State.reg_eq]
  rfl

/-! ### Operand values -/

@[simp] theorem zextByte_toNat (b : Byte) : (zextByte b).toNat = b.toNat := by
  have := b.isLt
  simp only [zextByte, BitVec.truncate_eq_setWidth, BitVec.toNat_setWidth]; omega

@[simp] theorem zextAddr_toNat (nnn : Addr12) : (zextAddr nnn).toNat = nnn.toNat := by
  have := nnn.isLt
  simp only [zextAddr, BitVec.truncate_eq_setWidth, BitVec.toNat_setWidth]; omega

theorem zextAddr_eq (nnn : Addr12) : zextAddr nnn = BitVec.ofNat 16 nnn.toNat := by
  apply BitVec.eq_of_toNat_eq
  have := nnn.isLt
  rw [zextAddr_toNat, BitVec.toNat_ofNat]; omega

@[simp] theorem zextKey_toNat (k : Key) : (zextKey k).toNat = k.val := by
  have := k.isLt
  simp only [zextKey, BitVec.toNat_ofNat]; omega

@[simp] theorem indexAfter_toNat (i : Word) (x : Reg) : (indexAfter i x).toNat = (i.toNat + x.val + 1) % 65536 := by
  simp only [indexAfter, BitVec.toNat_ofNat]

/-- The mask of a direct assignment changes nothing at font-address: the address is `V[x] * 5` (R162). -/
@[simp] theorem glyphAddress_toNat (b : Byte) : (glyphAddress b).toNat = b.toNat * 5 := by
  have hb := b.isLt
  have h0 : (0x0FFF#16 : Word).toNat = 2 ^ 12 - 1 := rfl
  rw [glyphAddress, BitVec.toNat_and, h0, Nat.and_two_pow_sub_one_eq_mod, BitVec.toNat_mul, zextByte_toNat]
  simp only [BitVec.toNat_ofNat]; omega

@[simp] theorem bcdDigits_length (b : Byte) : (bcdDigits b).length = 3 := rfl

/-! ### Fault entry and the call stack -/

/-- Fault entry leaves the fault state of R213. -/
theorem State.raiseFault_eq (s : State) (c : FaultCause) (info : Word) :
    s.raiseFault c info = faultState s c info := rfl

/-- A push is allowed exactly when `SP < 16` (R29). -/
theorem State.push?_eq (s : State) (w : Word) : s.push? w =
    if h : s.sp.val < 16 then
      some { s with stack := s.stack.set s.sp.val w h, sp := ⟨s.sp.val + 1, Nat.succ_lt_succ h⟩ }
    else none := rfl

/-- A pop is allowed exactly when `SP > 0` (R29). -/
theorem State.pop?_some (s : State) (h : 0 < s.sp.val) (hs : s.sp.val - 1 < 16) :
    s.pop? = some (s.stack.get ⟨s.sp.val - 1, hs⟩, { s with sp := ⟨s.sp.val - 1, by omega⟩ }) := by
  simp [State.pop?, h]

theorem State.pop?_none (s : State) (h : ¬0 < s.sp.val) : s.pop? = none := by
  simp only [State.pop?, dif_neg h]

/-! ### The display -/

@[simp] theorem blankGrid_pixel (c : Column) (r : Row) : blankGrid.pixel c r = false := by
  simp [blankGrid, Grid.pixel, Vector.get_replicate]

/-- Toggling a pixel inverts it alone (R228). -/
theorem Grid.pixel_toggle (g : Grid) (c d : Column) (r q : Row) :
    (g.toggle c r).pixel d q = if d = c ∧ q = r then !g.pixel d q else g.pixel d q := by
  simp only [Grid.pixel, Grid.toggle, Vector.get_eq_getElem, Vector.getElem_set]
  by_cases hr : q = r
  · subst hr
    by_cases hc : d = c
    · subst hc; simp
    · have : ¬c.val = d.val := fun h => hc (Fin.ext h.symm)
      simp [hc, this]
  · have : ¬r.val = q.val := fun h => hr (Fin.ext h.symm)
    simp [hr, this]

/-- Toggling pixels changes the display and the output pulses alone. -/
theorem State.togglePixels_eq (s : State) (b : Bool) (ps : List (Column × Row)) :
    (s.togglePixels b ps).1 = { s with
      disp := (s.togglePixels b ps).1.disp
      out := s.out ++ ps.map (fun p : Column × Row => Output.toggle p.1 p.2) } := by
  induction ps generalizing s b with
  | nil => simp [State.togglePixels]
  | cons p ps ih =>
    rw [State.togglePixels, ih]
    simp [State.togglePixel, State.emit]

/-- What toggling pixels leaves on the display, and the collision bit, depend on the display alone. -/
theorem State.togglePixels_congr {s t : State} (h : t.disp = s.disp) (b : Bool) (ps : List (Column × Row)) :
    (t.togglePixels b ps).1.disp = (s.togglePixels b ps).1.disp ∧
      (t.togglePixels b ps).2 = (s.togglePixels b ps).2 := by
  induction ps generalizing s t b with
  | nil => exact ⟨h, rfl⟩
  | cons p ps ih =>
    rw [State.togglePixels, State.togglePixels, h]
    exact ih (by simp only [State.togglePixel_disp, h]) _

/-- Toggling distinct pixels inverts each of them and no other. -/
theorem State.togglePixels_pixel (s : State) (b : Bool) (ps : List (Column × Row)) (h : ps.Nodup) (c : Column)
    (r : Row) : (s.togglePixels b ps).1.disp.pixel c r =
      if (c, r) ∈ ps then !s.disp.pixel c r else s.disp.pixel c r := by
  induction ps generalizing s b with
  | nil => simp [State.togglePixels]
  | cons p ps ih =>
    obtain ⟨h1, h2⟩ := List.nodup_cons.1 h
    rw [State.togglePixels, ih _ _ h2, State.togglePixel_disp, Grid.pixel_toggle]
    by_cases hp : (c, r) = p
    · subst hp; simp [h1]
    · have hp' : ¬(c = p.1 ∧ r = p.2) := fun h => hp (Prod.ext h.1 h.2)
      simp [hp, hp']

/-- The collision bit of distinct pixels: one of them was set before (R181). -/
theorem State.togglePixels_collided (s : State) (b : Bool) (ps : List (Column × Row)) (h : ps.Nodup) :
    (s.togglePixels b ps).2 = true ↔ b = true ∨ ∃ c r, (c, r) ∈ ps ∧ s.disp.pixel c r = true := by
  induction ps generalizing s b with
  | nil => simp [State.togglePixels]
  | cons p ps ih =>
    obtain ⟨h1, h2⟩ := List.nodup_cons.1 h
    rw [State.togglePixels, ih _ _ h2, Bool.or_eq_true, or_assoc]
    apply or_congr_right
    constructor
    · rintro (hp | ⟨c, r, hm, hd⟩)
      · exact ⟨p.1, p.2, List.mem_cons_self, hp⟩
      · refine ⟨c, r, List.mem_cons_of_mem _ hm, ?_⟩
        rw [State.togglePixel_disp, Grid.pixel_toggle, if_neg] at hd
        · exact hd
        · rintro ⟨rfl, rfl⟩; exact h1 hm
    · rintro ⟨c, r, hm, hd⟩
      rcases List.mem_cons.1 hm with rfl | hm
      · exact .inl hd
      · refine .inr ⟨c, r, hm, ?_⟩
        rw [State.togglePixel_disp, Grid.pixel_toggle, if_neg]
        · exact hd
        · rintro ⟨rfl, rfl⟩; exact h1 hm

/-- The pixels of one sprite row (R183). -/
theorem mem_rowPixels (x0 row : Nat) (b : Byte) (k : Nat) (c : Column) (r : Row) :
    (c, r) ∈ rowPixels x0 row b k ↔ c.val = x0 + k ∧ r.val = row ∧ b.getLsbD (7 - k) = true := by
  have hc := c.isLt
  have hr := r.isLt
  unfold rowPixels
  split
  · split
    · simp only [List.mem_singleton, Prod.mk.injEq, Fin.ext_iff, *, and_true]
    · simp [*]
  · constructor
    · intro h; exact absurd h List.not_mem_nil
    · rintro ⟨h1, h2, -⟩; omega

/-- The pixels of a whole sprite row. -/
theorem mem_rowFlatMap (x0 row : Nat) (b : Byte) (c : Column) (r : Row) :
    (c, r) ∈ [0, 1, 2, 3, 4, 5, 6, 7].flatMap (rowPixels x0 row b) ↔
      x0 ≤ c.val ∧ c.val ≤ x0 + 7 ∧ r.val = row ∧ b.getLsbD (7 - (c.val - x0)) = true := by
  have h8 : ([0, 1, 2, 3, 4, 5, 6, 7] : List Nat) = List.range 8 := rfl
  rw [h8, List.mem_flatMap]
  constructor
  · rintro ⟨k, hk, h⟩
    obtain ⟨h1, h2, h3⟩ := (mem_rowPixels x0 row b k c r).1 h
    have hk := List.mem_range.1 hk
    have : c.val - x0 = k := by omega
    exact ⟨by omega, by omega, h2, this ▸ h3⟩
  · rintro ⟨h1, h2, h3, h4⟩
    exact ⟨c.val - x0, List.mem_range.2 (by omega), (mem_rowPixels x0 row b _ c r).2 ⟨by omega, h3, h4⟩⟩

/-- The pixels a sprite toggles: the on-grid pixels under its set bits (R181, R183). -/
theorem mem_spritePixels (x0 y0 : Nat) (bs : List Byte) (c : Column) (r : Row) :
    (c, r) ∈ spritePixels x0 y0 bs ↔ x0 ≤ c.val ∧ c.val ≤ x0 + 7 ∧ y0 ≤ r.val ∧
      ∃ h : r.val - y0 < bs.length, (bs[r.val - y0]).getLsbD (7 - (c.val - x0)) = true := by
  induction bs generalizing y0 with
  | nil => simp [spritePixels]
  | cons b bs ih =>
    rw [spritePixels, List.mem_append, ih, mem_rowFlatMap]
    by_cases h : r.val = y0
    · have h1 : r.val - y0 = 0 := by omega
      constructor
      · rintro (⟨h3, h4, -, h5⟩ | ⟨-, -, h3, -⟩)
        · exact ⟨h3, h4, by omega, by simp [h1], by simpa [h1] using h5⟩
        · omega
      · rintro ⟨h3, h4, -, h5, h6⟩
        exact .inl ⟨h3, h4, h, by simpa [h1] using h6⟩
    · constructor
      · rintro (⟨-, -, h3, -⟩ | ⟨h1, h2, h3, h4, h5⟩)
        · exact absurd h3 h
        · have h6 : r.val - y0 = (r.val - (y0 + 1)) + 1 := by omega
          exact ⟨h1, h2, by omega, by simp only [List.length_cons]; omega, by simpa [h6] using h5⟩
      · rintro ⟨h1, h2, h3, h4, h5⟩
        have h6 : r.val - y0 = (r.val - (y0 + 1)) + 1 := by omega
        simp only [List.length_cons] at h4
        exact .inr ⟨h1, h2, by omega, by omega, by simpa [h6] using h5⟩

theorem nodup_rowPixels (x0 row : Nat) (b : Byte) (k : Nat) : (rowPixels x0 row b k).Nodup := by
  unfold rowPixels
  split
  · split <;> simp
  · simp

/-- No pixel is toggled twice. -/
theorem nodup_spritePixels (x0 y0 : Nat) (bs : List Byte) : (spritePixels x0 y0 bs).Nodup := by
  induction bs generalizing y0 with
  | nil => simp [spritePixels]
  | cons b bs ih =>
    rw [spritePixels, List.nodup_append]
    refine ⟨?_, ih _, ?_⟩
    · rw [List.nodup_flatMap]
      refine ⟨fun k _ => nodup_rowPixels x0 y0 b k, ?_⟩
      have hne : ([0, 1, 2, 3, 4, 5, 6, 7] : List Nat).Pairwise (· ≠ ·) := by decide
      refine hne.imp ?_
      rintro j k hjk ⟨c, r⟩ h1 h2
      rw [mem_rowPixels] at h1 h2
      omega
    · rintro ⟨c, r⟩ h1 p h2 rfl
      rw [List.mem_flatMap] at h1
      obtain ⟨k, -, h1⟩ := h1
      rw [mem_rowPixels] at h1
      rw [mem_spritePixels] at h2
      omega

end Sys2Proof.Machine
end

