-- ==== Sys2Proof/Laws/Exec.lean ====
section
/-! SUPPORT. The meanings that check before they write, each as one equation over the conditions of its checks
(R101, R110, R112, R163 to R165, R181), and the body of draw. -/

namespace Sys2Proof.Machine

theorem execCall_eq (nnn : Addr12) (s : State) : execCall nnn s = .next
    (if h : s.sp.val < 16 then
      { s with
        stack := s.stack.set s.sp.val s.pc h
        sp := ⟨s.sp.val + 1, Nat.succ_lt_succ h⟩
        pc := zextAddr nnn }
    else s.raiseFault .stackOverflow s.ir) := by
  unfold execCall
  rw [State.push?_eq]
  by_cases h : s.sp.val < 16
  · rw [dif_pos h, dif_pos h]; rfl
  · rw [dif_neg h, dif_neg h]

theorem execRet_pops (s : State) (h : 0 < s.sp.val) (hs : s.sp.val - 1 < 16) : execRet s = .next
    { s with sp := ⟨s.sp.val - 1, by omega⟩, pc := s.stack.get ⟨s.sp.val - 1, hs⟩ } := by
  unfold execRet
  rw [s.pop?_some h hs]; rfl

theorem execRet_empty (s : State) (h : ¬0 < s.sp.val) :
    execRet s = .next (s.raiseFault .stackUnderflow s.ir) := by
  unfold execRet
  rw [s.pop?_none h]

theorem execStoreBcd_eq (x : Reg) (s : State) : execStoreBcd x s = .next
    (if 0xFFF < indexAddress s.i 2 then s.raiseFault .writeOutOfRange s.i
    else if indexAddress s.i 0 ≤ 0x04F ∧ s.glyphPolicy = .fault then s.raiseFault .glyphWrite s.i
    else s.storeBytes (indexAddress s.i 0) (bcdDigits (s.reg x))) := by
  unfold execStoreBcd
  rw [firstFault_write _ _ _ (by omega)]
  simp only [indexAddress, Nat.add_zero, Nat.zero_lt_succ, true_and, Nat.reduceSub]
  by_cases h : 0xFFF < s.i.toNat + 2
  · simp [h]
  · by_cases hg : s.i.toNat ≤ 0x04F ∧ s.glyphPolicy = .fault <;> simp [h, hg]

theorem execStoreRegs_eq (x : Reg) (s : State) : execStoreRegs x s = .next
    (if 0xFFF < indexAddress s.i x.val then s.raiseFault .writeOutOfRange s.i
    else if indexAddress s.i 0 ≤ 0x04F ∧ s.glyphPolicy = .fault then s.raiseFault .glyphWrite s.i
    else (s.storeBytes (indexAddress s.i 0) (s.regsUpTo x)).setIndex (indexAfter s.i x)) := by
  have := x.isLt
  unfold execStoreRegs
  rw [firstFault_write _ _ _ (by omega)]
  simp only [indexAddress, Nat.add_zero, Nat.zero_lt_succ, true_and, Nat.add_sub_cancel]
  by_cases h : 0xFFF < s.i.toNat + x.val
  · simp [h]
  · by_cases hg : s.i.toNat ≤ 0x04F ∧ s.glyphPolicy = .fault <;> simp [h, hg]

theorem execLoadRegs_eq (x : Reg) (s : State) : execLoadRegs x s = .next
    (if 0xFFF < indexAddress s.i x.val then s.raiseFault .readOutOfRange s.i
    else (s.setRegs 0 (s.mem.readBytes (indexAddress s.i 0) (x.val + 1))).setIndex (indexAfter s.i x)) := by
  unfold execLoadRegs
  rw [firstFault_read]
  simp only [indexAddress, Nat.add_zero, Nat.zero_lt_succ, true_and, Nat.add_sub_cancel]
  by_cases h : 0xFFF < s.i.toNat + x.val <;> simp [h]

theorem execDraw_eq (x y : Reg) (n : Nibble) (s : State) : execDraw x y n s = .next
    (if s.frameOpen = true then
      if 0 < n.toNat ∧ 0xFFF < indexAddress s.i (n.toNat - 1) then s.raiseFault .readOutOfRange s.i
      else drawSprite x y n s
    else s.defer) := by
  unfold execDraw
  rw [firstFault_read]
  simp only [indexAddress, Nat.add_zero]
  by_cases hf : s.frameOpen = true
  · by_cases h : 0 < n.toNat ∧ 0xFFF < s.i.toNat + (n.toNat - 1) <;> simp [hf, h]
  · simp [hf]

theorem execWaitKey_none {s : State} (x : Reg) (h : s.released = none) : execWaitKey x s = .next s.defer := by
  unfold execWaitKey
  rw [h]

theorem execWaitKey_some {s : State} {k : Key} (x : Reg) (h : s.released = some k) :
    execWaitKey x s = .next (s.clearReleased.setReg x (zextKey k)) := by
  unfold execWaitKey
  rw [h]

/-- The body of draw changes the registers' flag, the display and its frame, and the output pulses alone. -/
theorem drawSprite_eq (x y : Reg) (n : Nibble) (s : State) : drawSprite x y n s = { s with
    v := (drawSprite x y n s).v
    disp := (drawSprite x y n s).disp
    visible := (drawSprite x y n s).disp
    frameOpen := false
    lastPresent := some s.now
    out := s.out ++ (spritePixels ((s.reg x).toNat % 64) ((s.reg y).toNat % 32)
      (s.mem.readBytes (indexAddress s.i 0) n.toNat)).map (fun p : Column × Row => Output.toggle p.1 p.2)
      ++ [.present] } := by
  simp only [drawSprite]
  rw [State.togglePixels_eq]
  rfl

/-- The body of draw leaves every register but the flag as it was. -/
theorem drawSprite_reg (x y : Reg) (n : Nibble) (s : State) (z : Reg) (hz : z ≠ 15) :
    (drawSprite x y n s).reg z = s.reg z := by
  simp only [drawSprite]
  rw [State.reg_present, State.reg_setFlag, if_neg hz, State.togglePixels_eq]
  rfl

/-- The body of draw writes the collision bit to the flag register (R181). -/
theorem drawSprite_flag (x y : Reg) (n : Nibble) (s : State) : (drawSprite x y n s).reg 15 =
    flagByte (s.togglePixels false (spritePixels ((s.reg x).toNat % 64) ((s.reg y).toNat % 32)
      (s.mem.readBytes (indexAddress s.i 0) n.toNat))).2 := by
  simp only [drawSprite]
  rw [State.reg_present, State.reg_setFlag, if_pos rfl]

/-- The body of draw depends on the registers, `I`, memory and the display alone. -/
theorem drawSprite_congr {s t : State} (x y : Reg) (n : Nibble) (hv : t.v = s.v) (hi : t.i = s.i)
    (hm : t.mem = s.mem) (hd : t.disp = s.disp) :
    (drawSprite x y n t).v = (drawSprite x y n s).v ∧ (drawSprite x y n t).disp = (drawSprite x y n s).disp := by
  have hr : ∀ z, t.reg z = s.reg z := fun z => by rw [State.reg_eq, State.reg_eq, hv]
  simp only [drawSprite, hr, hi, hm]
  generalize spritePixels _ _ _ = ps
  obtain ⟨h1, h2⟩ := State.togglePixels_congr hd false ps
  have h3 : ∀ u : State, (u.togglePixels false ps).1.v = u.v := fun u => by rw [State.togglePixels_eq]
  constructor
  · simp only [State.present_v, State.setFlag, State.setReg_v, h2, h3, hv]
  · simp only [State.present_disp, State.setFlag_disp, h1]

end Sys2Proof.Machine
end

