-- ==== Sys2Proof/Laws/Scheduler.lean ====
section
/-! SUPPORT. The scheduler's timer half: `pollTimer` is the timer test of R218 as it is written there. -/

namespace Sys2Proof

/-! ### The periods -/

theorem Rates.timerHz_dvd (r : Rates) : (r.timerHz : Nat) ∣ r.unitsPerSecond :=
  Dvd.dvd.mul_left (Nat.dvd_lcm_left _ _) 2

theorem Rates.insnHz_dvd (r : Rates) : (r.insnHz : Nat) ∣ r.unitsPerSecond :=
  Dvd.dvd.mul_left (Nat.dvd_lcm_right _ _) 2

theorem Rates.unitsPerSecond_pos (r : Rates) : 0 < r.unitsPerSecond :=
  Nat.mul_pos (by decide) (Nat.lcm_pos r.timerHz.pos r.insnHz.pos)

theorem Rates.insnPeriod_pos (r : Rates) : 0 < r.insnPeriod :=
  Nat.div_pos (Nat.le_of_dvd r.unitsPerSecond_pos r.insnHz_dvd) r.insnHz.pos

theorem Rates.timerPeriod_pos (r : Rates) : 0 < r.timerPeriod :=
  Nat.div_pos (Nat.le_of_dvd r.unitsPerSecond_pos r.timerHz_dvd) r.timerHz.pos

/-- Both periods are whole numbers of units (R12). -/
theorem Rates.periods_exact (r : Rates) : r.timerPeriod * r.timerHz = r.unitsPerSecond ∧
    r.insnPeriod * r.insnHz = r.unitsPerSecond :=
  ⟨Nat.div_mul_cancel r.timerHz_dvd, Nat.div_mul_cancel r.insnHz_dvd⟩

theorem defaultRates_unitsPerSecond : Config.defaultRates.unitsPerSecond = 4200 := by decide

theorem defaultRates_timerPeriod : Config.defaultRates.timerPeriod = 70 := by decide

theorem defaultRates_insnPeriod : Config.defaultRates.insnPeriod = 6 := by decide

end Sys2Proof

namespace Sys2Proof.Machine

@[simp] theorem tick_toNat (t : Byte) : (tick t).toNat = t.toNat - 1 := by
  unfold tick
  have := t.isLt
  split
  · subst_vars; rfl
  · have h : t.toNat ≠ 0 := fun h => ‹¬t = 0#8› (BitVec.eq_of_toNat_eq (by simpa using h))
    rw [BitVec.toNat_sub]
    simp only [BitVec.toNat_ofNat]; omega

@[simp] theorem State.timerAction_dt (s : State) : s.timerAction.dt = tick s.dt := rfl

@[simp] theorem State.timerAction_st (s : State) : s.timerAction.st = tick s.st := rfl

theorem State.timerAction_out (s : State) :
    s.timerAction.out = if s.st = 0#8 then s.out else s.out ++ [.tone] := rfl

/-- The timer action changes the timers and the output pulses alone (R219). -/
theorem State.timerAction_eq (s : State) : s.timerAction =
    { s with dt := tick s.dt, st := tick s.st, out := s.timerAction.out } := rfl

/-- The timer half of an iteration as R218 writes it: the action when it is due, nothing but the sample when it
is not. -/
theorem State.pollTimer_eq (s : State) (now : Nat) : s.pollTimer now =
    if s.rates.timerPeriod ≤ now - s.tTimer
    then { ({ s with now := now } : State).timerAction with tTimer := now } else { s with now := now } := by
  by_cases h : s.rates.timerPeriod ≤ now - s.tTimer
  · rw [if_pos h]
    simp only [State.pollTimer, State.timerDue, h, decide_true, if_true]
    rfl
  · rw [if_neg h]
    simp [State.pollTimer, State.timerDue, h]

/-- The timer half of a step touches only the timers, the clock and the output pulses. -/
theorem State.pollTimers_eq (s : State) : s.pollTimers =
    { s with
      now := s.lateSample
      dt := s.pollTimers.dt
      st := s.pollTimers.st
      out := s.pollTimers.out
      tTimer := s.pollTimers.tTimer } := rfl

/-- A timer poll never raises a timer (R220). -/
theorem State.pollTimer_dt_le (s : State) (now : Nat) : (s.pollTimer now).dt.toNat ≤ s.dt.toNat := by
  simp only [State.pollTimer_dt, State.timerAction_dt]
  split
  · rw [tick_toNat]; omega
  · exact Nat.le_refl _

/-! ### The clock samples of a step -/

/-- The samples lie between the start and the last, and never decrease (R223). -/
theorem samplesUpTo_spec (last : Nat) (gaps : List Nat) (start : Nat) (h : start ≤ last) :
    (∀ now, now ∈ samplesUpTo last start gaps → start ≤ now ∧ now ≤ last) ∧
      (samplesUpTo last start gaps).Pairwise (· ≤ ·) := by
  induction gaps generalizing start with
  | nil => exact ⟨nofun, List.Pairwise.nil⟩
  | cons gap gaps ih =>
    obtain ⟨h1, h2⟩ := ih (min (start + gap) last) (Nat.min_le_right _ _)
    refine ⟨fun now hn => ?_, List.pairwise_cons.2 ⟨fun now hn => (h1 now hn).1, h2⟩⟩
    rcases List.mem_cons.1 hn with rfl | hn
    · omega
    · have := h1 now hn; omega

/-- Every early sample lies within the instruction period. -/
theorem State.mem_earlySamples {s : State} {now : Nat} (h : now ∈ s.earlySamples) :
    s.tInsn ≤ now ∧ now < s.tInsn + s.rates.insnPeriod := by
  have hp := s.rates.insnPeriod_pos
  have := (samplesUpTo_spec _ s.earlyDraw s.tInsn (by omega)).1 now h
  omega

/-! ### The timer tests of a step -/

@[simp] theorem State.pollAll_nil (s : State) : s.pollAll [] = s := rfl

theorem State.pollAll_cons (s : State) (now : Nat) (rest : List Nat) :
    s.pollAll (now :: rest) = (s.pollTimer now).pollAll rest := rfl

theorem State.pollAll_append (s : State) (l r : List Nat) : s.pollAll (l ++ r) = (s.pollAll l).pollAll r :=
  List.foldl_append

/-- Timer tests touch only the timers, the clock and the output pulses. -/
theorem State.pollAll_eq (s : State) (samples : List Nat) : s.pollAll samples =
    { s with
      now := (s.pollAll samples).now
      dt := (s.pollAll samples).dt
      st := (s.pollAll samples).st
      out := (s.pollAll samples).out
      tTimer := (s.pollAll samples).tTimer } := by
  induction samples generalizing s with
  | nil => rfl
  | cons now rest ih => rw [State.pollAll_cons, ih]; rfl

/-- The timer half of a step is the timer tests at its clock samples in order. -/
theorem State.pollTimers_eq_pollAll (s : State) :
    s.pollTimers = s.quiet.pollAll (s.earlySamples ++ [s.lateSample]) := by
  have h : (s.quiet.pollAll (s.earlySamples ++ [s.lateSample])).now = s.lateSample := by
    rw [State.pollAll_append]; rfl
  rw [State.pollAll_eq, h]
  rfl

/-- What each timer test keeps, the timer half of a step keeps: from `P` of the state with quiet ports. -/
theorem State.pollTimers_induction {P : State → Prop} {s : State} (h : P s.quiet)
    (step : ∀ u now, now ∈ s.earlySamples ++ [s.lateSample] → P u → P (u.pollTimer now)) : P s.pollTimers := by
  rw [State.pollTimers_eq_pollAll]
  have key : ∀ (l : List Nat) (u : State), (∀ u now, now ∈ l → P u → P (u.pollTimer now)) → P u →
      P (u.pollAll l) := by
    intro l
    induction l with
    | nil => exact fun _ _ h => h
    | cons now rest ih =>
      exact fun u hl hu => ih _ (fun v m hm => hl v m (List.mem_cons_of_mem _ hm))
        (hl u now List.mem_cons_self hu)
  exact key _ _ step h

/-- The timer half of a step never raises the delay timer (R220). -/
theorem State.pollTimers_dt_le (s : State) : s.pollTimers.dt.toNat ≤ s.dt.toNat :=
  State.pollTimers_induction (P := fun u => u.dt.toNat ≤ s.dt.toNat) (Nat.le_refl _)
    fun u now _ h => Nat.le_trans (u.pollTimer_dt_le now) h

end Sys2Proof.Machine
end

