-- ==== Sys2Proof/Laws/Cycle.lean ====
section
/-! SUPPORT. The instruction action, one scheduler iteration and the step, each said once through the parts it is
made of (R90 to R101, R218). -/

namespace Sys2Proof.Machine

@[simp] theorem mapNext_next (f : State → State) (t : State) : mapNext f (.next t) = .next (f t) := rfl

theorem mapNext_eq_next {f : State → State} {o : Host.Outcome State Fault Refusal} {t : State}
    (h : mapNext f o = .next t) : ∃ u, o = .next u ∧ t = f u := by
  cases o with
  | next u => exact ⟨u, rfl, by cases h; rfl⟩
  | fault r => cases h
  | refused r => cases h

/-- A fetch in range runs the decoded word, and pumps unless it faulted (R92, R93, R99). -/
theorem State.instructionAction_fetch {s : State} (hh : s.halted = false) (hp : s.pc.toNat ≤ 0xFFE) :
    s.instructionAction = mapNext State.afterExecute (exec s.nextInstr s.fetched) := by
  have hp' : ¬0xFFE < s.pc.toNat := Nat.not_lt.2 hp
  simp only [State.instructionAction, hh, Bool.false_eq_true, if_false, hp', State.nextInstr]
  cases exec (decodeWord (s.mem.word s.pc.toNat)) s.fetched <;> rfl

/-- A fetch out of range faults (R91). -/
theorem State.instructionAction_fetchFault {s : State} (hh : s.halted = false) (hp : 0xFFE < s.pc.toNat) :
    s.instructionAction = .next s.fetchFault := by
  simp only [State.instructionAction, hh, Bool.false_eq_true, if_false, hp, if_true]

/-- One iteration: the timer half, and then the instruction action when it is due (R218, R222). -/
theorem State.iteration_eq {s : State} (hh : s.halted = false) (now : Nat) : s.iteration now =
    if s.rates.insnPeriod ≤ now - s.tInsn then mapNext State.recordInsn (s.pollTimer now).instructionAction
    else .next (s.pollTimer now) := by
  rw [State.iteration, if_neg (ne_true_of_eq_false hh), State.pollTimer_eq]
  dsimp only
  generalize (if s.rates.timerPeriod ≤ now - s.tTimer then _ else _ : State) = u
  split
  · cases u.instructionAction <;> rfl
  · rfl

/-- A halted core takes no iteration (R214). -/
theorem State.iteration_halted {s : State} (hh : s.halted = true) (now : Nat) : s.iteration now = .next s := by
  simp only [State.iteration, hh, if_true]

@[simp] theorem State.iterations_nil (s : State) : s.iterations [] = .next s := rfl

theorem State.iterations_cons_next {s t : State} {now : Nat} (h : s.iteration now = .next t) (rest : List Nat) :
    s.iterations (now :: rest) = t.iterations rest := by
  simp only [State.iterations, h]

/-- An iteration too early for an instruction action is its timer half (R218, R222). -/
theorem State.iteration_early {s : State} (hh : s.halted = false) {now : Nat}
    (h : now < s.tInsn + s.rates.insnPeriod) : s.iteration now = .next (s.pollTimer now) := by
  have hp := s.rates.insnPeriod_pos
  rw [State.iteration_eq hh, if_neg (by omega)]

/-- Iterations too early for an instruction action are their timer halves. -/
theorem State.iterations_early {s : State} (hh : s.halted = false) (early rest : List Nat)
    (h : ∀ now, now ∈ early → now < s.tInsn + s.rates.insnPeriod) :
    s.iterations (early ++ rest) = (s.pollAll early).iterations rest := by
  induction early generalizing s with
  | nil => rfl
  | cons now early ih =>
    rw [List.cons_append, State.iterations_cons_next (State.iteration_early hh (h now List.mem_cons_self)),
      State.pollAll_cons]
    exact ih (s := s.pollTimer now) hh fun n hn => h n (List.mem_cons_of_mem _ hn)

/-- A running step is the timer half of R218 at each of its samples, the instruction action, and the end of the
step. -/
theorem step_running {s : State} (hq : s.quit = false) (hh : s.halted = false) :
    step s = mapNext State.closeStep s.pollTimers.instructionAction := by
  simp only [step, hq, hh, Bool.false_eq_true, if_false]
  cases s.pollTimers.instructionAction <;> rfl

/-- A step of a run that the host has quit gives no state (R225). -/
theorem step_quit {s : State} (hq : s.quit = true) : step s = .fault .runEnded := by
  simp only [step, hq, if_true]

/-- A halted step clears the output ports (R214, R226). -/
theorem step_halted {s : State} (hq : s.quit = false) (hh : s.halted = true) : step s = .next s.quiet := by
  simp only [step, hq, hh, Bool.false_eq_true, if_false, if_true]

/-- A step that fetches in range. -/
theorem step_fetch {s : State} (hr : s.running) : step s = mapNext (fun t => t.afterExecute.closeStep)
    (exec s.nextInstr s.pollTimers.fetched) := by
  rw [step_running hr.1 hr.2.1, State.instructionAction_fetch (s := s.pollTimers) hr.2.1 hr.2.2]
  show mapNext _ (mapNext _ (exec s.nextInstr s.pollTimers.fetched)) = _
  cases exec s.nextInstr s.pollTimers.fetched <;> rfl

theorem State.afterExecute_closeStep (t : State) : t.afterExecute.closeStep =
    if t.halted then t.recordInsn else t.pump.recordInsn.environmentTurn := by
  cases h : t.halted <;> simp [State.afterExecute, State.closeStep, h]

/-- A step that fetches out of range. -/
theorem step_fetchFault {s : State} (hq : s.quit = false) (hh : s.halted = false) (hp : 0xFFE < s.pc.toNat) :
    step s = .next s.pollTimers.fetchFault.recordInsn := by
  rw [step_running hq hh, State.instructionAction_fetchFault (s := s.pollTimers) hh hp]
  rfl

theorem State.quit_eq_false {s : State} : s.quit = false ↔ s.quitIn ≠ some 0 := by simp [State.quit]

theorem run_zero (s : State) : Host.Core.run core 0 s = .next s := rfl

/-- A run goes on from the state a step answers. -/
theorem run_succ_next {s t : State} (h : step s = .next t) (k : Nat) :
    Host.Core.run core (k + 1) s = Host.Core.run core k t := by
  have h' : core.step s = .next t := h
  simp only [Host.Core.run, h']

/-- Everything a step can do: nothing but quiet ports when halted, a fetch fault, or the decoded instruction and the
end of the step. -/
theorem step_cases {s t : State} (h : step s = .next t) :
    (s.quit = false ∧ s.halted = true ∧ t = s.quiet) ∨
    (s.quit = false ∧ s.halted = false ∧ 0xFFE < s.pc.toNat ∧ t = s.pollTimers.fetchFault.recordInsn) ∨
    (s.running ∧ ∃ u, exec s.nextInstr s.pollTimers.fetched = .next u ∧ t = u.afterExecute.closeStep) := by
  cases hq : s.quit with
  | true => simp [step, hq] at h
  | false =>
    cases hh : s.halted with
    | true => rw [step_halted hq hh] at h; cases h; exact .inl ⟨rfl, rfl, rfl⟩
    | false =>
      by_cases hp : 0xFFE < s.pc.toNat
      · rw [step_fetchFault hq hh hp] at h; cases h
        exact .inr (.inl ⟨rfl, rfl, hp, rfl⟩)
      · have hr : s.running := ⟨hq, hh, Nat.not_lt.1 hp⟩
        rw [step_fetch hr] at h
        exact .inr (.inr ⟨hr, mapNext_eq_next h⟩)

/-! What the end of a step leaves as the instruction left it. -/

theorem State.closeStep_v (t : State) : t.afterExecute.closeStep.v = t.v := by
  cases h : t.halted <;> simp [State.afterExecute_closeStep, h]

theorem State.closeStep_i (t : State) : t.afterExecute.closeStep.i = t.i := by
  cases h : t.halted <;> simp [State.afterExecute_closeStep, h]

theorem State.closeStep_pc (t : State) : t.afterExecute.closeStep.pc = t.pc := by
  cases h : t.halted <;> simp [State.afterExecute_closeStep, h]

theorem State.closeStep_sp (t : State) : t.afterExecute.closeStep.sp = t.sp := by
  cases h : t.halted <;> simp [State.afterExecute_closeStep, h]

theorem State.closeStep_stack (t : State) : t.afterExecute.closeStep.stack = t.stack := by
  cases h : t.halted <;> simp [State.afterExecute_closeStep, h]

theorem State.closeStep_dt (t : State) : t.afterExecute.closeStep.dt = t.dt := by
  cases h : t.halted <;> simp [State.afterExecute_closeStep, h]

theorem State.closeStep_st (t : State) : t.afterExecute.closeStep.st = t.st := by
  cases h : t.halted <;> simp [State.afterExecute_closeStep, h]

theorem State.closeStep_mem (t : State) : t.afterExecute.closeStep.mem = t.mem := by
  cases h : t.halted <;> simp [State.afterExecute_closeStep, h]

theorem State.closeStep_halted (t : State) : t.afterExecute.closeStep.halted = t.halted := by
  cases h : t.halted <;> simp [State.afterExecute_closeStep, h]

theorem State.closeStep_faultCause (t : State) : t.afterExecute.closeStep.faultCause = t.faultCause := by
  cases h : t.halted <;> simp [State.afterExecute_closeStep, h]

theorem State.closeStep_disp (t : State) : t.afterExecute.closeStep.disp = t.disp := by
  cases h : t.halted <;> simp [State.afterExecute_closeStep, h]

/-- An action that does not fault brings the host's quit one nearer (R225). -/
theorem State.closeStep_quitIn (t : State) : t.afterExecute.closeStep.quitIn =
    if t.halted then t.quitIn else t.quitIn.map (· - 1) := by
  cases h : t.halted <;> simp [State.afterExecute_closeStep, h]

theorem State.closeStep_glyphPolicy (t : State) : t.afterExecute.closeStep.glyphPolicy = t.glyphPolicy := by
  cases h : t.halted <;> simp [State.afterExecute_closeStep, h]

/-- Every instruction action that fired is recorded, one that faulted too (R38, R222). -/
theorem State.closeStep_tInsn (t : State) : t.afterExecute.closeStep.tInsn = t.now := by
  cases h : t.halted <;> simp [State.afterExecute_closeStep, h]

theorem State.closeStep_rates (t : State) : t.afterExecute.closeStep.rates = t.rates := by
  cases h : t.halted <;> simp [State.afterExecute_closeStep, h]

theorem State.closeStep_now (t : State) : t.afterExecute.closeStep.now = t.now := by
  cases h : t.halted <;> simp [State.afterExecute_closeStep, h]

theorem State.closeStep_tTimer (t : State) : t.afterExecute.closeStep.tTimer = t.tTimer := by
  cases h : t.halted <;> simp [State.afterExecute_closeStep, h]

theorem State.closeStep_lastPresent (t : State) : t.afterExecute.closeStep.lastPresent = t.lastPresent := by
  cases h : t.halted <;> simp [State.afterExecute_closeStep, h]

end Sys2Proof.Machine
end

