-- ==== Sys2Proof/Laws/PerInstr.lean ====
section
/-! SUPPORT. Facts about the instructions as syntax, one lemma for each constructor. -/

namespace Sys2Proof.Laws.EncodesToRow

/-- The word of a well-formed instruction is of the opcode map's row with its mnemonic, and `unknown`'s of no row
(R75, R77). -/
def Statement (i : Instr) : Prop :=
  i.wellFormed = true →
    match opcodeRows.find? (fun r => r.mnemonic == i.mnemonic) with
    | some r => r.hits (encode i) = true
    | none => isListed (encode i) = false

theorem clearScreen : Statement .clearScreen := fun _ =>
  (hits_FFFF _).2 rfl

theorem ret : Statement .ret := fun _ =>
  (hits_FFFF _).2 rfl

theorem jump (nnn : Addr12) : Statement (.jump nnn) := fun _ =>
  (hits_F000 _).2 (by simp [encode])

theorem call (nnn : Addr12) : Statement (.call nnn) := fun _ =>
  (hits_F000 _).2 (by simp [encode])

theorem skipEqConst (x : Reg) (nn : Byte) : Statement (.skipEqConst x nn) := fun _ =>
  (hits_F000 _).2 (by simp [encode])

theorem skipNeConst (x : Reg) (nn : Byte) : Statement (.skipNeConst x nn) := fun _ =>
  (hits_F000 _).2 (by simp [encode])

theorem skipEqReg (x : Reg) (y : Reg) : Statement (.skipEqReg x y) := fun _ =>
  (hits_F00F _).2 (by simp [encode])

theorem setConst (x : Reg) (nn : Byte) : Statement (.setConst x nn) := fun _ =>
  (hits_F000 _).2 (by simp [encode])

theorem addConst (x : Reg) (nn : Byte) : Statement (.addConst x nn) := fun _ =>
  (hits_F000 _).2 (by simp [encode])

theorem regCopy (x : Reg) (y : Reg) : Statement (.regCopy x y) := fun _ =>
  (hits_F00F _).2 (by simp [encode])

theorem regOr (x : Reg) (y : Reg) : Statement (.regOr x y) := fun _ =>
  (hits_F00F _).2 (by simp [encode])

theorem regAnd (x : Reg) (y : Reg) : Statement (.regAnd x y) := fun _ =>
  (hits_F00F _).2 (by simp [encode])

theorem regXor (x : Reg) (y : Reg) : Statement (.regXor x y) := fun _ =>
  (hits_F00F _).2 (by simp [encode])

theorem regAdd (x : Reg) (y : Reg) : Statement (.regAdd x y) := fun _ =>
  (hits_F00F _).2 (by simp [encode])

theorem regSub (x : Reg) (y : Reg) : Statement (.regSub x y) := fun _ =>
  (hits_F00F _).2 (by simp [encode])

theorem shiftRight (x : Reg) (y : Reg) : Statement (.shiftRight x y) := fun _ =>
  (hits_F00F _).2 (by simp [encode])

theorem regSubn (x : Reg) (y : Reg) : Statement (.regSubn x y) := fun _ =>
  (hits_F00F _).2 (by simp [encode])

theorem shiftLeft (x : Reg) (y : Reg) : Statement (.shiftLeft x y) := fun _ =>
  (hits_F00F _).2 (by simp [encode])

theorem skipNeReg (x : Reg) (y : Reg) : Statement (.skipNeReg x y) := fun _ =>
  (hits_F00F _).2 (by simp [encode])

theorem setIndex (nnn : Addr12) : Statement (.setIndex nnn) := fun _ =>
  (hits_F000 _).2 (by simp [encode])

theorem jumpOffset (nnn : Addr12) : Statement (.jumpOffset nnn) := fun _ =>
  (hits_F000 _).2 (by simp [encode])

theorem random (x : Reg) (nn : Byte) : Statement (.random x nn) := fun _ =>
  (hits_F000 _).2 (by simp [encode])

theorem draw (x : Reg) (y : Reg) (n : Nibble) : Statement (.draw x y n) := fun _ =>
  (hits_F000 _).2 (by simp [encode])

theorem skipKeyDown (x : Reg) : Statement (.skipKeyDown x) := fun _ =>
  (hits_F0FF _).2 (by simp [encode])

theorem skipKeyUp (x : Reg) : Statement (.skipKeyUp x) := fun _ =>
  (hits_F0FF _).2 (by simp [encode])

theorem getDelay (x : Reg) : Statement (.getDelay x) := fun _ =>
  (hits_F0FF _).2 (by simp [encode])

theorem waitKey (x : Reg) : Statement (.waitKey x) := fun _ =>
  (hits_F0FF _).2 (by simp [encode])

theorem setDelay (x : Reg) : Statement (.setDelay x) := fun _ =>
  (hits_F0FF _).2 (by simp [encode])

theorem setSound (x : Reg) : Statement (.setSound x) := fun _ =>
  (hits_F0FF _).2 (by simp [encode])

theorem addIndex (x : Reg) : Statement (.addIndex x) := fun _ =>
  (hits_F0FF _).2 (by simp [encode])

theorem fontAddress (x : Reg) : Statement (.fontAddress x) := fun _ =>
  (hits_F0FF _).2 (by simp [encode])

theorem storeBcd (x : Reg) : Statement (.storeBcd x) := fun _ =>
  (hits_F0FF _).2 (by simp [encode])

theorem storeRegs (x : Reg) : Statement (.storeRegs x) := fun _ =>
  (hits_F0FF _).2 (by simp [encode])

theorem loadRegs (x : Reg) : Statement (.loadRegs x) := fun _ =>
  (hits_F0FF _).2 (by simp [encode])

theorem unknown (w : Word) : Statement (.unknown w) := fun h =>
  show isListed w = false by simpa [Instr.wellFormed] using h

end Sys2Proof.Laws.EncodesToRow
end

