-- ==== Sys2Proof/Tests/Slice0.lean ====
section
/-! SUPPORT. The model's own tests.  The words are written out from the layouts of spec/30_encoding.md R71 and R75, and
the expected results are the vectors of spec/95_test_vectors.md, whose id each test names.  At the end, a witness for
the hypotheses of every statement that has some. -/

namespace Sys2Proof.Tests
open Sys2Proof.Machine

/-! ### WellFormed: one check, and a term it refuses -/

/-- A word of set-const is no unknown word. -/
theorem test_unknown_of_a_listed_word_is_ill_formed : (Instr.unknown 0x6005#16).wellFormed = false := by decide

theorem test_unknown_of_an_unlisted_word_is_well_formed : (Instr.unknown 0x5121#16).wellFormed = true := by decide

/-! ### Decoding, every constructor, by words written out bit by bit -/

theorem test_decode_clearScreen : decodeWord 0b0000000011100000#16 = .clearScreen := by decide
theorem test_decode_ret : decodeWord 0b0000000011101110#16 = .ret := by decide
theorem test_decode_jump : decodeWord 0b0001001000110100#16 = .jump 0x234#12 := by decide
theorem test_decode_call : decodeWord 0b0010001000000100#16 = .call 0x204#12 := by decide
theorem test_decode_skipEqConst : decodeWord 0b0011101001111011#16 = .skipEqConst 10 0x7B#8 := by decide
theorem test_decode_skipNeConst : decodeWord 0b0100001100010001#16 = .skipNeConst 3 0x11#8 := by decide
theorem test_decode_skipEqReg : decodeWord 0b0101000100100000#16 = .skipEqReg 1 2 := by decide
theorem test_decode_setConst : decodeWord 0b0110000000000101#16 = .setConst 0 0x05#8 := by decide
theorem test_decode_addConst : decodeWord 0b0111000000000011#16 = .addConst 0 0x03#8 := by decide
theorem test_decode_regCopy : decodeWord 0b1000000100100000#16 = .regCopy 1 2 := by decide
theorem test_decode_regOr : decodeWord 0b1000000100100001#16 = .regOr 1 2 := by decide
theorem test_decode_regAnd : decodeWord 0b1000000100100010#16 = .regAnd 1 2 := by decide
theorem test_decode_regXor : decodeWord 0b1000000100100011#16 = .regXor 1 2 := by decide
theorem test_decode_regAdd : decodeWord 0b1000111111100100#16 = .regAdd 15 14 := by decide
theorem test_decode_regSub : decodeWord 0b1000000100100101#16 = .regSub 1 2 := by decide
theorem test_decode_shiftRight : decodeWord 0b1000000100100110#16 = .shiftRight 1 2 := by decide
theorem test_decode_regSubn : decodeWord 0b1000000100100111#16 = .regSubn 1 2 := by decide
theorem test_decode_shiftLeft : decodeWord 0b1000000100101110#16 = .shiftLeft 1 2 := by decide
theorem test_decode_skipNeReg : decodeWord 0b1001000100100000#16 = .skipNeReg 1 2 := by decide
theorem test_decode_setIndex : decodeWord 0b1010001011110000#16 = .setIndex 0x2F0#12 := by decide
theorem test_decode_jumpOffset : decodeWord 0b1011001100000000#16 = .jumpOffset 0x300#12 := by decide
theorem test_decode_random : decodeWord 0b1100000100001111#16 = .random 1 0x0F#8 := by decide
theorem test_decode_draw : decodeWord 0b1101000100100101#16 = .draw 1 2 5#4 := by decide
theorem test_decode_skipKeyDown : decodeWord 0b1110010110011110#16 = .skipKeyDown 5 := by decide
theorem test_decode_skipKeyUp : decodeWord 0b1110010110100001#16 = .skipKeyUp 5 := by decide
theorem test_decode_getDelay : decodeWord 0b1111001100000111#16 = .getDelay 3 := by decide
theorem test_decode_waitKey : decodeWord 0b1111100100001010#16 = .waitKey 9 := by decide
theorem test_decode_setDelay : decodeWord 0b1111001100010101#16 = .setDelay 3 := by decide
theorem test_decode_setSound : decodeWord 0b1111001100011000#16 = .setSound 3 := by decide
theorem test_decode_addIndex : decodeWord 0b1111001000011110#16 = .addIndex 2 := by decide
theorem test_decode_fontAddress : decodeWord 0b1111010000101001#16 = .fontAddress 4 := by decide
theorem test_decode_storeBcd : decodeWord 0b1111000000110011#16 = .storeBcd 0 := by decide
theorem test_decode_storeRegs : decodeWord 0b1111001101010101#16 = .storeRegs 3 := by decide
theorem test_decode_loadRegs : decodeWord 0b1111010001100101#16 = .loadRegs 4 := by decide

/-- Every word L2-E calls unknown, next to the rows it must not fall through to. -/
theorem test_decode_unknown : ([0x0000#16, 0x0123#16, 0x00E1#16, 0x00EF#16, 0x00FF#16, 0x5121#16, 0x512F#16, 0x9121#16,
    0x8008#16, 0x8009#16, 0x800D#16, 0x800F#16, 0xE09F#16, 0xE0A2#16, 0xE000#16, 0xF000#16, 0xF01F#16, 0xF066#16,
    0xFFFF#16] : List Word).all (fun w => decide (decodeWord w = .unknown w)) = true := by decide

/-! ### One step of each instruction -/

/-- What a check says of the state one step leaves, with a word stored at `PC`. -/
def stepWord (w : Nat) (s : State) (check : State → Bool) : Bool :=
  match step (s.withFetchWord 16 w) with
  | .next t => check t
  | .fault _ => false
  | .refused _ => false

/-- The reset state of a run that the host never quits. -/
def awake : State := { State.reset with quitIn := none }

/-- The reset state with two registers set. -/
def start (x : Reg) (a : Byte) (y : Reg) (b : Byte) : State := (State.reset.setReg x a).setReg y b

/-- The reset state with `I` and one byte of memory set. -/
def startAt (i : Word) (a : Nat) (b : Byte) : State := { State.reset with i := i, mem := Memory.write [] a b }

/-- Registers `x` and 15, and `PC`. -/
def holds (x : Reg) (a f : Byte) (pc : Word) (t : State) : Bool :=
  t.reg x == a && t.reg 15 == f && t.pc == pc && !t.halted

/-- A fault: cause, address and info. -/
def faulted (c : FaultCause) (pc info : Word) (t : State) : Bool :=
  t.halted && t.faultCause == c && t.faultPc == pc && t.faultInfo == info && t.pc == pc

/-- D1 -/
theorem test_clearScreen : stepWord 0x00E0 { State.reset with disp := blankGrid.toggle 5 7 }
    (fun t => !t.disp.pixel 5 7 && !t.disp.pixel 0 0 && t.frameOpen && t.v == State.reset.v) = true := by decide

/-- C7 -/
theorem test_ret : stepWord 0x00EE { State.reset with sp := 1, stack := State.reset.stack.set 0 0x202#16, pc := 0x300#16 }
    (fun t => t.sp == 0 && t.pc == 0x202#16 && t.stack.get 0 == 0x202#16) = true := by decide

/-- C8 -/
theorem test_ret_underflow : stepWord 0x00EE State.reset (faulted .stackUnderflow 0x200#16 0x00EE#16) = true := by
  decide

/-- C1 -/
theorem test_jump : stepWord 0x1234 State.reset (fun t => t.pc == 0x234#16) = true := by decide

/-- C5 -/
theorem test_call : stepWord 0x2400 { State.reset with sp := 15 }
    (fun t => t.sp == 16 && t.pc == 0x400#16 && t.stack.get 15 == 0x202#16) = true := by decide

/-- C6 -/
theorem test_call_overflow : stepWord 0x2400 { State.reset with sp := 16 }
    (faulted .stackOverflow 0x200#16 0x2400#16) = true := by decide

/-- L1-6 -/
theorem test_skipEqConst : (stepWord 0x3310 (start 3 0x10#8 3 0x10#8) (fun t => t.pc == 0x204#16) &&
    stepWord 0x3311 (start 3 0x10#8 3 0x10#8) (fun t => t.pc == 0x202#16)) = true := by decide

/-- L1-6 -/
theorem test_skipNeConst : (stepWord 0x4311 (start 3 0x10#8 3 0x10#8) (fun t => t.pc == 0x204#16) &&
    stepWord 0x4310 (start 3 0x10#8 3 0x10#8) (fun t => t.pc == 0x202#16)) = true := by decide

/-- C11, C13 -/
theorem test_skipEqReg : (stepWord 0x5110 (start 1 7#8 2 8#8) (fun t => t.pc == 0x204#16) &&
    stepWord 0x5120 (start 1 7#8 2 8#8) (fun t => t.pc == 0x202#16)) = true := by decide

/-- C12, C13 -/
theorem test_skipNeReg : (stepWord 0x9110 (start 1 7#8 2 8#8) (fun t => t.pc == 0x202#16) &&
    stepWord 0x9120 (start 1 7#8 2 8#8) (fun t => t.pc == 0x204#16)) = true := by decide

/-- A1 -/
theorem test_setConst : stepWord 0x6F12 State.reset (holds 15 0x12#8 0x12#8 0x202#16) = true := by decide

/-- A2, A3 -/
theorem test_addConst : (stepWord 0x7002 (start 0 0xFF#8 15 0x07#8) (holds 0 0x01#8 0x07#8 0x202#16) &&
    stepWord 0x7F01 (start 15 0xFF#8 15 0xFF#8) (holds 15 0x00#8 0x00#8 0x202#16)) = true := by decide

/-- A4 -/
theorem test_regCopy : stepWord 0x8120 (start 2 0x00#8 15 0x01#8) (holds 1 0x00#8 0x01#8 0x202#16) = true := by decide

/-- L1-1 -/
theorem test_regOr : stepWord 0x8121 ((start 1 0x0F#8 2 0xF0#8).setReg 15 0x01#8)
    (holds 1 0xFF#8 0x00#8 0x202#16) = true := by decide

/-- A6 -/
theorem test_regOr_flag_register : stepWord 0x8F21 (start 15 0xAA#8 2 0x55#8)
    (holds 15 0x00#8 0x00#8 0x202#16) = true := by decide

/-- The example of R134 -/
theorem test_regAnd : stepWord 0x8122 ((start 1 0x3C#8 2 0x0F#8).setReg 15 0x01#8)
    (holds 1 0x0C#8 0x00#8 0x202#16) = true := by decide

/-- The example of R135 -/
theorem test_regXor : stepWord 0x8123 (start 1 0xFF#8 2 0x0F#8) (holds 1 0xF0#8 0x00#8 0x202#16) = true := by decide

/-- L1-2 -/
theorem test_regAdd : (stepWord 0x8124 (start 1 0xF0#8 2 0x20#8) (holds 1 0x10#8 0x01#8 0x202#16) &&
    stepWord 0x8124 (start 1 0x80#8 2 0x7F#8) (holds 1 0xFF#8 0x00#8 0x202#16)) = true := by decide

/-- A12, A13 -/
theorem test_regAdd_flag_register : (stepWord 0x8F24 (start 15 0x10#8 2 0xF5#8) (holds 15 0x01#8 0x01#8 0x202#16) &&
    stepWord 0x81F4 (start 1 0x01#8 15 0x01#8) (holds 1 0x02#8 0x00#8 0x202#16)) = true := by decide

/-- L1-3 -/
theorem test_regSub : (stepWord 0x8125 (start 1 0x07#8 2 0x05#8) (holds 1 0x02#8 0x01#8 0x202#16) &&
    stepWord 0x8125 (start 1 0x05#8 2 0x07#8) (holds 1 0xFE#8 0x00#8 0x202#16)) = true := by decide

/-- A15, A16 -/
theorem test_regSub_flag_register : (stepWord 0x8F25 (start 15 0x10#8 2 0x20#8) (holds 15 0x00#8 0x00#8 0x202#16) &&
    stepWord 0x81F5 (start 1 0x05#8 15 0x01#8) (holds 1 0x04#8 0x01#8 0x202#16)) = true := by decide

/-- A17, A18 -/
theorem test_regSubn : (stepWord 0x8127 (start 1 0x07#8 2 0x05#8) (holds 1 0xFE#8 0x00#8 0x202#16) &&
    stepWord 0x8127 (start 1 0x05#8 2 0x07#8) (holds 1 0x02#8 0x01#8 0x202#16)) = true := by decide

/-- L1-4, A20 -/
theorem test_shiftRight : (stepWord 0x8126 (start 1 0xFF#8 2 0x02#8) (holds 1 0x01#8 0x00#8 0x202#16) &&
    stepWord 0x8126 (start 1 0x00#8 2 0x05#8) (holds 1 0x02#8 0x01#8 0x202#16)) = true := by decide

/-- L1-4, A26 -/
theorem test_shiftLeft : (stepWord 0x812E (start 1 0xFF#8 2 0x02#8) (holds 1 0x04#8 0x00#8 0x202#16) &&
    stepWord 0x812E (start 1 0x00#8 2 0x81#8) (holds 1 0x02#8 0x01#8 0x202#16)) = true := by decide

/-- A30, A33 -/
theorem test_random : (stepWord 0xC10F { State.reset with rand := 0xA7#8 } (holds 1 0x07#8 0x00#8 0x202#16) &&
    stepWord 0xCF80 { start 15 0x01#8 15 0x01#8 with rand := 0xFF#8 } (holds 15 0x80#8 0x80#8 0x202#16)) = true := by
  decide

/-- I1 -/
theorem test_setIndex : stepWord 0xA123 { State.reset with i := 0x1001#16 } (fun t => t.i == 0x123#16) = true := by
  decide

/-- C16, C17 -/
theorem test_jumpOffset : (stepWord 0xBFFF (start 0 0xFF#8 0 0xFF#8) (fun t => t.pc == 0x10FE#16) &&
    stepWord 0xB500 (start 0 0x00#8 5 0x40#8) (fun t => t.pc == 0x500#16)) = true := by decide

/-- D4: the origin is taken modulo the grid, and the frame is presented. -/
theorem test_draw_origin : stepWord 0xD011 { start 0 0x44#8 1 0x21#8 with i := 0x300#16, mem := Memory.write [] 0x300 0x80#8 }
    (fun t => t.disp.pixel 4 1 && !t.disp.pixel 5 1 && t.reg 15 == 0x00#8 && t.visible.pixel 4 1) = true := by decide

/-- D6: a collision turns its pixel off; bit 7 is the left pixel. -/
theorem test_draw_collision : stepWord 0xD011 { startAt 0x300#16 0x300 0xC0#8 with disp := blankGrid.toggle 1 0 }
    (fun t => t.disp.pixel 0 0 && !t.disp.pixel 1 0 && t.reg 15 == 0x01#8) = true := by decide

/-- K1, K2 -/
theorem test_skipKeyDown :
    (stepWord 0xE59E { start 5 0x0A#8 5 0x0A#8 with keyDown := State.reset.keyDown.set 10 true }
      (fun t => t.pc == 0x204#16) &&
    stepWord 0xE59E (start 5 0x0A#8 5 0x0A#8) (fun t => t.pc == 0x202#16)) = true := by decide

/-- K1, K4 -/
theorem test_skipKeyUp :
    (stepWord 0xE5A1 { start 5 0x0A#8 5 0x0A#8 with keyDown := State.reset.keyDown.set 10 true }
      (fun t => t.pc == 0x202#16) &&
    stepWord 0xE5A1 { start 5 0xFF#8 5 0xFF#8 with keyDown := Vector.replicate 16 true }
      (fun t => t.pc == 0x204#16)) = true := by decide

/-- The meaning of get-delay (T1).  In a whole step a timer action may come first, at a clock sample nobody knows. -/
theorem test_getDelay : exec (.getDelay 3) { State.reset with dt := 0x3C#8 } =
    .next (({ State.reset with dt := 0x3C#8 } : State).setReg 3 0x3C#8) := rfl

/-- K5, K7 -/
theorem test_waitKey : (stepWord 0xF20A { State.reset with released := some 7 } (holds 2 0x07#8 0x00#8 0x202#16) &&
    stepWord 0xFF0A { start 15 0x01#8 15 0x01#8 with released := some 15 } (holds 15 0x0F#8 0x0F#8 0x202#16)) = true := by
  decide

/-- K6 -/
theorem test_waitKey_defers : stepWord 0xF20A { State.reset with keyDown := State.reset.keyDown.set 3 true }
    (fun t => t.pc == 0x200#16 && t.v == State.reset.v) = true := by decide

/-- T2 -/
theorem test_setDelay : stepWord 0xF315 (start 3 0x3C#8 3 0x3C#8) (fun t => t.dt == 0x3C#8) = true := by decide

/-- T4 -/
theorem test_setSound : stepWord 0xF318 (start 3 0x02#8 3 0x02#8) (fun t => t.st == 0x02#8) = true := by decide

/-- I3, I5 -/
theorem test_addIndex :
    (stepWord 0xF21E { start 2 0x03#8 2 0x03#8 with i := 0x0FFE#16 }
      (fun t => t.i == 0x1001#16 && t.reg 15 == 0x01#8) &&
    stepWord 0xF21E { start 2 0x0F#8 2 0x0F#8 with i := 0x0FF0#16 }
      (fun t => t.i == 0x0FFF#16 && t.reg 15 == 0x00#8)) = true := by decide

/-- I7, I8 -/
theorem test_addIndex_wraps :
    (stepWord 0xF21E { start 2 0x01#8 2 0x01#8 with i := 0xFFFF#16 }
      (fun t => t.i == 0x0000#16 && t.reg 15 == 0x00#8) &&
    stepWord 0xFF1E { start 15 0x01#8 15 0x01#8 with i := 0x0100#16 }
      (fun t => t.i == 0x0101#16 && t.reg 15 == 0x00#8)) = true := by decide

/-- I9, I10 -/
theorem test_fontAddress : (stepWord 0xF429 (start 4 0x0A#8 4 0x0A#8) (fun t => t.i == 0x032#16) &&
    stepWord 0xF429 (start 4 0xFF#8 4 0xFF#8) (fun t => t.i == 0x4FB#16)) = true := by decide

/-- L1-7 -/
theorem test_storeBcd : stepWord 0xF033 { start 0 0xD6#8 0 0xD6#8 with i := 0x300#16 }
    (fun t => t.mem.readBytes 0x300 3 == [0x02#8, 0x01#8, 0x04#8] && t.i == 0x300#16) = true := by decide

/-- I15, I16 -/
theorem test_storeBcd_faults : (stepWord 0xF033 { State.reset with i := 0xFFE#16 }
      (faulted .writeOutOfRange 0x200#16 0x0FFE#16) &&
    stepWord 0xF033 { State.reset with i := 0x04F#16 } (faulted .glyphWrite 0x200#16 0x004F#16)) = true := by decide

/-- L1-8 -/
theorem test_storeRegs : stepWord 0xF355 { ((start 0 0x11#8 1 0x22#8).setReg 2 0x33#8).setReg 3 0x44#8 with i := 0x300#16 }
    (fun t => t.mem.readBytes 0x300 5 == [0x11#8, 0x22#8, 0x33#8, 0x44#8, 0x00#8] && t.i == 0x304#16) = true := by
  decide

/-- I22, I23 -/
theorem test_storeRegs_faults : (stepWord 0xFF55 { State.reset with i := 0xFF1#16 }
      (fun t => faulted .writeOutOfRange 0x200#16 0x0FF1#16 t && t.i == 0xFF1#16) &&
    stepWord 0xF055 { State.reset with i := 0x040#16 } (faulted .glyphWrite 0x200#16 0x0040#16)) = true := by decide

/-- I24: glyph 0. -/
theorem test_loadRegs : stepWord 0xF465 State.reset
    (fun t => t.regsUpTo 4 == [0xF0#8, 0x90#8, 0x90#8, 0x90#8, 0xF0#8] && t.i == 0x005#16) = true := by decide

/-- I27, I28 -/
theorem test_loadRegs_top : (stepWord 0xF065 { State.reset with i := 0xFFFF#16 }
      (faulted .readOutOfRange 0x200#16 0xFFFF#16) &&
    stepWord 0xF065 (startAt 0xFFF#16 0xFFF 0x5C#8) (fun t => t.reg 0 == 0x5C#8 && t.i == 0x1000#16)) = true := by decide

/-- U1 -/
theorem test_unknown : stepWord 0x0000 { State.reset with pc := 0x204#16 }
    (fun t => t.pc == 0x206#16 && t.v == State.reset.v && t.mem == []) = true := by decide

/-- C19: no memory is read and `PC` stays. -/
theorem test_fetch_past_memory : (match step { awake with pc := 0xFFF#16 } with
    | .next t => faulted .fetchOutOfRange 0xFFF#16 0xFFF#16 t
    | .fault _ => false
    | .refused _ => false) = true := by decide

/-- The fault codes of R211. -/
theorem test_fault_codes : (FaultCause.none.code, FaultCause.fetchOutOfRange.code, FaultCause.stackOverflow.code,
    FaultCause.stackUnderflow.code, FaultCause.readOutOfRange.code, FaultCause.writeOutOfRange.code,
    FaultCause.glyphWrite.code) = (0, 1, 2, 3, 4, 5, 6) := by decide

/-- T5, T6: a timer action at 1 and at 0. -/
theorem test_timer_action :
    ((({ State.reset with dt := 1#8, st := 1#8 } : State).timerAction.dt,
      ({ State.reset with dt := 1#8, st := 1#8 } : State).timerAction.out) = (0#8, [.tone])) ∧
    State.reset.timerAction.dt = 0#8 ∧ State.reset.timerAction.out = [] := by decide

/-! ### Witnesses: a concrete state and operands for the hypotheses of every statement that has some, each clause at a
boundary of its range -/

theorem witness_DecodeOfEncodeIsIdentity :
    (Instr.draw 15 15 15#4).wellFormed = true ∧ (Instr.unknown 0xFFFF#16).wellFormed = true := by decide

theorem witness_DecoderFollowsOpcodeMap : ∃ r, r ∈ opcodeRows ∧ r.hits 0x5FF0#16 = true ∧
    ∀ q, q ∈ opcodeRows → q.hits 0x5FF1#16 = false := by
  refine ⟨⟨"skip-eq-reg", 0xF00F#16, 0x5000#16⟩, ?_, ?_, ?_⟩ <;> decide

theorem witness_RegistersWrittenOnlyWhenNamed :
    ∃ t, exec (.loadRegs 15) State.reset = .next t ∧ t.reg 15 ≠ State.reset.reg 15 := ⟨_, rfl, by decide⟩

theorem witness_FlagIsZeroOrOne : (∃ t, exec (.regOr 15 15) (start 15 0xAA#8 15 0xAA#8) = .next t ∧ t.halted = false ∧
      definesFlag (.regOr 15 15) = true) ∧
    (∃ t, exec (.draw 0 1 5#4) State.reset = .next t ∧ t.halted = false ∧ definesFlag (.draw 0 1 5#4) = true ∧
      State.reset.frameOpen = true) := ⟨⟨_, rfl, rfl, rfl⟩, ⟨_, rfl, rfl, rfl, rfl⟩⟩

/-- The flag clauses at operands that set and clear it, and a destination that is not the flag register. -/
theorem witness_AddAndSubtractWriteResultThenFlag :
    256 ≤ ((start 1 0xFF#8 2 0x01#8).reg 1).toNat + ((start 1 0xFF#8 2 0x01#8).reg 2).toNat ∧
    ¬256 ≤ ((start 1 0x80#8 2 0x7F#8).reg 1).toNat + ((start 1 0x80#8 2 0x7F#8).reg 2).toNat ∧
    ((start 1 0x33#8 2 0x33#8).reg 2).toNat ≤ ((start 1 0x33#8 2 0x33#8).reg 1).toNat ∧
    ¬((start 1 0x05#8 2 0x06#8).reg 2).toNat ≤ ((start 1 0x05#8 2 0x06#8).reg 1).toNat ∧ (1 : Reg) ≠ 15 := by decide

theorem witness_ShiftsReadSecondRegister :
    ((start 1 0 2 0x01#8).reg 2).toNat % 2 = 1 ∧ ¬((start 1 0 2 0xFE#8).reg 2).toNat % 2 = 1 ∧
    128 ≤ ((start 1 0 2 0x80#8).reg 2).toNat ∧ ¬128 ≤ ((start 1 0 2 0x7F#8).reg 2).toNat := by decide

theorem witness_RandomMasksTheHostByte : ∃ t, exec (.random 1 0x80#8) { State.reset with rand := 0xFF#8 } = .next t ∧
    (t.reg 1).getLsbD 7 = true := ⟨_, rfl, by decide⟩

theorem witness_CallPushesReturnAddress :
    ({ State.reset with sp := 15 } : State).sp.val < 16 ∧ ({ State.reset with sp := 16 } : State).sp = 16 := by decide

theorem witness_ReturnPopsTheStack : ({ State.reset with sp := 16 } : State).sp.val - 1 < 16 ∧
    0 < ({ State.reset with sp := 1 } : State).sp.val ∧ State.reset.sp = 0 := by decide

theorem witness_CallThenReturnRestoresThePc : ({ State.reset with sp := 15 } : State).sp.val < 16 ∧
    ∃ t u : State, exec (.call 0xFFF#12) { State.reset with sp := 15 } = .next t ∧ u.sp = t.sp ∧ u.stack = t.stack :=
  ⟨by decide, _, _, rfl, rfl, rfl⟩

theorem witness_SkipsAddTwoWhenTheyHold : (start 3 0x10#8 2 0xFF#8).reg 3 = 0x10#8 ∧
    (start 3 0x10#8 2 0xFF#8).reg 3 ≠ 0x11#8 ∧ (start 3 0x10#8 2 0xFF#8).reg 3 = (start 3 0x10#8 2 0xFF#8).reg 3 ∧
    (start 3 0x10#8 2 0xFF#8).reg 3 ≠ (start 3 0x10#8 2 0xFF#8).reg 2 := by decide

theorem witness_KeySkipsTestTheKey :
    (∃ h : ((start 5 0x0F#8 5 0x0F#8).reg 5).toNat < 16,
      (Vector.replicate 16 true).get ⟨((start 5 0x0F#8 5 0x0F#8).reg 5).toNat, h⟩ = true) ∧
    (∀ h : ((start 5 0x0F#8 5 0x0F#8).reg 5).toNat < 16,
      State.reset.keyDown.get ⟨((start 5 0x0F#8 5 0x0F#8).reg 5).toNat, h⟩ = false) ∧
    ¬((start 5 0x10#8 5 0x10#8).reg 5).toNat < 16 := by decide

theorem witness_StoreBcdWritesThreeDigits :
    (({ State.reset with i := 0x0FFD#16 } : State).mem.wf = true ∧ indexAddress 0x0FFD#16 2 ≤ 0xFFF ∧
      0x04F < indexAddress 0x0FFD#16 0) ∧
    (({ State.reset with i := 0x0050#16 } : State).mem.wf = true ∧ indexAddress 0x0050#16 2 ≤ 0xFFF ∧
      0x04F < indexAddress 0x0050#16 0) ∧
    (({ State.reset with glyphPolicy := .allow } : State).mem.wf = true ∧ indexAddress State.reset.i 2 ≤ 0xFFF ∧
      ({ State.reset with glyphPolicy := .allow } : State).glyphPolicy = .allow) ∧
    (({ State.reset with i := 0x0FFE#16 } : State).mem.wf = true ∧ 0xFFF < indexAddress 0x0FFE#16 2) ∧
    (({ State.reset with i := 0x004F#16 } : State).mem.wf = true ∧ indexAddress 0x004F#16 0 ≤ 0x04F ∧
      ({ State.reset with i := 0x004F#16 } : State).glyphPolicy = .fault) := by decide

theorem witness_StoreRegsWritesTheRange :
    (({ State.reset with i := 0x0FF0#16 } : State).mem.wf = true ∧ indexAddress 0x0FF0#16 (15 : Reg).val ≤ 0xFFF ∧
      0x04F < indexAddress 0x0FF0#16 0) ∧
    (({ State.reset with i := 0x0050#16 } : State).mem.wf = true ∧ indexAddress 0x0050#16 (0 : Reg).val ≤ 0xFFF ∧
      0x04F < indexAddress 0x0050#16 0) ∧
    (({ State.reset with glyphPolicy := .allow } : State).mem.wf = true ∧
      indexAddress State.reset.i (0 : Reg).val ≤ 0xFFF ∧
      ({ State.reset with glyphPolicy := .allow } : State).glyphPolicy = .allow) ∧
    (({ State.reset with i := 0x0FF1#16 } : State).mem.wf = true ∧ 0xFFF < indexAddress 0x0FF1#16 (15 : Reg).val) ∧
    (({ State.reset with i := 0x1000#16 } : State).mem.wf = true ∧ 0xFFF < indexAddress 0x1000#16 (0 : Reg).val) ∧
    (({ State.reset with i := 0x004F#16 } : State).mem.wf = true ∧ indexAddress 0x004F#16 0 ≤ 0x04F ∧
      ({ State.reset with i := 0x004F#16 } : State).glyphPolicy = .fault) := by decide

theorem witness_LoadRegsReadsTheRange : indexAddress 0x0FF0#16 (15 : Reg).val ≤ 0xFFF ∧
    indexAddress 0x0FFF#16 (0 : Reg).val ≤ 0xFFF ∧ 0xFFF < indexAddress 0x0FF1#16 (15 : Reg).val ∧
    0xFFF < indexAddress 0x1000#16 (0 : Reg).val := by decide

theorem witness_StoredBytesAreFetched : ({ State.reset with i := 0x0FFE#16 } : State).mem.wf = true ∧
    1 ≤ (1 : Reg).val ∧
    ∃ t u : State, exec (.storeRegs 1) { State.reset with i := 0x0FFE#16 } = .next t ∧ t.halted = false ∧
      u.mem = t.mem ∧ u.pc = ({ State.reset with i := 0x0FFE#16 } : State).i :=
  ⟨rfl, by decide, _, { (_ : State) with pc := 0x0FFE#16 }, rfl, rfl, rfl, rfl⟩

theorem witness_ReadReturnsTheLastWrite : Memory.wf [(0x1FF, 0x12#8), (0xFFF, 0x34#8)] = true ∧
    Memory.read [(0x1FF, 0x12#8), (0xFFF, 0x34#8)] 0xFFF = 0x34#8 := by decide

theorem witness_CanonicalMemoriesAreDeterminedByReads : ∃ m q : Memory, m.wf = true ∧ q.wf = true ∧
    m ≠ [] ∧ ∀ a, m.read a = q.read a := ⟨[(0xFFF, 0x34#8)], [(0xFFF, 0x34#8)], rfl, rfl, by decide, fun _ => rfl⟩

/-- The last byte of memory, no byte at all, a set and a clear pixel under a set sprite bit. -/
theorem witness_DrawTogglesTheSprite : State.reset.frameOpen = true ∧ indexAddress 0x0FFF#16 (1#4).toNat ≤ 0x1000 ∧
    indexAddress 0x0FF1#16 (15#4).toNat ≤ 0x1000 ∧
    (spriteBit State.reset 0 1 5#4 0 0 ∧ State.reset.disp.pixel 0 0 = false) ∧
    (spriteBit { State.reset with disp := blankGrid.toggle 0 0 } 0 1 5#4 0 0 ∧
      (blankGrid.toggle 0 0).pixel 0 0 = true) ∧ ¬spriteBit State.reset 0 1 5#4 4 0 := by
  simp only [spriteBit]; decide

theorem witness_DrawTogglesTheSprite_defers_or_faults : ({ State.reset with frameOpen := false } : State).frameOpen = false ∧
    State.reset.frameOpen = true ∧ 0 < (1#4).toNat ∧ 0xFFF < indexAddress 0x1000#16 ((1#4).toNat - 1) ∧
    0xFFF < indexAddress 0x0FF2#16 ((15#4).toNat - 1) := by decide

theorem witness_WaitKeyTakesAReleasedKey : State.reset.released = none ∧
    ({ State.reset with released := some 15 } : State).released = some 15 := by decide

theorem witness_UnknownWordsAreNoOps : isListed 0x0000#16 = false ∧ isListed 0xFFFF#16 = false := by decide

/-- A writer of each piece of state that changes it. -/
theorem witness_EachFieldHasItsWriters :
    (∃ t, exec (.setIndex 0xFFF#12) State.reset = .next t ∧ t.i ≠ State.reset.i) ∧
    (∃ t, exec (.setDelay 3) (start 3 1#8 3 1#8) = .next t ∧ t.dt ≠ (start 3 1#8 3 1#8).dt) ∧
    (∃ t, exec (.setSound 3) (start 3 1#8 3 1#8) = .next t ∧ t.st ≠ (start 3 1#8 3 1#8).st) ∧
    (∃ t, exec (.storeBcd 3) { start 3 1#8 3 1#8 with i := 0x300#16 } = .next t ∧ t.mem ≠ []) ∧
    (∃ t, exec (.waitKey 0) { State.reset with released := some 7 } = .next t ∧ t.released ≠ some 7) ∧
    (∃ t, exec (.jump 0x300#12) State.reset = .next t ∧ t.pc ≠ State.reset.pc) ∧
    (∃ t, exec (.draw 0 1 0#4) State.reset = .next t ∧ t.frameOpen ≠ State.reset.frameOpen) ∧
    (∃ t, exec (.setConst 0 1#8) State.reset = .next t ∧ t.v ≠ State.reset.v) ∧
    (∃ t, exec (.call 0x300#12) State.reset = .next t ∧ t.sp ≠ State.reset.sp ∧ t.stack ≠ State.reset.stack) ∧
    (∃ t, exec .ret State.reset = .next t ∧ t.halted ≠ State.reset.halted) ∧
    (∃ t, exec (.random 0 1#8) State.reset = .next t ∧ t.draws ≠ State.reset.draws) ∧
    (∃ t, exec (.unknown 0#16) State.reset = .next t ∧ t.out ≠ State.reset.out) :=
  ⟨⟨_, rfl, by decide⟩, ⟨_, rfl, by decide⟩, ⟨_, rfl, by decide⟩, ⟨_, rfl, by decide⟩, ⟨_, rfl, by decide⟩,
    ⟨_, rfl, by decide⟩, ⟨_, rfl, by decide⟩, ⟨_, rfl, by decide⟩, ⟨_, rfl, by decide, by decide⟩,
    ⟨_, rfl, by decide⟩, ⟨_, rfl, by decide⟩, ⟨_, rfl, by decide⟩⟩

theorem witness_EachFieldHasItsWriters_display : ∃ t, exec .clearScreen { State.reset with disp := blankGrid.toggle 0 0 } =
    .next t ∧ t.disp ≠ blankGrid.toggle 0 0 := by
  refine ⟨_, rfl, fun h => ?_⟩
  have h0 := congrArg (fun g : Grid => g.pixel 0 0) h
  revert h0; decide

theorem witness_StackIsPrivateToCallAndReturn : Instr.jump 0#12 ≠ .ret ∧ ∀ nnn, Instr.jump 0#12 ≠ .call nnn :=
  ⟨nofun, nofun⟩

theorem witness_MemoryIsPrivateToItsInstructions : (∀ x y n, Instr.waitKey 0 ≠ .draw x y n) ∧
    (∀ x, Instr.waitKey 0 ≠ .storeBcd x) ∧ (∀ x, Instr.waitKey 0 ≠ .storeRegs x) ∧
    ∀ x, Instr.waitKey 0 ≠ .loadRegs x :=
  ⟨nofun, nofun, nofun, nofun⟩

theorem witness_FaultStatusIsUnreadable : State.reset.halted = false := rfl

theorem witness_InstructionFaultsArePrecise : State.reset.halted = false ∧
    ∃ t, exec .ret State.reset = .next t ∧ t.halted = true := ⟨rfl, _, rfl, rfl⟩

/-- Each cause, at the least operands that raise it. -/
theorem witness_FaultConditionsHalt :
    RaisesFault (.call 0#12) { State.reset with sp := 16 } .stackOverflow 0x0000#16 ∧
    RaisesFault .ret State.reset .stackUnderflow 0x0000#16 ∧
    RaisesFault (.loadRegs 15) { State.reset with i := 0x0FF1#16 } .readOutOfRange 0x0FF1#16 ∧
    RaisesFault (.draw 0 0 1#4) { State.reset with i := 0x1000#16 } .readOutOfRange 0x1000#16 ∧
    RaisesFault (.storeBcd 0) { State.reset with i := 0x0FFE#16 } .writeOutOfRange 0x0FFE#16 ∧
    RaisesFault (.storeRegs 0) { State.reset with i := 0x1000#16 } .writeOutOfRange 0x1000#16 ∧
    RaisesFault (.storeBcd 0) { State.reset with i := 0x004F#16 } .glyphWrite 0x004F#16 ∧
    RaisesFault (.storeRegs 0) State.reset .glyphWrite 0x0000#16 :=
  ⟨.inl ⟨rfl, rfl, rfl, _, rfl⟩, .inr (.inl ⟨rfl, rfl, rfl, rfl⟩),
    .inr (.inr (.inl ⟨rfl, rfl, .inl ⟨_, rfl, by decide⟩⟩)),
    .inr (.inr (.inl ⟨rfl, rfl, .inr ⟨_, _, _, rfl, rfl, by decide, by decide⟩⟩)),
    .inr (.inr (.inr (.inl ⟨rfl, rfl, .inl ⟨_, rfl, by decide⟩⟩))),
    .inr (.inr (.inr (.inl ⟨rfl, rfl, .inr ⟨_, rfl, by decide⟩⟩))),
    .inr (.inr (.inr (.inr ⟨rfl, rfl, rfl, by decide, .inl ⟨_, rfl⟩⟩))),
    .inr (.inr (.inr (.inr ⟨rfl, rfl, rfl, by decide, .inr ⟨_, rfl⟩⟩)))⟩

theorem witness_FetchPastMemoryHalts :
    (({ awake with pc := 0x0FFF#16 } : State).quit = false ∧
      ({ awake with pc := 0x0FFF#16 } : State).halted = false ∧
      0xFFE < ({ awake with pc := 0x0FFF#16 } : State).pc.toNat) ∧
    (({ awake with pc := 0x0FFE#16 } : State).quit = false ∧
      ({ awake with pc := 0x0FFE#16 } : State).halted = false ∧
      ({ awake with pc := 0x0FFE#16 } : State).pc = 0x0FFE#16) := by decide

/-- A step that faults in the fetch, and one that faults in the instruction. -/
theorem witness_FaultEntryRecordsTheFault :
    (∃ s : State, s.quit = false ∧ s.halted = false ∧ FaultsNow s .fetchOutOfRange 0x0FFF#16 ∧
      ∃ t, step s = .next t ∧ t.halted = true) ∧
    ∃ s : State, s.quit = false ∧ s.halted = false ∧ FaultsNow s .stackUnderflow 0x00EE#16 ∧
      ∃ t, step s = .next t ∧ t.halted = true :=
  ⟨⟨{ awake with pc := 0x0FFF#16 }, rfl, rfl, .inl ⟨by decide, rfl, rfl⟩, _, rfl, rfl⟩,
    ⟨State.reset.withFetchWord 16 0x00EE, rfl, rfl,
      .inr ⟨by decide, .inr (.inl ⟨rfl, rfl, by decide, by decide⟩)⟩, _, rfl, rfl⟩⟩

theorem witness_HaltedIsFinal : ({ awake with halted := true } : State).quit = false ∧
    ({ awake with halted := true } : State).halted = true := by decide

theorem witness_StepRunsTheDecodedInstruction : (State.reset.withFetchWord 16 0x6005).running ∧
    (Instr.setConst 0 0x05#8).wellFormed = true ∧
    decode ((State.reset.withFetchWord 16 0x6005).mem.read 0x200 ::
      (State.reset.withFetchWord 16 0x6005).mem.read 0x201 :: []) = .ok (.setConst 0 0x05#8, []) :=
  ⟨⟨rfl, rfl, by decide⟩, by decide, by decide⟩

/-- The highest `PC` a running core fetches from. -/
theorem witness_running_at_the_top : ({ awake with pc := 0x0FFE#16 } : State).running := ⟨rfl, rfl, by decide⟩

theorem witness_EveryStepAnswersNext : awake.quit = false := rfl

/-- A host that quits at once, and one that quits after two instruction actions of which the second faults. -/
theorem witness_QuitEndsTheRun : (awake.hostQuit).quit = true ∧
    let s : State := { State.reset with quitIn := some 2, pc := 0x0FFE#16 }
    s.quitIn = some 2 ∧ ∃ t, Host.Core.run core 3 s = .next t ∧ t.halted = true := ⟨rfl, rfl, _, rfl, rfl⟩

/-- Samples at both ends of the instruction period, two of them at one time, and the earliest that fires the action. -/
theorem witness_StepIsSchedulerIterations :
    let s : State := { awake with tInsn := 100 }
    s.quit = false ∧ s.halted = false ∧ [100, 100, 105].Pairwise (· ≤ ·) ∧
      (∀ now, now ∈ [100, 100, 105] → s.tInsn ≤ now ∧ now < s.tInsn + s.rates.insnPeriod) ∧
      s.tInsn + s.rates.insnPeriod ≤ 106 :=
  ⟨rfl, rfl, by decide, by decide, by decide⟩

/-- Early samples at both ends of the instruction period. -/
theorem witness_EarlySamplesCollapseToOne :
    let s : State := { State.reset with tTimer := 31, tInsn := 100, now := 100 }
    s.rates.insnPeriod ≤ s.rates.timerPeriod ∧ ClockInv s ∧ s.halted = false ∧
      (∀ now, now ∈ [100, 101, 105] → s.tInsn ≤ now ∧ now < s.tInsn + s.rates.insnPeriod) ∧
      s.tInsn + s.rates.insnPeriod ≤ 106 :=
  ⟨by decide, ⟨by decide, by decide, rfl⟩, rfl, by decide, by decide⟩

theorem witness_UnitSamplesTickEverySeventy : State.reset.rates = Config.defaultRates ∧
    Config.defaultRates.timerPeriod = 70 ∧ Config.defaultRates.insnPeriod = 6 := by decide

theorem witness_EachActionPumpsOnce : awake.running ∧ (∃ t, step awake = .next t ∧ t.halted = false) ∧
    ∃ t, step (State.reset.withFetchWord 16 0x00EE) = .next t ∧ t.halted = true :=
  ⟨⟨rfl, rfl, by decide⟩, ⟨_, rfl, rfl⟩, ⟨_, rfl, rfl⟩⟩

theorem witness_GetDelayReadsTheTimer : (State.reset.withFetchWord 16 0xF307).running ∧
    (State.reset.withFetchWord 16 0xF307).nextInstr = .getDelay 3 := ⟨⟨rfl, rfl, by decide⟩, by decide⟩

theorem witness_SetDelaySetsTheTimer : ∃ t, exec (.setDelay 3) (start 3 1#8 3 1#8) = .next t ∧
    (start 3 1#8 3 1#8).dt.toNat < t.dt.toNat := ⟨_, rfl, by decide⟩

theorem witness_TimerActionDecrementsAndTones : ({ State.reset with st := 1#8 } : State).st ≠ 0#8 ∧
    State.reset.st = 0#8 := by decide

theorem witness_DelayTimerRisesOnlyBySetDelay : ∃ t, step ((start 3 1#8 3 1#8).withFetchWord 16 0xF315) = .next t ∧
    ((start 3 1#8 3 1#8).withFetchWord 16 0xF315).dt.toNat < t.dt.toNat := ⟨_, rfl, by decide⟩

theorem witness_DeferredInstructionIsRefetched :
    (({ State.reset.withFetchWord 16 0xD015 with frameOpen := false } : State).running ∧
      ({ State.reset.withFetchWord 16 0xD015 with frameOpen := false } : State).nextInstr = .draw 0 1 5#4 ∧
      ({ State.reset.withFetchWord 16 0xD015 with frameOpen := false } : State).frameOpen = false) ∧
    ((State.reset.withFetchWord 16 0xF20A).running ∧ (State.reset.withFetchWord 16 0xF20A).nextInstr = .waitKey 2 ∧
      (State.reset.withFetchWord 16 0xF20A).released = none ∧
      (State.reset.withFetchWord 16 0xF20A).quitIn ≠ some 1) :=
  ⟨⟨⟨rfl, rfl, by decide⟩, by decide, rfl⟩, ⟨rfl, rfl, by decide⟩, by decide, rfl, nofun⟩

/-- The longest image that fits, and the shortest that does not; the first and the last address of each range. -/
theorem witness_BootGivesTheResetState : (List.replicate 3584 (0xAB#8 : Byte)).length ≤ 3584 ∧
    ([] : List Byte).length ≤ 3584 ∧ 3583 < (List.replicate 3584 (0xAB#8 : Byte)).length ∧
    (0x050 ≤ 0x050 ∧ 0x1FF ≤ 0x1FF) ∧ 0x200 + ([] : List Byte).length ≤ 0xFFF := by
  simp only [List.length_replicate, List.length_nil]; decide

theorem witness_LoaderPlacesOrRefusesTheImage : 3584 < (List.replicate 3585 (0xAB#8 : Byte)).length := by
  simp only [List.length_replicate]; decide

/-- The longest image that fits, and the empty one. -/
theorem witness_ResetMeetsTheInvariants : (List.replicate 3584 (0xAB#8 : Byte)).length ≤ 3584 ∧
    ([] : List Byte).length ≤ 3584 ∧
    ({ defaultBoot with quitIn := some 1 } : BootConfig).quitIn ≠ some 0 := by
  simp only [List.length_replicate, List.length_nil]; decide

theorem witness_StepKeepsMemoryCanonical : (State.reset.withFetchWord 16 0x6005).mem.wf = true ∧
    ∃ t, step (State.reset.withFetchWord 16 0x6005) = .next t := ⟨by decide, _, rfl⟩

theorem witness_StepKeepsTheClock : ClockInv { awake with tTimer := 31, tInsn := 100, now := 100 } ∧
    ∃ t, step { awake with tTimer := 31, tInsn := 100, now := 100 } = .next t :=
  ⟨⟨by decide, by decide, rfl⟩, _, rfl⟩

theorem witness_StepKeepsFrameAndStatus : FrameInv awake ∧ StatusInv awake ∧
    ∃ t, step awake = .next t := ⟨fun _ => rfl, by unfold StatusInv; decide, _, rfl⟩

theorem witness_GlyphsAreNeverMutated : awake.glyphPolicy = .fault ∧ awake.mem.wf = true ∧
    ∃ t, Host.Core.run core 2 awake = .next t := ⟨rfl, rfl, _, rfl⟩

end Sys2Proof.Tests
end

section
/-! What an instruction can do to the state: it completes in one of the shapes of `Completes`, or it raises one
of its own faults (R101, R211, R213).  Every claim about who writes what is a case analysis of these. -/

namespace Sys2Proof.Machine

theorem next_inj {s t : State} (h : (.next s : Host.Outcome State Fault Refusal) = .next t) : t = s :=
  (Host.Outcome.next.inj h).symm

/-- The instructions that do nothing but set `PC`: the jumps and the skips (R26). -/
inductive JumpsOrSkips : Instr → Prop
  | jump (nnn : Addr12) : JumpsOrSkips (.jump nnn)
  | jumpOffset (nnn : Addr12) : JumpsOrSkips (.jumpOffset nnn)
  | skipEqConst (x : Reg) (nn : Byte) : JumpsOrSkips (.skipEqConst x nn)
  | skipNeConst (x : Reg) (nn : Byte) : JumpsOrSkips (.skipNeConst x nn)
  | skipEqReg (x y : Reg) : JumpsOrSkips (.skipEqReg x y)
  | skipNeReg (x y : Reg) : JumpsOrSkips (.skipNeReg x y)
  | skipKeyDown (x : Reg) : JumpsOrSkips (.skipKeyDown x)
  | skipKeyUp (x : Reg) : JumpsOrSkips (.skipKeyUp x)

theorem JumpsOrSkips.definesFlag_eq_false {i : Instr} (h : JumpsOrSkips i) : definesFlag i = false := by
  cases h <;> rfl

/-- The shapes in which an instruction completes without a fault: which operations of the state it performs.  The
values written are left open where no claim about writers needs them. -/
inductive Completes (s : State) : Instr → State → Prop
  | setsReg {i : Instr} (x : Reg) (b : Byte) (hx : writesData x i) (hf : definesFlag i = false) :
      Completes s i (s.setReg x b)
  | setsRegAndFlag {i : Instr} (x : Reg) (b : Byte) (f : Bool) (hx : writesData x i) (hf : definesFlag i = true) :
      Completes s i ((s.setReg x b).setFlag f)
  | takesRandom (x : Reg) (nn b : Byte) : Completes s (.random x nn) (s.setReg x b).redrawRand
  | takesKey (x : Reg) (k : Key) (h : s.released = some k) :
      Completes s (.waitKey x) (s.clearReleased.setReg x (zextKey k))
  | setsPc {i : Instr} (w : Word) (hi : JumpsOrSkips i) : Completes s i (s.setPc w)
  | defersDraw (x y : Reg) (n : Nibble) (h : s.frameOpen = false) : Completes s (.draw x y n) s.defer
  | defersWaitKey (x : Reg) (h : s.released = none) : Completes s (.waitKey x) s.defer
  | calls (nnn : Addr12) (stack : Vector Word 16) (sp : Fin 17) (w : Word) :
      Completes s (.call nnn) { s with stack := stack, sp := sp, pc := w }
  | returns (sp : Fin 17) (w : Word) : Completes s .ret { s with sp := sp, pc := w }
  | setsIndex (nnn : Addr12) (w : Word) : Completes s (.setIndex nnn) (s.setIndex w)
  | findsGlyph (x : Reg) (w : Word) : Completes s (.fontAddress x) (s.setIndex w)
  | addsIndex (x : Reg) (w : Word) (f : Bool) : Completes s (.addIndex x) ((s.setIndex w).setFlag f)
  | storesBcd (x : Reg) (base : Nat) (bs : List Byte) : Completes s (.storeBcd x) (s.storeBytes base bs)
  | storesRegs (x : Reg) (base : Nat) (bs : List Byte) (w : Word) :
      Completes s (.storeRegs x) ((s.storeBytes base bs).setIndex w)
  | loadsRegs (x : Reg) (bs : List Byte) (w : Word) (h : bs.length = x.val + 1) :
      Completes s (.loadRegs x) ((s.setRegs 0 bs).setIndex w)
  | clears : Completes s .clearScreen s.displayClear
  | draws (x y : Reg) (n : Nibble) (h : s.frameOpen = true) : Completes s (.draw x y n) (drawSprite x y n s)
  | setsDelay (x : Reg) (b : Byte) : Completes s (.setDelay x) { s with dt := b }
  | setsSound (x : Reg) (b : Byte) : Completes s (.setSound x) { s with st := b }
  | reports (w : Word) (o : Output) : Completes s (.unknown w) (s.emit o)

/-- The instruction raised one of its own faults, and `t` is the state fault entry leaves. -/
def Faults (i : Instr) (s t : State) : Prop :=
  ∃ cause info, RaisesFault i s cause info ∧ t = s.raiseFault cause info

theorem execRet_eq (s : State) : execRet s = .next
    (if h : 0 < s.sp.val then
      { s with sp := ⟨s.sp.val - 1, by omega⟩, pc := s.stack.get ⟨s.sp.val - 1, by omega⟩ }
    else s.raiseFault .stackUnderflow s.ir) := by
  by_cases h : 0 < s.sp.val
  · rw [dif_pos h, execRet_pops s h]
  · rw [dif_neg h, execRet_empty s h]

theorem execRet_cases {s t : State} (h : execRet s = .next t) : Completes s .ret t ∨ Faults .ret s t := by
  rw [execRet_eq] at h
  obtain rfl := next_inj h
  split
  · exact .inl (.returns _ _)
  · exact .inr ⟨_, _, .inr (.inl ⟨rfl, Fin.ext (by simpa using ‹¬0 < s.sp.val›), rfl, rfl⟩), rfl⟩

theorem execCall_cases {nnn : Addr12} {s t : State} (h : execCall nnn s = .next t) :
    Completes s (.call nnn) t ∨ Faults (.call nnn) s t := by
  rw [execCall_eq] at h
  obtain rfl := next_inj h
  split
  · exact .inl (.calls _ _ _ _)
  · have hsp : s.sp = 16 := Fin.ext (by have := s.sp.isLt; show s.sp.val = 16; omega)
    exact .inr ⟨_, _, .inl ⟨rfl, hsp, rfl, nnn, rfl⟩, rfl⟩

theorem execStoreBcd_cases {x : Reg} {s t : State} (h : execStoreBcd x s = .next t) :
    Completes s (.storeBcd x) t ∨ Faults (.storeBcd x) s t := by
  rw [execStoreBcd_eq] at h
  obtain rfl := next_inj h
  split_ifs with hr hg
  · exact .inr ⟨_, _, .inr (.inr (.inr (.inl ⟨rfl, rfl, .inl ⟨x, rfl, hr⟩⟩))), rfl⟩
  · exact .inr ⟨_, _, .inr (.inr (.inr (.inr ⟨rfl, rfl, hg.2, hg.1, .inl ⟨x, rfl⟩⟩))), rfl⟩
  · exact .inl (.storesBcd _ _ _)

theorem execStoreRegs_cases {x : Reg} {s t : State} (h : execStoreRegs x s = .next t) :
    Completes s (.storeRegs x) t ∨ Faults (.storeRegs x) s t := by
  rw [execStoreRegs_eq] at h
  obtain rfl := next_inj h
  split_ifs with hr hg
  · exact .inr ⟨_, _, .inr (.inr (.inr (.inl ⟨rfl, rfl, .inr ⟨x, rfl, hr⟩⟩))), rfl⟩
  · exact .inr ⟨_, _, .inr (.inr (.inr (.inr ⟨rfl, rfl, hg.2, hg.1, .inr ⟨x, rfl⟩⟩))), rfl⟩
  · exact .inl (.storesRegs _ _ _ _)

theorem execLoadRegs_cases {x : Reg} {s t : State} (h : execLoadRegs x s = .next t) :
    Completes s (.loadRegs x) t ∨ Faults (.loadRegs x) s t := by
  rw [execLoadRegs_eq] at h
  obtain rfl := next_inj h
  split_ifs with hr
  · exact .inr ⟨_, _, .inr (.inr (.inl ⟨rfl, rfl, .inl ⟨x, rfl, hr⟩⟩)), rfl⟩
  · exact .inl (.loadsRegs _ _ _ (Memory.readBytes_length _ _ _))

theorem execDraw_cases {x y : Reg} {n : Nibble} {s t : State} (h : execDraw x y n s = .next t) :
    Completes s (.draw x y n) t ∨ Faults (.draw x y n) s t := by
  rw [execDraw_eq] at h
  obtain rfl := next_inj h
  split_ifs with hf hr
  · exact .inr ⟨_, _, .inr (.inr (.inl ⟨rfl, rfl, .inr ⟨x, y, n, rfl, hf, hr⟩⟩)), rfl⟩
  · exact .inl (.draws _ _ _ hf)
  · exact .inl (.defersDraw _ _ _ (Bool.eq_false_of_not_eq_true hf))

theorem execWaitKey_completes {x : Reg} {s t : State} (h : execWaitKey x s = .next t) :
    Completes s (.waitKey x) t := by
  cases hk : s.released with
  | none =>
    rw [execWaitKey_none x hk] at h
    obtain rfl := next_inj h
    exact .defersWaitKey x hk
  | some k =>
    rw [execWaitKey_some x hk] at h
    obtain rfl := next_inj h
    exact .takesKey x k hk

/-- Everything an instruction can do (R101): it completes, or it raises one of its own faults. -/
theorem exec_cases {i : Instr} {s t : State} (h : exec i s = .next t) : Completes s i t ∨ Faults i s t := by
  cases i with
  | ret => exact execRet_cases h
  | call nnn => exact execCall_cases h
  | storeBcd x => exact execStoreBcd_cases h
  | storeRegs x => exact execStoreRegs_cases h
  | loadRegs x => exact execLoadRegs_cases h
  | draw x y n => exact execDraw_cases h
  | waitKey x => exact .inl (execWaitKey_completes h)
  | setConst x _ | addConst x _ | regCopy x _ | getDelay x =>
    cases next_inj h; exact .inl (.setsReg x _ rfl rfl)
  | regOr x _ | regAnd x _ | regXor x _ | regAdd x _ | regSub x _ | regSubn x _ | shiftRight x _ | shiftLeft x _ =>
    cases next_inj h; exact .inl (.setsRegAndFlag x _ _ rfl rfl)
  | jump _ | jumpOffset _ | skipEqConst _ _ | skipNeConst _ _ | skipEqReg _ _ | skipNeReg _ _ | skipKeyDown _
  | skipKeyUp _ =>
    cases next_inj h; exact .inl (.setsPc _ (by constructor))
  | random x nn => cases next_inj h; exact .inl (.takesRandom x nn _)
  | setIndex nnn => cases next_inj h; exact .inl (.setsIndex nnn _)
  | fontAddress x => cases next_inj h; exact .inl (.findsGlyph x _)
  | addIndex x => cases next_inj h; exact .inl (.addsIndex x _ _)
  | clearScreen => cases next_inj h; exact .inl .clears
  | setDelay x => cases next_inj h; exact .inl (.setsDelay x _)
  | setSound x => cases next_inj h; exact .inl (.setsSound x _)
  | unknown w => cases next_inj h; exact .inl (.reports w _)

end Sys2Proof.Machine
end

section
/-! Who writes what: the registers (R21), the flag (R22, R97), and each field of the state (R21 to R42, R61, R229). -/

namespace Sys2Proof.Machine

/-- Register files that differ, differ in a register. -/
theorem State.exists_reg_ne {s t : State} (h : t.v ≠ s.v) : ∃ z, t.reg z ≠ s.reg z := by
  by_contra hc
  push Not at hc
  exact h (Vector.ext fun k hk => hc ⟨k, hk⟩)

theorem State.eq_of_reg_setReg_ne {s : State} {x z : Reg} {b : Byte} (h : (s.setReg x b).reg z ≠ s.reg z) :
    z = x :=
  of_not_not fun hne => h (by simp [hne])

/-- An instruction that completes writes the registers it names and the flag it defines, and no other (R21). -/
theorem Completes.writes_of_reg_ne {i : Instr} {s t : State} {z : Reg} (hc : Completes s i t)
    (hz : t.reg z ≠ s.reg z) : writesData z i ∨ (z = 15 ∧ definesFlag i = true) := by
  cases hc with
  | setsReg x b hx => exact .inl (State.eq_of_reg_setReg_ne hz ▸ hx)
  | takesRandom | takesKey => exact .inl (State.eq_of_reg_setReg_ne hz)
  | setsRegAndFlag x b f hx hf =>
    by_cases h15 : z = 15
    · exact .inr ⟨h15, hf⟩
    · rw [State.reg_setFlag, if_neg h15] at hz
      exact .inl (State.eq_of_reg_setReg_ne hz ▸ hx)
  | addsIndex x w f => exact .inr ⟨of_not_not fun h15 => hz (by simp [h15]), rfl⟩
  | draws x y n => exact .inr ⟨of_not_not fun h15 => hz (drawSprite_reg x y n s z h15), rfl⟩
  | loadsRegs x bs w hlen =>
    rw [State.reg_setIndex, State.reg_setRegs] at hz
    have hlt : z.val < bs.length := of_not_not fun hge => hz (by simp [hge])
    exact .inl (Fin.le_def.2 (by omega))
  | setsPc | defersDraw | defersWaitKey | calls | returns | setsIndex | findsGlyph | storesBcd | storesRegs | clears
  | setsDelay | setsSound | reports => exact absurd rfl hz

/-- A flag-defining instruction that completes, and does not defer, leaves 0x00 or 0x01 in `V[15]` (R97). -/
theorem Completes.flag_zero_or_one {i : Instr} {s t : State} (hc : Completes s i t) (hf : definesFlag i = true)
    (hopen : (∃ x y n, i = .draw x y n) → s.frameOpen = true) : t.reg 15 = 0x00#8 ∨ t.reg 15 = 0x01#8 := by
  cases hc with
  | setsRegAndFlag x b f | addsIndex x b f => rw [State.reg_setFlag, if_pos rfl]; exact flagByte_zero_or_one f
  | draws x y n => rw [drawSprite_flag]; exact flagByte_zero_or_one _
  | defersDraw x y n hclosed => exact absurd (hopen ⟨x, y, n, rfl⟩) (by simp [hclosed])
  | setsReg x b hx hno => simp [hno] at hf
  | setsPc w hi => simp [hi.definesFlag_eq_false] at hf
  | takesRandom | takesKey | defersWaitKey | calls | returns | setsIndex | findsGlyph | storesBcd | storesRegs
  | loadsRegs | clears | setsDelay | setsSound | reports => cases hf

end Sys2Proof.Machine

open Sys2Proof Sys2Proof.Machine

/-- Settles O10: fault entry changes no register, and an instruction that completes writes only those it names. -/
theorem registersWrittenOnlyWhenNamed : Obligations.RegistersWrittenOnlyWhenNamed := by
  intro i s t z h hz
  rcases exec_cases h with hc | ⟨cause, info, -, rfl⟩
  · exact hc.writes_of_reg_ne hz
  · exact absurd rfl hz

/-- Settles O11: an instruction that does not halt the core completes, and the flag it writes is a `flagByte`. -/
theorem flagIsZeroOrOne : Obligations.FlagIsZeroOrOne := by
  intro i s t hf h hrun hopen
  rcases exec_cases h with hc | ⟨cause, info, -, rfl⟩
  · exact hc.flag_zero_or_one hf hopen
  · cases hrun

/-- Settles O33: `V` by O10, and every other field by the shape in which the instruction completes; a fault writes
`PC` and the fault status alone. -/
theorem eachFieldHasItsWriters : Obligations.EachFieldHasItsWriters := by
  intro i s t h
  refine ⟨fun hv => ?_, ?_⟩
  · obtain ⟨z, hz⟩ := State.exists_reg_ne hv
    exact (registersWrittenOnlyWhenNamed i s t z h hz).imp (⟨z, ·⟩) And.right
  rcases exec_cases h with hc | ⟨cause, info, hf, rfl⟩
  · cases hc with
    | setsReg | setsRegAndFlag | takesRandom | takesKey | defersDraw | defersWaitKey | calls | returns | setsIndex
    | findsGlyph | addsIndex | storesBcd | storesRegs | clears | setsDelay | setsSound | reports => simp
    | setsPc w hi => cases hi <;> simp
    | loadsRegs => rw [State.setRegs_eq]; simp
    | draws => rw [drawSprite_eq]; simp
  · have : ∃ cause info, RaisesFault i s cause info := ⟨cause, info, hf⟩
    simp [this]

/-- Settles O52: the timer half of a step never raises the delay timer, and of the instructions only set-delay
writes it. -/
theorem delayTimerRisesOnlyBySetDelay : Obligations.DelayTimerRisesOnlyBySetDelay := by
  intro s t h hrise
  have hpoll := s.pollTimers_dt_le
  rcases step_cases h with ⟨-, -, rfl⟩ | ⟨-, -, -, rfl⟩ | ⟨hrun, u, hu, rfl⟩
  · exact absurd hrise (Nat.lt_irrefl _)
  · exact absurd hrise (Nat.not_lt.2 hpoll)
  · refine ⟨hrun, ?_⟩
    obtain ⟨-, -, -, -, -, hdt, -⟩ := eachFieldHasItsWriters _ _ _ hu
    refine hdt fun hkeep => ?_
    rw [State.closeStep_dt, hkeep] at hrise
    exact absurd hrise (Nat.not_lt.2 hpoll)
end

section
/-! What no instruction reads: the call stack, outside call and return (R30), `ST` and the reference times (R32, R38),
and the fault status (R212).  Replacing these fields before an instruction is replacing them after it. -/

namespace Sys2Proof.Machine

/-- The fields that no instruction reads, but for call and return the first two. -/
structure Hidden where
  sp : Fin 17
  stack : Vector Word 16
  st : Byte
  tTimer : Nat
  tInsn : Nat
  faultCause : FaultCause
  faultPc : Word
  faultInfo : Word

/-- The hidden fields of a state. -/
def State.hidden (s : State) : Hidden where
  sp := s.sp
  stack := s.stack
  st := s.st
  tTimer := s.tTimer
  tInsn := s.tInsn
  faultCause := s.faultCause
  faultPc := s.faultPc
  faultInfo := s.faultInfo

/-- The state with its hidden fields replaced. -/
def State.withHidden (s : State) (r : Hidden) : State :=
  { s with
    sp := r.sp
    stack := r.stack
    st := r.st
    tTimer := r.tTimer
    tInsn := r.tInsn
    faultCause := r.faultCause
    faultPc := r.faultPc
    faultInfo := r.faultInfo }

/-- What an instruction answers from `s` and from `s.withHidden r` when it does not read the hidden fields: it keeps
them in both, and does the same to the rest, or it raises the same fault in both. -/
inductive Alike (s : State) (r : Hidden) : State → State → Prop
  | keeps (t : State) (hh : t.halted = s.halted) (hk : t.hidden = s.hidden) : Alike s r t (t.withHidden r)
  | faults (cause : FaultCause) (info : Word) :
      Alike s r (s.raiseFault cause info) ((s.withHidden r).raiseFault cause info)

theorem Alike.ite {s : State} {r : Hidden} {p : Prop} [Decidable p] {t t' u u' : State} (ht : Alike s r t t')
    (hu : Alike s r u u') : Alike s r (if p then t else u) (if p then t' else u') := by
  split
  · exact ht
  · exact hu

theorem State.setRegs_withHidden (s : State) (r : Hidden) (k : Nat) (bs : List Byte) :
    (s.withHidden r).setRegs k bs = (s.setRegs k bs).withHidden r := by
  induction bs generalizing s k with
  | nil => rfl
  | cons b bs ih => exact ih { s with v := s.v.setIfInBounds k b } (k + 1)

theorem State.togglePixels_withHidden (s : State) (r : Hidden) (b : Bool) (ps : List (Column × Row)) :
    (s.withHidden r).togglePixels b ps = ((s.togglePixels b ps).1.withHidden r, (s.togglePixels b ps).2) := by
  induction ps generalizing s b with
  | nil => rfl
  | cons p ps ih => exact ih (s.togglePixel p) (b || s.disp.pixel p.1 p.2)

theorem drawSprite_withHidden (x y : Reg) (n : Nibble) (s : State) (r : Hidden) :
    drawSprite x y n (s.withHidden r) = (drawSprite x y n s).withHidden r := by
  simp only [drawSprite]
  exact congrArg (fun d : State × Bool => (d.1.setFlag d.2).present) (s.togglePixels_withHidden r false _)

/-- No instruction but call, return and set-sound reads or writes a hidden field, but to record a fault. -/
theorem exec_alike {i : Instr} (s : State) (r : Hidden) (hret : i ≠ .ret) (hcall : ∀ nnn, i ≠ .call nnn)
    (hsound : ∀ x, i ≠ .setSound x) :
    ∃ t t', exec i s = .next t ∧ exec i (s.withHidden r) = .next t' ∧ Alike s r t t' := by
  cases i with
  | ret => exact absurd rfl hret
  | call nnn => exact absurd rfl (hcall nnn)
  | setSound x => exact absurd rfl (hsound x)
  | storeBcd x =>
    exact ⟨_, _, execStoreBcd_eq x s, execStoreBcd_eq x _,
      .ite (.faults _ _) (.ite (.faults _ _) (.keeps _ rfl rfl))⟩
  | storeRegs x =>
    exact ⟨_, _, execStoreRegs_eq x s, execStoreRegs_eq x _,
      .ite (.faults _ _) (.ite (.faults _ _) (.keeps _ rfl rfl))⟩
  | loadRegs x =>
    refine ⟨_, _, execLoadRegs_eq x s, execLoadRegs_eq x _, .ite (.faults _ _) ?_⟩
    rw [State.setRegs_withHidden]
    exact .keeps _ (by rw [State.setRegs_eq]; rfl) (by rw [State.setRegs_eq]; rfl)
  | draw x y n =>
    refine ⟨_, _, execDraw_eq x y n s, execDraw_eq x y n _, .ite (.ite (.faults _ _) ?_) (.keeps _ rfl rfl)⟩
    rw [drawSprite_withHidden]
    exact .keeps _ (by rw [drawSprite_eq]) (by rw [drawSprite_eq]; rfl)
  | waitKey x =>
    cases hk : s.released with
    | none => exact ⟨_, _, execWaitKey_none x hk, execWaitKey_none (s := s.withHidden r) x hk, .keeps _ rfl rfl⟩
    | some k => exact ⟨_, _, execWaitKey_some x hk, execWaitKey_some (s := s.withHidden r) x hk, .keeps _ rfl rfl⟩
  | clearScreen | jump | skipEqConst | skipNeConst | skipEqReg | setConst | addConst | regCopy | regOr | regAnd | regXor
  | regAdd | regSub | shiftRight | regSubn | shiftLeft | skipNeReg | setIndex | jumpOffset | random | skipKeyDown
  | skipKeyUp | getDelay | setDelay | addIndex | fontAddress | unknown =>
    exact ⟨_, _, rfl, rfl, .keeps _ rfl rfl⟩

/-- A change of the next state goes into both branches of a check. -/
theorem mapNext_next_dite {p : Prop} [Decidable p] {g : State → State} {t t' : p → State} {u u' : State}
    (ht : ∀ h, g (t h) = t' h) (hu : g u = u') :
    mapNext g (.next (if h : p then t h else u)) = .next (if h : p then t' h else u') := by
  split
  · rw [mapNext_next, ht]
  · rw [mapNext_next, hu]

end Sys2Proof.Machine

open Sys2Proof Sys2Proof.Machine

/-- Settles O34: the two outcomes are alike, and what the instruction keeps is what was put there. -/
theorem stackIsPrivateToCallAndReturn : Obligations.StackIsPrivateToCallAndReturn := by
  intro i s sp stack hret hcall
  by_cases hsound : ∃ x, i = .setSound x
  · obtain ⟨x, rfl⟩ := hsound
    rfl
  · obtain ⟨t, t', h, h', ha⟩ := exec_alike s { s.hidden with sp := sp, stack := stack } hret hcall
      fun x hx => hsound ⟨x, hx⟩
    refine h'.trans ?_
    rw [h]
    cases ha with
    | keeps t hh hk => rw [← hk]; rfl
    | faults => rfl

/-- Settles O36: call and return check `SP` alone, set-sound writes `ST` whatever it held, and every other instruction
does alike. -/
theorem soundTimerAndReferenceTimesAreUnreadable : Obligations.SoundTimerAndReferenceTimesAreUnreadable := by
  intro i s st tTimer tInsn
  by_cases hret : i = .ret
  · subst hret
    refine (execRet_eq _).trans ((congrArg _ (execRet_eq s)).trans ?_).symm
    exact mapNext_next_dite (fun _ => rfl) rfl
  by_cases hcall : ∃ nnn, i = .call nnn
  · obtain ⟨nnn, rfl⟩ := hcall
    refine (execCall_eq nnn _).trans ((congrArg _ (execCall_eq nnn s)).trans ?_).symm
    exact mapNext_next_dite (fun _ => rfl) rfl
  by_cases hsound : ∃ x, i = .setSound x
  · obtain ⟨x, rfl⟩ := hsound
    simp only [if_pos (⟨x, rfl⟩ : ∃ z, Instr.setSound x = .setSound z)]
    rfl
  · obtain ⟨t, t', h, h', ha⟩ := exec_alike s { s.hidden with st := st, tTimer := tTimer, tInsn := tInsn } hret
      (fun nnn hn => hcall ⟨nnn, hn⟩) fun x hx => hsound ⟨x, hx⟩
    refine h'.trans ?_
    simp only [h, hsound, if_false]
    cases ha with
    | keeps t hh hk => rw [← hk]; rfl
    | faults => rfl

/-- Settles O37: an instruction that completes leaves the core running and the status as it was, and fault entry
writes the whole status. -/
theorem faultStatusIsUnreadable : Obligations.FaultStatusIsUnreadable := by
  intro i s cause fpc info hrun
  by_cases hret : i = .ret
  · subst hret
    refine (execRet_eq _).trans ((congrArg _ (execRet_eq s)).trans ?_).symm
    exact mapNext_next_dite (fun _ => if_neg (ne_true_of_eq_false hrun)) rfl
  by_cases hcall : ∃ nnn, i = .call nnn
  · obtain ⟨nnn, rfl⟩ := hcall
    refine (execCall_eq nnn _).trans ((congrArg _ (execCall_eq nnn s)).trans ?_).symm
    exact mapNext_next_dite (fun _ => if_neg (ne_true_of_eq_false hrun)) rfl
  by_cases hsound : ∃ x, i = .setSound x
  · obtain ⟨x, rfl⟩ := hsound
    exact congrArg Host.Outcome.next (if_neg (ne_true_of_eq_false hrun)).symm
  · obtain ⟨t, t', h, h', ha⟩ := exec_alike s
      { s.hidden with faultCause := cause, faultPc := fpc, faultInfo := info } hret
      (fun nnn hn => hcall ⟨nnn, hn⟩) fun x hx => hsound ⟨x, hx⟩
    refine h'.trans ?_
    rw [h]
    cases ha with
    | keeps t hh hk => rw [mapNext_next, if_neg (by simp [hh, hrun]), ← hk]; rfl
    | faults => rfl
end

section
/-! The state a run starts in (R45, R240, R241), and the invariants it meets. -/

namespace Sys2Proof.Machine

theorem boot_next (cfg : BootConfig) {image : List Byte} (h : image.length ≤ 3584) :
    boot cfg true (some image) = .next (bootState cfg image) := by
  rw [boot, if_neg (show ¬Config.progMax < image.length from Nat.not_lt.2 h), if_pos rfl]

/-- Memory with the font in it, before the image is loaded, is canonical. -/
theorem bootFont_wf (cfg : BootConfig) : (State.reset.mem.writeBytes 0 cfg.font.toList).wf = true :=
  Memory.writeBytes_wf _ rfl (by simp [Config.memSize])

theorem image_fits {image : List Byte} (h : image.length ≤ 3584) :
    Config.progBase + image.length ≤ Config.memSize := by
  simp only [Config.progBase, Config.memSize]; omega

theorem bootState_wf (cfg : BootConfig) {image : List Byte} (h : image.length ≤ 3584) :
    (bootState cfg image).mem.wf = true :=
  Memory.writeBytes_wf _ (bootFont_wf cfg) (image_fits h)

/-- Past the image, and below it, memory holds the font and zeros (R240). -/
theorem bootState_read_outside (cfg : BootConfig) {image : List Byte} (h : image.length ≤ 3584) {a : Nat}
    (ha : a < 0x200 ∨ 0x200 + image.length ≤ a) :
    (bootState cfg image).mem.read a = if hk : a < 80 then cfg.font[a] else 0#8 := by
  refine (Memory.read_writeBytes image a (bootFont_wf cfg) (image_fits h)).trans ?_
  rw [dif_neg (by simp only [Config.progBase]; omega),
    Memory.read_writeBytes _ a rfl (by simp [Config.memSize])]
  by_cases hk : a < 80
  · simp [hk]
  · simp only [hk, Vector.length_toList, Nat.sub_zero, and_false, dite_false]
    exact unlistedByte_past (Nat.not_lt.1 hk)

/-- The image stands at 0x200, byte by byte (R56, R240). -/
theorem bootState_read_image (cfg : BootConfig) {image : List Byte} (h : image.length ≤ 3584) {j : Nat}
    (hj : j < image.length) : (bootState cfg image).mem.read (0x200 + j) = image[j] := by
  refine (Memory.read_writeBytes image _ (bootFont_wf cfg) (image_fits h)).trans ?_
  rw [dif_pos (by simp only [Config.progBase]; omega)]
  simp [Config.progBase]

/-- Writing to empty memory what it reads as anyway lists nothing. -/
theorem Memory.writeBytes_unlisted (base : Nat) (bs : List Byte)
    (h : ∀ k, ∀ hk : k < bs.length, bs[k] = unlistedByte (base + k)) : Memory.writeBytes [] base bs = [] := by
  induction bs generalizing base with
  | nil => rfl
  | cons b bs ih =>
    have hb : b = unlistedByte base := h 0 (Nat.succ_pos _)
    rw [Memory.writeBytes, Memory.write, if_pos hb]
    refine ih (base + 1) fun k hk => ?_
    rw [Nat.add_assoc, Nat.add_comm 1 k]
    exact h (k + 1) (Nat.succ_lt_succ hk)

/-- The default boot with an empty image is the reset state (R45). -/
theorem bootState_default : bootState defaultBoot [] = State.reset := by
  have hmem : (bootState defaultBoot []).mem = [] :=
    Memory.writeBytes_unlisted 0 defaultFont.toList fun k hk => by simp [defaultFont]
  calc bootState defaultBoot [] = { State.reset with mem := (bootState defaultBoot []).mem } := rfl
    _ = State.reset := by rw [hmem]; rfl

/-- What every claim about a run may assume of the state it starts in. -/
theorem bootState_meetsInvariants (cfg : BootConfig) {image : List Byte} (h : image.length ≤ 3584) :
    let s := bootState cfg image
    s.mem.wf = true ∧ ClockInv s ∧ FrameInv s ∧ StatusInv s ∧ s.halted = false ∧ s.pc.toNat ≤ 0xFFE ∧
      (cfg.quitIn ≠ some 0 → s.running) := by
  have hpc : (bootState cfg image).pc.toNat ≤ 0xFFE := by show (0x200#16 : Word).toNat ≤ 0xFFE; decide
  refine ⟨bootState_wf cfg h, ⟨Nat.le_refl _, ?_, rfl⟩, fun _ => rfl, ?_, rfl, hpc, fun hq => ?_⟩
  · exact Nat.lt_add_of_pos_right cfg.rates.timerPeriod_pos
  · exact iff_of_false Bool.false_ne_true (not_not.2 rfl)
  · exact ⟨State.quit_eq_false.2 hq, rfl, hpc⟩

end Sys2Proof.Machine

open Sys2Proof Sys2Proof.Machine

/-- Settles O54: every field but memory is what `bootState` sets, and memory is read through what boot stored. -/
theorem bootGivesTheResetState : Obligations.BootGivesTheResetState := by
  intro cfg image h
  have hfont : ∀ k : Fin 80, (bootState cfg image).mem.read k.val = cfg.font.get k := fun k => by
    rw [bootState_read_outside cfg h (.inl (by omega)), dif_pos k.isLt]
    rfl
  have hgap : ∀ a, 0x050 ≤ a → a ≤ 0x1FF → (bootState cfg image).mem.read a = 0x00#8 := fun a h1 h2 => by
    rw [bootState_read_outside cfg h (.inl (by omega)), dif_neg (by omega)]
  have hrest : ∀ a, 0x200 + image.length ≤ a → a ≤ 0xFFF → (bootState cfg image).mem.read a = 0x00#8 :=
    fun a h1 _ => by rw [bootState_read_outside cfg h (.inr h1), dif_neg (by omega)]
  have hreg : ∀ z, (bootState cfg image).reg z = 0x00#8 := fun z => by
    simp [State.reg_eq, bootState, State.reset]
  have hstack : ∀ k, (bootState cfg image).stack.get k = 0x0000#16 := fun k => by
    simp [bootState, State.reset]
  have hkeys : ∀ k, (bootState cfg image).keyDown.get k = false := fun k => by
    simp [bootState, State.reset]
  exact ⟨_, boot_next cfg h, hreg, rfl, rfl, rfl, hstack, rfl, rfl, hfont, hgap,
    fun j hj => bootState_read_image cfg h hj, hrest, rfl, rfl, rfl, rfl, rfl, rfl, rfl, rfl, rfl, rfl,
    blankGrid_pixel, rfl, hkeys, rfl⟩

/-- Settles O56: the boot state meets the invariants, and the reset state is the one of the default configuration. -/
theorem resetMeetsTheInvariants : Obligations.ResetMeetsTheInvariants := by
  refine ⟨fun cfg image h => ⟨_, boot_next cfg h, bootState_meetsInvariants cfg h⟩, ?_, ?_⟩
  · rw [boot_next defaultBoot (Nat.zero_le _), bootState_default]
  · have hreset := bootState_meetsInvariants defaultBoot (image := []) (Nat.zero_le _)
    rwa [bootState_default] at hreset
end

section
/-! Memory over instructions, steps and runs: what is stored, and what stays as it was (R51, R53, R58). -/

namespace Sys2Proof.Machine

/-- From `s` to `t` memory is kept, or one run of bytes is stored, all of it inside memory and, under the default
policy, above the glyph region. -/
inductive StoresGuarded (s t : State) : Prop
  | keeps (hmem : t.mem = s.mem)
  | stores (base : Nat) (bs : List Byte) (hmem : t.mem = s.mem.writeBytes base bs)
      (hin : base + bs.length ≤ Config.memSize) (hglyph : s.glyphPolicy = .fault → 0x04F < base)

theorem StoresGuarded.wf {s t : State} (h : StoresGuarded s t) (hs : s.mem.wf = true) : t.mem.wf = true := by
  cases h with
  | keeps hmem => rw [hmem]; exact hs
  | stores base bs hmem hin => rw [hmem]; exact Memory.writeBytes_wf bs hs hin

theorem StoresGuarded.read_glyph {s t : State} (h : StoresGuarded s t) (hs : s.mem.wf = true)
    (hpol : s.glyphPolicy = .fault) {a : Nat} (ha : a ≤ 0x04F) : t.mem.read a = s.mem.read a := by
  cases h with
  | keeps hmem => rw [hmem]
  | stores base bs hmem hin hglyph =>
    have hbase := hglyph hpol
    rw [hmem, Memory.read_writeBytes bs a hs hin, dif_neg (by omega)]

/-- The glyph check, passed: under the default policy the access lies above the glyph region (R53, R58). -/
theorem above_glyphs_of_check {s : State} (h : ¬(indexAddress s.i 0 ≤ 0x04F ∧ s.glyphPolicy = .fault))
    (hpol : s.glyphPolicy = .fault) : 0x04F < indexAddress s.i 0 :=
  Nat.lt_of_not_le fun hle => h ⟨hle, hpol⟩

theorem execStoreBcd_storesGuarded {x : Reg} {s t : State} (h : execStoreBcd x s = .next t) :
    StoresGuarded s t := by
  rw [execStoreBcd_eq] at h
  obtain rfl := next_inj h
  split_ifs with hr hg
  · exact .keeps rfl
  · exact .keeps rfl
  · refine .stores _ _ rfl ?_ (above_glyphs_of_check hg)
    simp only [indexAddress, bcdDigits_length, Config.memSize] at hr ⊢
    omega

theorem storeRegs_fits {x : Reg} {s : State} (h : ¬0xFFF < indexAddress s.i x.val) :
    indexAddress s.i 0 + (s.regsUpTo x).length ≤ Config.memSize := by
  rw [State.regsUpTo_length]
  simp only [indexAddress, Config.memSize] at h ⊢
  omega

theorem execStoreRegs_storesGuarded {x : Reg} {s t : State} (h : execStoreRegs x s = .next t) :
    StoresGuarded s t := by
  rw [execStoreRegs_eq] at h
  obtain rfl := next_inj h
  split_ifs with hr hg
  · exact .keeps rfl
  · exact .keeps rfl
  · exact .stores _ _ rfl (storeRegs_fits hr) (above_glyphs_of_check hg)

/-- Only the two stores write memory (R61), and both check before they write (R58). -/
theorem exec_storesGuarded {i : Instr} {s t : State} (h : exec i s = .next t) : StoresGuarded s t := by
  by_cases hmem : t.mem = s.mem
  · exact .keeps hmem
  · obtain ⟨-, -, -, -, -, -, -, hwriters, -⟩ := eachFieldHasItsWriters i s t h
    rcases hwriters hmem with ⟨x, rfl⟩ | ⟨x, rfl⟩
    · exact execStoreBcd_storesGuarded h
    · exact execStoreRegs_storesGuarded h

/-- No instruction changes the glyph policy, a configuration (R53). -/
theorem exec_glyphPolicy {i : Instr} {s t : State} (h : exec i s = .next t) : t.glyphPolicy = s.glyphPolicy := by
  rcases exec_cases h with hc | ⟨cause, info, -, rfl⟩
  · cases hc with
    | loadsRegs => rw [State.setRegs_eq]; rfl
    | draws => rw [drawSprite_eq]
    | _ => rfl
  · rfl

theorem step_storesGuarded {s t : State} (h : step s = .next t) : StoresGuarded s t := by
  rcases step_cases h with ⟨-, -, rfl⟩ | ⟨-, -, -, rfl⟩ | ⟨-, u, hu, rfl⟩
  · exact .keeps rfl
  · exact .keeps rfl
  · have hend := u.closeStep_mem
    cases exec_storesGuarded hu with
    | keeps hmem => exact .keeps (hend.trans hmem)
    | stores base bs hmem hin hglyph => exact .stores base bs (hend.trans hmem) hin hglyph

theorem step_glyphPolicy {s t : State} (h : step s = .next t) : t.glyphPolicy = s.glyphPolicy := by
  rcases step_cases h with ⟨-, -, rfl⟩ | ⟨-, -, -, rfl⟩ | ⟨-, u, hu, rfl⟩
  · rfl
  · rfl
  · exact u.closeStep_glyphPolicy.trans (exec_glyphPolicy (s := s.pollTimers.fetched) hu)

/-- A run of `k + 1` steps that answers a state is a step that answers one, and a run of `k` steps from there. -/
theorem step_of_run_succ {k : Nat} {s t : State} (h : Host.Core.run core (k + 1) s = .next t) :
    ∃ u, step s = .next u ∧ Host.Core.run core k u = .next t := by
  cases hs : core.step s with
  | next u => exact ⟨u, hs, (run_succ_next hs k).symm.trans h⟩
  | fault r => simp [Host.Core.run, hs] at h
  | refused r => simp [Host.Core.run, hs] at h

/-- What every step keeps, every run keeps. -/
theorem run_keeps {P : State → Prop} (hstep : ∀ s t, P s → step s = .next t → P t) {k : Nat} {s t : State}
    (hs : P s) (h : Host.Core.run core k s = .next t) : P t := by
  induction k generalizing s with
  | zero => obtain rfl := next_inj h; exact hs
  | succ k ih =>
    obtain ⟨u, hu, hrun⟩ := step_of_run_succ h
    exact ih (hstep s u hs hu) hrun

/-- The glyph region reads as it does in `m`, and nothing can write it: memory is canonical and the policy is the
default one. -/
structure GlyphsAsIn (m : Memory) (s : State) : Prop where
  policy : s.glyphPolicy = .fault
  canonical : s.mem.wf = true
  reads : ∀ a, a ≤ 0x04F → s.mem.read a = m.read a

theorem step_keeps_glyphsAsIn {m : Memory} (s t : State) (hs : GlyphsAsIn m s) (h : step s = .next t) :
    GlyphsAsIn m t where
  policy := (step_glyphPolicy h).trans hs.policy
  canonical := (step_storesGuarded h).wf hs.canonical
  reads a ha := ((step_storesGuarded h).read_glyph hs.canonical hs.policy ha).trans (hs.reads a ha)

end Sys2Proof.Machine

open Sys2Proof Sys2Proof.Machine

/-- Settles O57: a step keeps memory or stores a run of bytes that lies inside it. -/
theorem stepKeepsMemoryCanonical : Obligations.StepKeepsMemoryCanonical :=
  fun _ _ hwf h => (step_storesGuarded h).wf hwf

/-- Settles O60, by induction on the number of steps: `GlyphsAsIn` the memory at the start is an invariant. -/
theorem glyphsAreNeverMutated : Obligations.GlyphsAreNeverMutated := by
  intro k s t hpol hwf h
  have hs : GlyphsAsIn s.mem s := ⟨hpol, hwf, fun _ _ => rfl⟩
  have ht := run_keeps step_keeps_glyphsAsIn hs h
  exact ⟨ht.policy, ht.reads⟩
end

section
/-! Reads and writes of memory (R59, R62, R63), the list form (DESIGN CHOICE 12), the instructions that do not touch
memory (R61), and the loader (R56). -/

namespace Sys2Proof.Machine

/-- A canonical list is canonical from its first address on. -/
theorem Memory.wfFrom_head {lo b : Nat} {w : Byte} {m : Memory} (hm : Memory.wfFrom lo ((b, w) :: m) = true) :
    Memory.wfFrom b ((b, w) :: m) = true :=
  Memory.wfFrom_cons.2 ⟨Nat.le_refl b, (Memory.wfFrom_cons.1 hm).2⟩

/-- A list that reads the same at the first address of a canonical one does not begin above it: an entry differs
from what an unlisted address reads as. -/
theorem Memory.le_of_read_head_eq {lo hi b : Nat} {w : Byte} {m q : Memory}
    (hm : Memory.wfFrom lo ((b, w) :: m) = true) (hq : Memory.wfFrom hi q = true)
    (h : Memory.read ((b, w) :: m) b = Memory.read q b) : hi ≤ b := by
  by_contra hlt
  obtain ⟨-, -, hw, -⟩ := Memory.wfFrom_cons.1 hm
  rw [Memory.read, if_pos rfl, Memory.read_below hq (Nat.lt_of_not_le hlt)] at h
  exact hw h

/-- No canonical list with an entry reads as the empty one does. -/
theorem Memory.read_head_ne_nil {lo b : Nat} {w : Byte} {m : Memory} (hm : Memory.wfFrom lo ((b, w) :: m) = true) :
    Memory.read ((b, w) :: m) b ≠ Memory.read [] b := fun h =>
  Nat.not_succ_le_self b (Memory.le_of_read_head_eq (hi := b + 1) hm rfl h)

theorem Memory.eq_of_reads_eq {lo hi : Nat} {m q : Memory} (hm : Memory.wfFrom lo m = true)
    (hq : Memory.wfFrom hi q = true) (h : ∀ a, Memory.read m a = Memory.read q a) : m = q := by
  induction m generalizing lo hi q with
  | nil =>
    cases q with
    | nil => rfl
    | cons f q => exact absurd (h f.1).symm (Memory.read_head_ne_nil hq)
  | cons e m ih =>
    cases q with
    | nil => exact absurd (h e.1) (Memory.read_head_ne_nil hm)
    | cons f q =>
      obtain ⟨b, w⟩ := e
      obtain ⟨c, v⟩ := f
      have hcb : c ≤ b := Memory.le_of_read_head_eq hm (Memory.wfFrom_head hq) (h b)
      have hbc : b ≤ c := Memory.le_of_read_head_eq hq (Memory.wfFrom_head hm) (h c).symm
      obtain rfl := Nat.le_antisymm hbc hcb
      obtain ⟨-, -, -, hm'⟩ := Memory.wfFrom_cons.1 hm
      obtain ⟨-, -, -, hq'⟩ := Memory.wfFrom_cons.1 hq
      have hwv : w = v := by simpa [Memory.read] using h b
      have hrest : ∀ a, Memory.read m a = Memory.read q a := fun a => by
        by_cases ha : a = b
        · rw [ha, Memory.read_below hm' b.lt_succ_self, Memory.read_below hq' b.lt_succ_self]
        · simpa [Memory.read, ha] using h a
      rw [hwv, ih hm' hq' hrest]

/-- What a store-regs that completes leaves at the address of each register it stores (R64, R164). -/
theorem execStoreRegs_read {x : Reg} {s t : State} (hwf : s.mem.wf = true) (h : execStoreRegs x s = .next t)
    (hrun : t.halted = false) {k : Reg} (hk : k ≤ x) : t.mem.read (indexAddress s.i k.val) = s.reg k := by
  rw [execStoreRegs_eq] at h
  obtain rfl := next_inj h
  split_ifs at hrun ⊢ with hr hg
  · cases hrun
  · cases hrun
  · have hlen := s.regsUpTo_length x
    have hkx := Fin.le_def.1 hk
    have hstored : indexAddress s.i 0 ≤ indexAddress s.i k.val ∧
        indexAddress s.i k.val - indexAddress s.i 0 < (s.regsUpTo x).length := by
      simp only [indexAddress]; omega
    rw [State.setIndex_mem, State.storeBytes_mem, Memory.read_writeBytes _ _ hwf (storeRegs_fits hr), dif_pos hstored,
      State.getElem_regsUpTo]
    congr 1
    exact Fin.ext (by simp [indexAddress])

/-- The state with its memory replaced. -/
def State.withMem (mem : Memory) (s : State) : State := { s with mem := mem }

/-- Replacing memory before an instruction and after it is the same, given what the instruction answers in both
states. -/
theorem exec_withMem_of_next {i : Instr} {s t : State} {mem : Memory} (h : exec i s = .next t)
    (h' : exec i (s.withMem mem) = .next (t.withMem mem)) :
    exec i (s.withMem mem) = mapNext (State.withMem mem) (exec i s) := by
  rw [h', h, mapNext_next]

/-- No instruction but draw, store-bcd, store-regs and load-regs reads or writes memory (R61): call and return check
`SP` alone, wait-key the released latch alone, and the others left check nothing. -/
theorem exec_withMem {i : Instr} (s : State) (mem : Memory) (hdraw : ∀ x y n, i ≠ .draw x y n)
    (hbcd : ∀ x, i ≠ .storeBcd x) (hstore : ∀ x, i ≠ .storeRegs x) (hload : ∀ x, i ≠ .loadRegs x) :
    exec i (s.withMem mem) = mapNext (State.withMem mem) (exec i s) := by
  cases i with
  | draw x y n => exact absurd rfl (hdraw x y n)
  | storeBcd x => exact absurd rfl (hbcd x)
  | storeRegs x => exact absurd rfl (hstore x)
  | loadRegs x => exact absurd rfl (hload x)
  | ret =>
    refine exec_withMem_of_next (execRet_eq s) ((execRet_eq _).trans ?_)
    rw [apply_dite (State.withMem mem)]
    rfl
  | call nnn =>
    refine exec_withMem_of_next (execCall_eq nnn s) ((execCall_eq nnn _).trans ?_)
    rw [apply_dite (State.withMem mem)]
    rfl
  | waitKey x =>
    cases hk : s.released with
    | none => exact exec_withMem_of_next (execWaitKey_none x hk) (execWaitKey_none (s := s.withMem mem) x hk)
    | some k => exact exec_withMem_of_next (execWaitKey_some x hk) (execWaitKey_some (s := s.withMem mem) x hk)
  | clearScreen | jump | skipEqConst | skipNeConst | skipEqReg | setConst | addConst | regCopy | regOr | regAnd | regXor
  | regAdd | regSub | shiftRight | regSubn | shiftLeft | skipNeReg | setIndex | jumpOffset | random | skipKeyDown
  | skipKeyUp | getDelay | setDelay | setSound | addIndex | fontAddress | unknown => rfl

end Sys2Proof.Machine

open Sys2Proof Sys2Proof.Machine

/-- Settles O23: the two bytes of the word are those stored from the registers 0 and 1. -/
theorem storedBytesAreFetched : Obligations.StoredBytesAreFetched := by
  intro s t x hwf hx h hrun
  have hhigh : t.mem.read (indexAddress s.i 0) = s.reg 0 := execStoreRegs_read hwf h hrun (k := 0) (Fin.zero_le x)
  have hlow : t.mem.read (indexAddress s.i 0 + 1) = s.reg 1 :=
    execStoreRegs_read hwf h hrun (k := 1) (Fin.le_def.2 hx)
  have hword : t.mem.word (indexAddress s.i 0) = wordOfBytes (s.reg 0) (s.reg 1) := by
    rw [Memory.word, hhigh, hlow]
  refine ⟨hword, fun u hmem hpc => ?_⟩
  rw [State.nextInstr, hmem, hpc]
  exact congrArg decodeWord hword

/-- Settles O24 by the law of a read after a write. -/
theorem readReturnsTheLastWrite : Obligations.ReadReturnsTheLastWrite :=
  fun _ _ _ _ hwf => Memory.read_write_from hwf

/-- Settles O25, by induction on the two lists: neither begins above the other, and where both begin the entries
agree. -/
theorem canonicalMemoriesAreDeterminedByReads : Obligations.CanonicalMemoriesAreDeterminedByReads :=
  fun _ _ hm hq h => Memory.eq_of_reads_eq hm hq h

/-- Settles O35: an instruction that does not touch memory commutes with replacing it. -/
theorem memoryIsPrivateToItsInstructions : Obligations.MemoryIsPrivateToItsInstructions :=
  fun _ s mem hdraw hbcd hstore hload => exec_withMem s mem hdraw hbcd hstore hload

/-- Settles O55: boot tests the image's length before it asks the collaborators, and what it copied reads back. -/
theorem loaderPlacesOrRefusesTheImage : Obligations.LoaderPlacesOrRefusesTheImage := by
  refine ⟨fun cfg ready image hlong => ?_, fun _ _ => rfl, fun cfg image hfits => ⟨?_, ?_⟩⟩
  · rw [boot, if_pos (show Config.progMax < image.length from hlong)]
  · rw [boot, if_neg (show ¬Config.progMax < image.length from Nat.not_lt.2 hfits)]
    rfl
  · exact ⟨_, boot_next cfg hfits, fun _ hj => bootState_read_image cfg hfits hj⟩
end

section
/-! The decoder and the encoder against each other, and both against the opcode map (R71, R74 to R78).  Two case
analyses carry it: along the decoder's branches, every word is the encoding of what it decodes to; along the
instructions, each one's word is of its row of the map (`Laws/PerInstr.lean`).  The rest follows from the two. -/

namespace Sys2Proof

/-! ### Words from their fields -/

theorem toNat_constNNN (w : Word) : (constNNN w).toNat = w.toNat % 4096 := by
  simp only [constNNN, bits, BitVec.toNat_ofNat]; omega

theorem toNat_constNN (w : Word) : (constNN w).toNat = fieldNN w :=
  Nat.mod_eq_of_lt (fieldNN_lt w)

theorem toNat_constN (w : Word) : (constN w).toNat = fieldN w :=
  Nat.mod_eq_of_lt (fieldN_lt w)

/-- A word is its family nibble and its 12-bit constant (format `A`, R71). -/
theorem formatA_of_fields {w : Word} {f : Nat} (hF : fieldF w = f) : formatA f (constNNN w) = w := by
  have hf : f < 16 := hF ▸ fieldF_lt w
  have hw := w.isLt
  apply BitVec.eq_of_toNat_eq
  rw [toNat_formatA hf, toNat_constNNN, ← hF]
  simp only [fieldF, bits]; omega

/-- A word is its family nibble, its first register and its low byte (formats `XK` and `X`, R71). -/
theorem formatXK_of_fields {w : Word} {f : Nat} {nn : Byte} (hF : fieldF w = f) (hNN : fieldNN w = nn.toNat) :
    formatXK f (fieldX w) nn = w := by
  have hf : f < 16 := hF ▸ fieldF_lt w
  have hw := w.isLt
  apply BitVec.eq_of_toNat_eq
  rw [toNat_formatXK hf, ← hNN, ← hF]
  simp only [fieldF, fieldX, fieldNN, bits, Fin.val_ofNat]; omega

/-- A word is its family nibble, its two registers and its low nibble (formats `XY` and `XYN`, R71). -/
theorem formatXYN_of_fields {w : Word} {f : Nat} {n : Nibble} (hF : fieldF w = f) (hN : fieldN w = n.toNat) :
    formatXYN f (fieldX w) (fieldY w) n = w := by
  have hf : f < 16 := hF ▸ fieldF_lt w
  have hw := w.isLt
  apply BitVec.eq_of_toNat_eq
  rw [toNat_formatXYN hf, ← hN, ← hF]
  simp only [fieldF, fieldX, fieldY, fieldN, bits, Fin.val_ofNat]; omega

/-! ### The listed words, by their fields -/

theorem family_eq_iff {f p : Nat} : f * 4096 = p ↔ f = p / 4096 ∧ p % 4096 = 0 := by omega

theorem family_add_eq_iff {f low p : Nat} (h : low < 4096) :
    f * 4096 + low = p ↔ f = p / 4096 ∧ low = p % 4096 := by omega

/-- The opcode map of R75 read by fields, as the decoder reads it. -/
theorem isListed_iff (w : Word) : isListed w = true ↔
    (fieldF w = 0 ∧ (w = 0x00E0#16 ∨ w = 0x00EE#16)) ∨ fieldF w ∈ [1, 2, 3, 4] ∨
    (fieldF w = 5 ∧ fieldN w = 0) ∨ fieldF w ∈ [6, 7] ∨ (fieldF w = 8 ∧ fieldN w ∈ [0, 1, 2, 3, 4, 5, 6, 7, 0xE]) ∨
    (fieldF w = 9 ∧ fieldN w = 0) ∨ fieldF w ∈ [0xA, 0xB, 0xC, 0xD] ∨
    (fieldF w = 0xE ∧ fieldNN w ∈ [0x9E, 0xA1]) ∨
    (fieldF w = 0xF ∧ fieldNN w ∈ [0x07, 0x0A, 0x15, 0x18, 0x1E, 0x29, 0x33, 0x55, 0x65]) := by
  have hN : fieldN w < 4096 := Nat.lt_trans (fieldN_lt w) (by decide)
  have hNN : fieldNN w < 4096 := Nat.lt_trans (fieldNN_lt w) (by decide)
  have hE0 : fieldF w = 0 ∧ w = 0x00E0#16 ↔ w = 0x00E0#16 := and_iff_right_of_imp (by rintro rfl; rfl)
  have hEE : fieldF w = 0 ∧ w = 0x00EE#16 ↔ w = 0x00EE#16 := and_iff_right_of_imp (by rintro rfl; rfl)
  simp [isListed, opcodeRows, opcodeRows1, opcodeRows2, opcodeRows3, opcodeRows4, opcodeRows5, hits_F000,
    hits_F00F, hits_F0FF, hits_FFFF, hE0, hEE, family_eq_iff, family_add_eq_iff hN,
    family_add_eq_iff hNN, and_or_left, or_assoc]

/-! ### Every word is the encoding of what it decodes to -/

/-- The instruction is well formed, and the word is its encoding. -/
def EncodesBack (w : Word) (i : Instr) : Prop := encode i = w ∧ i.wellFormed = true

/-- An unlisted word is the encoding of `unknown`, which carries it. -/
theorem encodesBack_unknown {w : Word} (h : ¬isListed w = true) : EncodesBack w (.unknown w) :=
  ⟨rfl, by simpa [Instr.wellFormed] using h⟩

theorem decodeFamily0_encodesBack {w : Word} (hF : fieldF w = 0) : EncodesBack w (decodeFamily0 w) := by
  unfold decodeFamily0
  split_ifs with hE0 hEE
  · exact ⟨hE0.symm, rfl⟩
  · exact ⟨hEE.symm, rfl⟩
  · exact encodesBack_unknown (by simp [isListed_iff, hF, hE0, hEE])

theorem decodeFamily8_encodesBack {w : Word} (hF : fieldF w = 8) : EncodesBack w (decodeFamily8 w) := by
  unfold decodeFamily8
  split
  case h_10 => exact encodesBack_unknown (by simp_all [isListed_iff])
  all_goals exact ⟨formatXYN_of_fields hF ‹_›, rfl⟩

theorem decodeFamilyE_encodesBack {w : Word} (hF : fieldF w = 0xE) : EncodesBack w (decodeFamilyE w) := by
  unfold decodeFamilyE
  split_ifs with h9E hA1
  · exact ⟨formatXK_of_fields hF h9E, rfl⟩
  · exact ⟨formatXK_of_fields hF hA1, rfl⟩
  · exact encodesBack_unknown (by simp [isListed_iff, hF, h9E, hA1])

theorem decodeFamilyF_encodesBack {w : Word} (hF : fieldF w = 0xF) : EncodesBack w (decodeFamilyF w) := by
  unfold decodeFamilyF
  split_ifs
  case neg => exact encodesBack_unknown (by simp [isListed_iff, *])
  all_goals exact ⟨formatXK_of_fields hF ‹_›, rfl⟩

/-- Every word is the encoding of what it decodes to, which is well formed (R74), along the decoder's branches. -/
theorem decodeWord_encodesBack (w : Word) : EncodesBack w (decodeWord w) := by
  unfold decodeWord
  split
  case h_1 hF => exact decodeFamily0_encodesBack hF
  case h_2 hF | h_3 hF | h_11 hF | h_12 hF => exact ⟨formatA_of_fields hF, rfl⟩
  case h_4 hF | h_5 hF | h_7 hF | h_8 hF | h_13 hF => exact ⟨formatXK_of_fields hF (toNat_constNN w).symm, rfl⟩
  case h_6 hF | h_10 hF =>
    split_ifs with h0
    · exact ⟨formatXYN_of_fields hF h0, rfl⟩
    · exact encodesBack_unknown (by simp [isListed_iff, hF, h0])
  case h_9 hF => exact decodeFamily8_encodesBack hF
  case h_14 hF => exact ⟨formatXYN_of_fields hF (toNat_constN w).symm, rfl⟩
  case h_15 hF => exact decodeFamilyE_encodesBack hF
  case h_16 =>
    have := fieldF_lt w
    exact decodeFamilyF_encodesBack (by grind)

@[simp] theorem encode_decodeWord (w : Word) : encode (decodeWord w) = w := (decodeWord_encodesBack w).1

@[simp] theorem decodeWord_wellFormed (w : Word) : (decodeWord w).wellFormed = true := (decodeWord_encodesBack w).2

/-! ### The word of an instruction is of its row -/

namespace Laws.EncodesToRow

/-- The laws of `Laws/PerInstr.lean`, for any instruction. -/
theorem all : ∀ i : Instr, Statement i
  | .clearScreen => clearScreen
  | .ret => ret
  | .jump nnn => jump nnn
  | .call nnn => call nnn
  | .skipEqConst x nn => skipEqConst x nn
  | .skipNeConst x nn => skipNeConst x nn
  | .skipEqReg x y => skipEqReg x y
  | .setConst x nn => setConst x nn
  | .addConst x nn => addConst x nn
  | .regCopy x y => regCopy x y
  | .regOr x y => regOr x y
  | .regAnd x y => regAnd x y
  | .regXor x y => regXor x y
  | .regAdd x y => regAdd x y
  | .regSub x y => regSub x y
  | .shiftRight x y => shiftRight x y
  | .regSubn x y => regSubn x y
  | .shiftLeft x y => shiftLeft x y
  | .skipNeReg x y => skipNeReg x y
  | .setIndex nnn => setIndex nnn
  | .jumpOffset nnn => jumpOffset nnn
  | .random x nn => random x nn
  | .draw x y n => draw x y n
  | .skipKeyDown x => skipKeyDown x
  | .skipKeyUp x => skipKeyUp x
  | .getDelay x => getDelay x
  | .waitKey x => waitKey x
  | .setDelay x => setDelay x
  | .setSound x => setSound x
  | .addIndex x => addIndex x
  | .fontAddress x => fontAddress x
  | .storeBcd x => storeBcd x
  | .storeRegs x => storeRegs x
  | .loadRegs x => loadRegs x
  | .unknown w => unknown w

end Laws.EncodesToRow

/-- The mnemonics of the opcode map are distinct: looking one up finds its row. -/
theorem find?_mnemonic : ∀ r ∈ opcodeRows, opcodeRows.find? (fun q => q.mnemonic == r.mnemonic) = some r := by
  decide

/-- Every instruction but `unknown` has a row of the opcode map. -/
theorem Instr.hasRow_or_unknown (i : Instr) :
    (∃ r, opcodeRows.find? (fun q => q.mnemonic == i.mnemonic) = some r) ∨ ∃ w, i = .unknown w := by
  cases i with
  | unknown w => exact .inr ⟨w, rfl⟩
  | _ => exact .inl ⟨_, rfl⟩

/-- A word is of the row of what it decodes to, or it decodes to `unknown`, carrying itself. -/
theorem decodeWord_row_or_unknown (w : Word) :
    (∃ r ∈ opcodeRows, r.mnemonic = (decodeWord w).mnemonic ∧ r.hits w = true) ∨ decodeWord w = .unknown w := by
  rcases (decodeWord w).hasRow_or_unknown with ⟨r, hr⟩ | ⟨v, hv⟩
  · have hrow := Laws.EncodesToRow.all (decodeWord w) (decodeWord_wellFormed w)
    rw [hr, encode_decodeWord] at hrow
    exact .inl ⟨r, List.mem_of_find?_eq_some hr, by simpa using List.find?_some hr, hrow⟩
  · have hvw : v = w := by simpa [hv, encode] using encode_decodeWord w
    exact .inr (hvw ▸ hv)

theorem isListed_eq_false_iff_no_row (w : Word) :
    isListed w = false ↔ ∀ r, r ∈ opcodeRows → r.hits w = false := by
  simp [isListed]

/-- The `unknown` space of R77 is the words that decode to `unknown`, carrying themselves. -/
theorem isListed_eq_false_iff_unknown (w : Word) : isListed w = false ↔ decodeWord w = .unknown w := by
  constructor
  · intro h
    refine (decodeWord_row_or_unknown w).resolve_left ?_
    rintro ⟨r, hr, -, hhit⟩
    simp [(isListed_eq_false_iff_no_row w).1 h r hr] at hhit
  · intro h
    simpa [h, Instr.wellFormed] using decodeWord_wellFormed w

/-- The rows of the opcode map are disjoint: where two agree on the bits both fix, they are one row. -/
theorem opcodeRow_eq_of_agree : ∀ r ∈ opcodeRows, ∀ q ∈ opcodeRows,
    r.pattern &&& q.mask = q.pattern &&& r.mask → r = q := by
  decide

theorem opcodeRow_eq_of_hits {w : Word} {r q : OpcodeRow} (hr : r ∈ opcodeRows) (hq : q ∈ opcodeRows)
    (hrw : r.hits w = true) (hqw : q.hits w = true) : r = q := by
  refine opcodeRow_eq_of_agree r hr q hq ?_
  rw [← beq_iff_eq.1 hrw, ← beq_iff_eq.1 hqw]
  ac_rfl

/-- A word is of a row exactly when it decodes to the row's family (R75, R76). -/
theorem hits_iff_mnemonic {w : Word} {r : OpcodeRow} (hr : r ∈ opcodeRows) :
    r.hits w = true ↔ (decodeWord w).mnemonic = r.mnemonic := by
  constructor
  · intro hrw
    rcases decodeWord_row_or_unknown w with ⟨q, hq, hm, hqw⟩ | hu
    · rw [opcodeRow_eq_of_hits hr hq hrw hqw, hm]
    · rw [← isListed_eq_false_iff_unknown, isListed_eq_false_iff_no_row] at hu
      simp [hu r hr] at hrw
  · intro hm
    have hrow := Laws.EncodesToRow.all (decodeWord w) (decodeWord_wellFormed w)
    rwa [hm, find?_mnemonic r hr, encode_decodeWord] at hrow

/-- Decoding is the inverse of encoding on the well-formed instructions (R74). -/
theorem decodeWord_encode {i : Instr} (h : i.wellFormed = true) : decodeWord (encode i) = i := by
  cases i with
  | unknown w => exact (isListed_eq_false_iff_unknown w).1 (by simpa [Instr.wellFormed] using h)
  | clearScreen | ret => rfl
  | _ => simp [encode, decodeWord, decodeFamily8, decodeFamilyE, decodeFamilyF]

end Sys2Proof

open Sys2Proof Sys2Proof.Machine

/-- Settles O2: the fields of a format are read back as they were laid out, and an unlisted word is `unknown`. -/
theorem decodeOfEncodeIsIdentity : Obligations.DecodeOfEncodeIsIdentity :=
  fun i h => ⟨decodeWord_encode h, fun rest => by rw [encodeBytes, decode_bytesOfWord, decodeWord_encode h]⟩

/-- Settles O3, along the decoder's branches: each rebuilds the word from the fields it read. -/
theorem encodeOfDecodeIsIdentity : Obligations.EncodeOfDecodeIsIdentity := decodeWord_encodesBack

/-- Settles O4: a word is of the row of what it decodes to, and of no other row. -/
theorem decoderFollowsOpcodeMap : Obligations.DecoderFollowsOpcodeMap :=
  ⟨fun _ _ hr => hits_iff_mnemonic hr, fun _ _ _ hr hq => opcodeRow_eq_of_hits hr hq,
    fun w => (isListed_eq_false_iff_no_row w).symm.trans (isListed_eq_false_iff_unknown w)⟩

/-- Settles O1, by evaluating the decoder. -/
theorem writtenOutWordsDecode : Obligations.WrittenOutWordsDecode := by
  unfold Obligations.WrittenOutWordsDecode
  decide

/-- Settles O38: an instruction that checks before it writes answers next on either side of its checks, and the
others check nothing. -/
theorem everyInstructionAnswersNext : Obligations.EveryInstructionAnswersNext := by
  intro i s
  cases i with
  | ret => exact ⟨_, execRet_eq s⟩
  | call nnn => exact ⟨_, execCall_eq nnn s⟩
  | storeBcd x => exact ⟨_, execStoreBcd_eq x s⟩
  | storeRegs x => exact ⟨_, execStoreRegs_eq x s⟩
  | loadRegs x => exact ⟨_, execLoadRegs_eq x s⟩
  | draw x y n => exact ⟨_, execDraw_eq x y n s⟩
  | waitKey x =>
    cases h : s.released with
    | none => exact ⟨_, execWaitKey_none x h⟩
    | some k => exact ⟨_, execWaitKey_some x h⟩
  | _ => exact ⟨_, rfl⟩
end

section
/-! The instruction action of a step (R90 to R101, R213): what a running core runs, that it halts exactly when the fetch
or the instruction meets a fault condition, and that it pumps the input once unless it halts. -/

namespace Sys2Proof.Machine

/-! ### The instruction of a step -/

/-- The step of a running core, with the fetch of R92 and the end of the action written out. -/
theorem step_of_running {s : State} (hr : s.running) :
    step s = mapNext (fun t => if t.halted then t.recordInsn else t.pump.recordInsn.environmentTurn)
      (exec (decodeWord (s.mem.word s.pc.toNat)) { s.pollTimers with
        fetchAddr := s.pc, ir := s.mem.word s.pc.toNat, pc := s.pc + 2#16 }) :=
  (step_fetch hr).trans (congrArg (mapNext · _) (funext State.afterExecute_closeStep))

/-- What decodes from the two bytes at an address decodes from the word there (R59). -/
theorem decodeWord_of_decode_bytes {m : Memory} {a : Nat} {i : Instr} {rest : List Byte}
    (h : decode (m.read a :: m.read (a + 1) :: rest) = .ok (i, rest)) : decodeWord (m.word a) = i :=
  congrArg Prod.fst (Except.ok.inj h)

/-! ### Faults -/

/-- No instruction that completes changes `HALTED` (R34). -/
theorem Completes.halted_eq {i : Instr} {s t : State} (hc : Completes s i t) : t.halted = s.halted := by
  cases hc with
  | loadsRegs => rw [State.setRegs_eq]; rfl
  | draws => rw [drawSprite_eq]
  | _ => rfl

/-- An instruction that halts a running core raised one of its own faults. -/
theorem faults_of_exec_halts {i : Instr} {s t : State} (hrun : s.halted = false) (h : exec i s = .next t)
    (hhalt : t.halted = true) : Faults i s t := by
  refine (exec_cases h).resolve_left fun hc => ?_
  rw [hc.halted_eq, hrun] at hhalt
  cases hhalt

theorem execStoreBcd_glyphWrite {s : State} (x : Reg) (hpol : s.glyphPolicy = .fault)
    (hlow : indexAddress s.i 0 ≤ 0x04F) : execStoreBcd x s = .next (s.raiseFault .glyphWrite s.i) := by
  have hin : ¬0xFFF < indexAddress s.i 2 := by simp only [indexAddress] at hlow ⊢; omega
  rw [execStoreBcd_eq, if_neg hin, if_pos ⟨hlow, hpol⟩]

theorem execStoreRegs_glyphWrite {s : State} (x : Reg) (hpol : s.glyphPolicy = .fault)
    (hlow : indexAddress s.i 0 ≤ 0x04F) : execStoreRegs x s = .next (s.raiseFault .glyphWrite s.i) := by
  have hin : ¬0xFFF < indexAddress s.i x.val := by simp only [indexAddress] at hlow ⊢; omega
  rw [execStoreRegs_eq, if_neg hin, if_pos ⟨hlow, hpol⟩]

/-- An instruction one of whose fault conditions holds raises that fault (R211, R216). -/
theorem exec_raiseFault {i : Instr} {s : State} {cause : FaultCause} {info : Word} (h : RaisesFault i s cause info) :
    exec i s = .next (s.raiseFault cause info) := by
  rcases h with ⟨rfl, hsp, rfl, nnn, rfl⟩ | ⟨rfl, hsp, rfl, rfl⟩ | ⟨rfl, rfl, ⟨x, rfl, hr⟩ | ⟨x, y, n, rfl, hopen, hr⟩⟩ |
    ⟨rfl, rfl, ⟨x, rfl, hr⟩ | ⟨x, rfl, hr⟩⟩ | ⟨rfl, rfl, hpol, hlow, ⟨x, rfl⟩ | ⟨x, rfl⟩⟩
  · exact (execCall_eq nnn s).trans (by rw [dif_neg (by simp [hsp])])
  · exact execRet_empty s (by simp [hsp])
  · exact (execLoadRegs_eq x s).trans (by rw [if_pos hr])
  · exact (execDraw_eq x y n s).trans (by rw [if_pos hopen, if_pos hr])
  · exact (execStoreBcd_eq x s).trans (by rw [if_pos hr])
  · exact (execStoreRegs_eq x s).trans (by rw [if_pos hr])
  · exact execStoreBcd_glyphWrite x hpol hlow
  · exact execStoreRegs_glyphWrite x hpol hlow

/-- The step of a running core whose instruction meets a fault condition is fault entry, recorded in `T_INSN`. -/
theorem step_raiseFault {s : State} {cause : FaultCause} {info : Word} (hr : s.running)
    (h : RaisesFault s.nextInstr s.pollTimers.fetched cause info) :
    step s = .next (s.pollTimers.fetched.raiseFault cause info).recordInsn := by
  rw [step_fetch hr, exec_raiseFault h]
  rfl

/-! ### The input pump -/

/-- The timer half of a step pulses no port but `tone` (R219, R221). -/
theorem State.pump_notMem_pollTimers_out (s : State) : Output.pump ∉ s.pollTimers.out := by
  refine State.pollTimers_induction (P := fun u => Output.pump ∉ u.out) List.not_mem_nil fun u now _ hu => ?_
  rw [State.pollTimer_out, State.timerAction_out]
  split_ifs
  · exact hu
  · simpa using hu
  · exact hu

/-- No instruction pumps the input itself: the only ports instructions pulse are the display's and `diag_unknown`. -/
theorem exec_pump_notMem {i : Instr} {s t : State} (h : exec i s = .next t) (hs : Output.pump ∉ s.out) :
    Output.pump ∉ t.out := by
  by_cases hout : t.out = s.out
  · rwa [hout]
  obtain ⟨-, -, -, -, -, -, -, -, -, -, -, -, -, hwriters, -⟩ := eachFieldHasItsWriters i s t h
  rcases hwriters hout with rfl | ⟨x, y, n, rfl⟩ | ⟨w, rfl⟩
  · obtain rfl := next_inj h
    simpa using hs
  · rcases execDraw_cases h with hc | ⟨cause, info, -, rfl⟩
    · cases hc with
      | defersDraw => exact hs
      | draws => rw [drawSprite_eq]; simpa using hs
      | setsReg _ _ hx | setsRegAndFlag _ _ _ hx => exact hx.elim
      | setsPc _ hi => cases hi
    · exact hs
  · obtain rfl := next_inj h
    simpa using hs

/-! ### Deferral -/

theorem execDraw_closed {s : State} (x y : Reg) (n : Nibble) (h : s.frameOpen = false) :
    execDraw x y n s = .next s.defer := by
  rw [execDraw_eq, if_neg (ne_true_of_eq_false h)]

/-- The environment's turn leaves the core not quit, unless the host quits at the end of this very action (R225). -/
theorem State.quit_environmentTurn_eq_false {s : State} (hq : s.quit = false) (hlast : s.quitIn ≠ some 1) :
    s.environmentTurn.quit = false := by
  rw [State.quit_eq_false] at hq ⊢
  rw [State.environmentTurn_quitIn]
  cases h : s.quitIn with
  | none => simp
  | some n =>
    have h0 : n ≠ 0 := by simpa [h] using hq
    have h1 : n ≠ 1 := by simpa [h] using hlast
    rw [Option.map_some, ne_eq, Option.some_inj]
    omega

/-- The step of a running core whose instruction defers puts `PC` back, pumps, and ends (R98, R99). -/
theorem step_defer {s : State} (hr : s.running)
    (h : exec s.nextInstr s.pollTimers.fetched = .next s.pollTimers.fetched.defer) :
    step s = .next s.pollTimers.fetched.defer.pump.recordInsn.environmentTurn := by
  have hrun : s.pollTimers.fetched.defer.halted = false := hr.2.1
  rw [step_fetch hr, h, mapNext_next, State.afterExecute_closeStep, if_neg (ne_true_of_eq_false hrun)]

end Sys2Proof.Machine

open Sys2Proof Sys2Proof.Machine

/-- Settles O39: an instruction that completes does not halt the core, so it raised one of its own faults. -/
theorem instructionFaultsArePrecise : Obligations.InstructionFaultsArePrecise :=
  fun _ _ _ hrun h hhalt => faults_of_exec_halts hrun h hhalt

/-- Settles O44: the bytes at `PC` decode to the instruction their word decodes to, and the word is its encoding. -/
theorem stepRunsTheDecodedInstruction : Obligations.StepRunsTheDecodedInstruction := by
  intro s i rest hr _ hdec
  obtain rfl := decodeWord_of_decode_bytes hdec
  have hpc : BitVec.ofNat 16 (s.pc.toNat + 2) = s.pc + 2#16 := by simp [BitVec.ofNat_add]
  rw [encode_decodeWord, hpc]
  exact step_of_running hr

/-- Settles O41: above 0xFFE the step is the fetch fault; at 0xFFE the core runs. -/
theorem fetchPastMemoryHalts : Obligations.FetchPastMemoryHalts := by
  refine fun s hq hh => ⟨fun hp => step_fetchFault hq hh hp, fun hpc => ?_⟩
  have hstep := step_of_running (s := s) ⟨hq, hh, by simp [hpc]⟩
  have hword : s.mem.word (0x0FFE#16 : Word).toNat = wordOfBytes (s.mem.read 0xFFE) (s.mem.read 0xFFF) := rfl
  rw [hpc, hword] at hstep
  exact hstep

/-- Settles O42: each fault condition of the fetch or the instruction is raised, and a step that halts took the fetch
fault or ran an instruction that raised one of its own. -/
theorem faultEntryRecordsTheFault : Obligations.FaultEntryRecordsTheFault := by
  refine fun s hq hh => ⟨?_, fun t h hhalt => ?_⟩
  · rintro cause info (⟨hp, rfl, rfl⟩ | ⟨hp, hf⟩)
    · exact ⟨_, step_fetchFault hq hh hp, rfl⟩
    · exact ⟨_, step_raiseFault ⟨hq, hh, hp⟩ hf, rfl⟩
  · rcases step_cases h with ⟨-, hh', -⟩ | ⟨-, -, hp, -⟩ | ⟨hr, u, hu, rfl⟩
    · simp [hh] at hh'
    · exact ⟨_, _, .inl ⟨hp, rfl, rfl⟩⟩
    · rw [State.closeStep_halted] at hhalt
      obtain ⟨cause, info, hf, -⟩ := faults_of_exec_halts (s := s.pollTimers.fetched) hh hu hhalt
      exact ⟨cause, info, .inr ⟨hr.2.2, hf⟩⟩

/-- Settles O49: neither the timers nor the instruction pump, and the end of the action pumps unless it halted. -/
theorem eachActionPumpsOnce : Obligations.EachActionPumpsOnce := by
  intro s t hr h
  rw [step_fetch hr] at h
  obtain ⟨u, hu, rfl⟩ := mapNext_eq_next h
  have hnone : Output.pump ∉ u.out := exec_pump_notMem hu s.pump_notMem_pollTimers_out
  rw [State.closeStep_halted, State.afterExecute_closeStep]
  constructor
  · intro hrun
    simp [hrun, List.count_eq_zero_of_not_mem hnone]
  · intro hhalt
    obtain ⟨cause, info, -, rfl⟩ := faults_of_exec_halts (s := s.pollTimers.fetched) hr.2.1 hu hhalt
    exact ⟨hnone, rfl, rfl⟩

/-- Settles O53: a closed window and an empty latch make the instruction defer, and the rest of the step writes none of
the fields named. -/
theorem deferredInstructionIsRefetched : Obligations.DeferredInstructionIsRefetched := by
  intro s hr hwaits
  have hdefer : exec s.nextInstr s.pollTimers.fetched = .next s.pollTimers.fetched.defer := by
    rcases hwaits with ⟨x, y, n, hi, hclosed⟩ | ⟨x, hi, hnone⟩
    · rw [hi]; exact execDraw_closed x y n hclosed
    · rw [hi]; exact execWaitKey_none x hnone
  refine ⟨_, step_defer hr hdefer, ?_⟩
  obtain ⟨hq, hh, hp⟩ := hr
  have hquit : s.quitIn ≠ some 1 → s.pollTimers.fetched.defer.pump.recordInsn.environmentTurn.quit = false :=
    fun hlast => State.quit_environmentTurn_eq_false (by simpa using hq) (by simpa using hlast)
  simpa [State.running, State.nextInstr, hh, hp] using hquit
end

section
/-! Control transfer (R110 to R117).  A meaning that checks the stack says what it does on either side of its check; the
four register and constant skips are one operation, `State.skipIf`, under four predicates. -/

namespace Sys2Proof.Machine

/-- The target of jump-offset does not wrap: it is the exact sum (R117, D10). -/
theorem zextByte_add_zextAddr_toNat (b : Byte) (nnn : Addr12) :
    (zextByte b + zextAddr nnn).toNat = b.toNat + nnn.toNat := by
  have := b.isLt
  have := nnn.isLt
  rw [BitVec.toNat_add, zextByte_toNat, zextAddr_toNat]; omega

theorem execCall_pushes (nnn : Addr12) (s : State) (h : s.sp.val < 16) : execCall nnn s = .next
    { s with
      stack := s.stack.set s.sp.val s.pc h
      sp := ⟨s.sp.val + 1, Nat.succ_lt_succ h⟩
      pc := zextAddr nnn } := by
  rw [execCall_eq, dif_pos h]

/-- A skip adds 2 to `PC` where `p` makes its test hold, and changes nothing where `q` makes it fail (R113). -/
theorem exec_of_skipIf {i : Instr} {s : State} {b : Bool} {p q : Prop} (h : exec i s = .next (s.skipIf b))
    (hp : p → b = true) (hq : q → b = false) :
    (p → exec i s = .next { s with pc := s.pc + 2#16 }) ∧ (q → exec i s = .next s) := by
  constructor
  · intro hpred
    rw [h, hp hpred]
    rfl
  · intro hpred
    rw [h, hq hpred]
    rfl

end Sys2Proof.Machine

open Sys2Proof Sys2Proof.Machine

/-- Settles O12: neither target wraps, the constant because it has 12 bits and the sum because it has 13. -/
theorem jumpsSetThePc : Obligations.JumpsSetThePc := by
  refine fun s nnn => ⟨⟨decodeWord_encode (i := .jump nnn) rfl, ?_⟩, decodeWord_encode (i := .jumpOffset nnn) rfl, ?_⟩
  · rw [← zextAddr_eq]
    rfl
  · exact ⟨_, rfl, rfl, zextByte_add_zextAddr_toNat _ nnn⟩

/-- Settles O13: below 16 entries the push stores at `STACK[SP]` alone; at 16 the instruction's fault condition holds. -/
theorem callPushesReturnAddress : Obligations.CallPushesReturnAddress := by
  refine fun s nnn => ⟨decodeWord_encode (i := .call nnn) rfl, fun h => ?_, fun hsp => ?_⟩
  · refine ⟨_, execCall_pushes nnn s h, rfl, zextAddr_eq nnn, ?_, fun k hk => ?_, rfl⟩
    · exact Vector.getElem_set_self h
    · exact Vector.getElem_set_ne h k.isLt hk.symm
  · exact exec_raiseFault (.inl ⟨rfl, hsp, rfl, nnn, rfl⟩)

/-- Settles O14: above 0 entries the pop reads the entry below `SP`; at 0 the instruction's fault condition holds. -/
theorem returnPopsTheStack : Obligations.ReturnPopsTheStack := by
  refine fun s => ⟨rfl, fun h hpos => ?_, fun hsp => ?_⟩
  · exact ⟨_, execRet_pops s hpos h, rfl, rfl, rfl⟩
  · exact exec_raiseFault (.inr (.inl ⟨rfl, hsp, rfl, rfl⟩))

/-- Settles O15, from O13 and O14: the return pops the entry at the depth before the call, where the call pushed. -/
theorem callThenReturnRestoresThePc : Obligations.CallThenReturnRestoresThePc := by
  intro s nnn h
  obtain ⟨-, hpush, -⟩ := callPushesReturnAddress s nnn
  obtain ⟨t, ht, htsp, -, htop, hbelow, -⟩ := hpush h
  refine ⟨t, ht, fun u husp hustack => ?_⟩
  have hdepth : u.sp.val - 1 = s.sp.val := by rw [husp, htsp, Nat.add_sub_cancel]
  have hpos : 0 < u.sp.val := by rw [husp, htsp]; exact Nat.succ_pos _
  obtain ⟨-, hpop, -⟩ := returnPopsTheStack u
  obtain ⟨r, hr, hrsp, hrpc, hrest⟩ := hpop (hdepth ▸ h) hpos
  have hstack : r.stack = t.stack := (congrArg State.stack hrest).trans hustack
  refine ⟨r, hr, ?_, Fin.ext (hrsp.trans hdepth), fun k hk => ?_⟩
  · simpa only [hrpc, hdepth, hustack] using htop
  · rw [hstack]
    exact hbelow k (Nat.ne_of_lt hk)

/-- Settles O16: each of the four is `State.skipIf` of the comparison that decides its predicate. -/
theorem skipsAddTwoWhenTheyHold : Obligations.SkipsAddTwoWhenTheyHold :=
  fun _ x y nn =>
    ⟨⟨decodeWord_encode (i := .skipEqConst x nn) rfl, exec_of_skipIf rfl beq_iff_eq.2 beq_eq_false_iff_ne.2⟩,
      ⟨decodeWord_encode (i := .skipNeConst x nn) rfl, exec_of_skipIf rfl bne_iff_ne.2 bne_eq_false_iff_eq.2⟩,
      ⟨decodeWord_encode (i := .skipEqReg x y) rfl, exec_of_skipIf rfl beq_iff_eq.2 beq_eq_false_iff_ne.2⟩,
      ⟨decodeWord_encode (i := .skipNeReg x y) rfl, exec_of_skipIf rfl bne_iff_ne.2 bne_eq_false_iff_eq.2⟩⟩
end

section
/-! Register arithmetic and logic (R130 to R141).  Each flag computation and each result is said once over unsigned
numbers; the frames are those of `writesReg_setReg` and `writesRegAndFlag_setReg_setFlag`. -/

namespace Sys2Proof.Machine

/-! ### The flags as conditions on unsigned numbers -/

theorem carries_iff (a b : Byte) : carries a b = true ↔ 256 ≤ a.toNat + b.toNat := decide_eq_true_iff

theorem noBorrow_iff (a b : Byte) : noBorrow a b = true ↔ b.toNat ≤ a.toNat := decide_eq_true_iff

theorem lowBit_iff (a : Byte) : lowBit a = true ↔ a.toNat % 2 = 1 := by
  rw [lowBit, BitVec.getLsbD, Nat.testBit_zero, decide_eq_true_iff]

/-- Bit 7 is the most significant bit, so it tells whether the byte is at least 128 (R140). -/
theorem highBit_iff (a : Byte) : highBit a = true ↔ 128 ≤ a.toNat := by
  have hmsb : highBit a = a.msb := a.msb_eq_getLsbD_last.symm
  rw [hmsb, BitVec.msb_eq_decide, decide_eq_true_iff]

/-! ### The results as unsigned numbers -/

/-- Subtraction modulo 256: lifting the minuend by 256 keeps the difference a natural number (R137). -/
theorem toNat_sub_byte (a b : Byte) : (a - b).toNat = (a.toNat + 256 - b.toNat) % 256 := by
  have := b.isLt
  rw [BitVec.toNat_sub]; omega

theorem toNat_ushiftRight_one (a : Byte) : (a >>> 1).toNat = a.toNat / 2 := by
  rw [BitVec.toNat_ushiftRight, Nat.shiftRight_one]

theorem toNat_shiftLeft_one (a : Byte) : (a <<< 1).toNat = a.toNat * 2 % 256 := by
  rw [BitVec.toNat_shiftLeft, Nat.shiftLeft_eq]

theorem ofNat_add_mod_eq_add (a b : Byte) : BitVec.ofNat 8 ((a.toNat + b.toNat) % 256) = a + b := by
  apply BitVec.eq_of_toNat_eq
  rw [BitVec.toNat_add, BitVec.toNat_ofNat, Nat.mod_mod]

/-- A masked byte has a bit only where the mask has it (R141). -/
theorem getLsbD_of_and {a mask : Byte} {k : Nat} (h : (a &&& mask).getLsbD k = true) : mask.getLsbD k = true := by
  rw [BitVec.getLsbD_and, Bool.and_eq_true] at h
  exact h.2

/-! ### The frame of the logic operations -/

/-- A result written and then a flag of 0, as the logic operations do (R133). -/
theorem writesRegAndFlag_setReg_clearFlag (s : State) (x : Reg) (b : Byte) {r : Nat} (hr : b.toNat = r) :
    WritesRegAndFlag s ((s.setReg x b).setFlag false) x r False :=
  writesRegAndFlag_setReg_setFlag s x b false hr (iff_of_false Bool.false_ne_true id)

end Sys2Proof.Machine

open Sys2Proof Sys2Proof.Machine

/-- Settles O5: each of the three is one register write, of the constant, the sum or the source. -/
theorem constAndCopyWriteOneRegister : Obligations.ConstAndCopyWriteOneRegister := by
  refine fun s x y nn => ⟨⟨decodeWord_encode (i := .setConst x nn) rfl, ?_⟩,
    ⟨decodeWord_encode (i := .addConst x nn) rfl, ?_⟩, decodeWord_encode (i := .regCopy x y) rfl, ?_⟩
  · exact ⟨_, rfl, writesReg_setReg s x nn⟩
  · rw [ofNat_add_mod_eq_add]
    exact ⟨_, rfl, writesReg_setReg s x _⟩
  · exact ⟨_, rfl, writesReg_setReg s x _⟩

/-- Settles O6: each of the three is one result write, of the bitwise operation, and then a flag of 0. -/
theorem logicWritesResultAndClearsFlag : Obligations.LogicWritesResultAndClearsFlag := by
  refine fun s x y => ⟨⟨decodeWord_encode (i := .regOr x y) rfl, ?_⟩,
    ⟨decodeWord_encode (i := .regAnd x y) rfl, ?_⟩, decodeWord_encode (i := .regXor x y) rfl, ?_⟩
  · exact ⟨_, rfl, writesRegAndFlag_setReg_clearFlag s x _ (BitVec.toNat_or ..)⟩
  · exact ⟨_, rfl, writesRegAndFlag_setReg_clearFlag s x _ (BitVec.toNat_and ..)⟩
  · exact ⟨_, rfl, writesRegAndFlag_setReg_clearFlag s x _ (BitVec.toNat_xor ..)⟩

/-- Settles O7: the result and the flag are both computed from the operands of the state before, the flag by the carry
or by the absence of a borrow. -/
theorem addAndSubtractWriteResultThenFlag : Obligations.AddAndSubtractWriteResultThenFlag := by
  refine fun s x y => ⟨⟨decodeWord_encode (i := .regAdd x y) rfl, ?_⟩,
    ⟨decodeWord_encode (i := .regSub x y) rfl, ?_⟩, decodeWord_encode (i := .regSubn x y) rfl, ?_⟩
  · exact ⟨_, rfl, writesRegAndFlag_setReg_setFlag s x _ _ (BitVec.toNat_add ..) (carries_iff ..)⟩
  · exact ⟨_, rfl, writesRegAndFlag_setReg_setFlag s x _ _ (toNat_sub_byte ..) (noBorrow_iff ..)⟩
  · exact ⟨_, rfl, writesRegAndFlag_setReg_setFlag s x _ _ (toNat_sub_byte ..) (noBorrow_iff ..)⟩

/-- Settles O8: a shift halves or doubles `V[y]`, and the bit shifted out is its lowest or its highest. -/
theorem shiftsReadSecondRegister : Obligations.ShiftsReadSecondRegister := by
  refine fun s x y => ⟨⟨decodeWord_encode (i := .shiftRight x y) rfl, ?_⟩,
    decodeWord_encode (i := .shiftLeft x y) rfl, ?_⟩
  · exact ⟨_, rfl, writesRegAndFlag_setReg_setFlag s x _ _ (toNat_ushiftRight_one _) (lowBit_iff _)⟩
  · exact ⟨_, rfl, writesRegAndFlag_setReg_setFlag s x _ _ (toNat_shiftLeft_one _) (highBit_iff _)⟩

/-- Settles O9: the write is that of one register, and taking the byte touches the port and the draw counter alone. -/
theorem randomMasksTheHostByte : Obligations.RandomMasksTheHostByte := by
  intro s x nn
  obtain ⟨hx, hothers, -, hmem⟩ := writesReg_setReg s x (s.rand &&& nn)
  refine ⟨decodeWord_encode (i := .random x nn) rfl, _, rfl, ?_, fun k hk => ?_, hothers, rfl, hmem⟩
  · exact (congrArg BitVec.toNat hx).trans (BitVec.toNat_and ..)
  · exact getLsbD_of_and (hx ▸ hk)
end

section
/-! The index register, and the loads and stores through it (R160 to R166).  A store reads back by two rules, one for
the bytes stored and one for the addresses outside them; a load by two more, for the registers it names and those
above.  Every fault is the instruction's own fault condition (`exec_raiseFault`). -/

namespace Sys2Proof.Machine

/-! ### Operand values -/

theorem pastMemory_iff (i : Word) : pastMemory i = true ↔ 0xFFF < i.toNat := decide_eq_true_iff

/-- add-index does not mask its sum to 12 bits (R161, D9). -/
theorem add_zextByte_toNat (i : Word) (b : Byte) : (i + zextByte b).toNat = (i.toNat + b.toNat) % 65536 := by
  rw [BitVec.toNat_add, zextByte_toNat]

/-- Each decimal digit of a byte fits in a byte (R163). -/
theorem bcdDigits_map_toNat (b : Byte) :
    (bcdDigits b).map BitVec.toNat = [b.toNat / 100, b.toNat / 10 % 10, b.toNat % 10] := by
  have := b.isLt
  have hhundreds : b.toNat / 100 % 256 = b.toNat / 100 := Nat.mod_eq_of_lt (by omega)
  have htens : b.toNat / 10 % 10 % 256 = b.toNat / 10 % 10 := Nat.mod_eq_of_lt (by omega)
  have hunits : b.toNat % 10 % 256 = b.toNat % 10 := Nat.mod_eq_of_lt (by omega)
  simp [bcdDigits, hhundreds, htens, hunits]

/-! ### Stores through the index register -/

/-- Byte `k` of a store from `I` is read back at `I + k` (R64, R166). -/
theorem State.read_storeBytes_stored {s : State} {bs : List Byte} (hwf : s.mem.wf = true)
    (hfits : indexAddress s.i 0 + bs.length ≤ Config.memSize) {k : Nat} (hk : k < bs.length) :
    (s.storeBytes (indexAddress s.i 0) bs).mem.read (indexAddress s.i k) = bs[k] := by
  have hoff : indexAddress s.i k - indexAddress s.i 0 = k := Nat.add_sub_cancel_left ..
  have hin : indexAddress s.i 0 ≤ indexAddress s.i k := Nat.le_add_right ..
  rw [State.storeBytes_mem, Memory.read_writeBytes bs _ hwf hfits, dif_pos ⟨hin, by rwa [hoff]⟩]
  simp only [hoff]

/-- A store from `I` leaves every address below it and above its last byte as it was. -/
theorem State.read_storeBytes_outside {s : State} {bs : List Byte} (hwf : s.mem.wf = true)
    (hfits : indexAddress s.i 0 + bs.length ≤ Config.memSize) {a last : Nat} (hlen : bs.length = last + 1)
    (ha : a < indexAddress s.i 0 ∨ indexAddress s.i last < a) :
    (s.storeBytes (indexAddress s.i 0) bs).mem.read a = s.mem.read a := by
  rw [State.storeBytes_mem, Memory.read_writeBytes bs _ hwf hfits, dif_neg]
  simp only [indexAddress] at ha ⊢
  omega

/-- A store off the glyphs, or under the policy allow, passes the glyph check (R53, R58). -/
theorem glyphCheck_passes {s : State} (h : 0x04F < indexAddress s.i 0 ∨ s.glyphPolicy = .allow) :
    ¬(indexAddress s.i 0 ≤ 0x04F ∧ s.glyphPolicy = .fault) := by
  rintro ⟨hlow, hpol⟩
  rcases h with habove | hallow
  · exact Nat.not_le.2 habove hlow
  · cases hpol.symm.trans hallow

theorem execStoreBcd_stores {s : State} (x : Reg) (hr : indexAddress s.i 2 ≤ 0xFFF)
    (hg : 0x04F < indexAddress s.i 0 ∨ s.glyphPolicy = .allow) :
    execStoreBcd x s = .next (s.storeBytes (indexAddress s.i 0) (bcdDigits (s.reg x))) := by
  rw [execStoreBcd_eq, if_neg (Nat.not_lt.2 hr), if_neg (glyphCheck_passes hg)]

theorem execStoreRegs_stores {s : State} (x : Reg) (hr : indexAddress s.i x.val ≤ 0xFFF)
    (hg : 0x04F < indexAddress s.i 0 ∨ s.glyphPolicy = .allow) : execStoreRegs x s =
      .next ((s.storeBytes (indexAddress s.i 0) (s.regsUpTo x)).setIndex (indexAfter s.i x)) := by
  rw [execStoreRegs_eq, if_neg (Nat.not_lt.2 hr), if_neg (glyphCheck_passes hg)]

theorem storeBcd_fits {s : State} (b : Byte) (hr : indexAddress s.i 2 ≤ 0xFFF) :
    indexAddress s.i 0 + (bcdDigits b).length ≤ Config.memSize :=
  Nat.succ_le_succ hr

/-- The three digits read back at `I`, `I + 1` and `I + 2` (R163). -/
theorem read_storeBcd {s : State} (b : Byte) (hwf : s.mem.wf = true) (hr : indexAddress s.i 2 ≤ 0xFFF) {k : Nat}
    (hk : k < 3) : ((s.storeBytes (indexAddress s.i 0) (bcdDigits b)).mem.read (indexAddress s.i k)).toNat =
      [b.toNat / 100, b.toNat / 10 % 10, b.toNat % 10][k] := by
  rw [State.read_storeBytes_stored hwf (storeBcd_fits b hr) (k := k) hk]
  simp only [← bcdDigits_map_toNat]
  exact (List.getElem_map ..).symm

/-- Each register stored reads back at its address (R164). -/
theorem read_storeRegs {s : State} {x k : Reg} (hwf : s.mem.wf = true) (hr : indexAddress s.i x.val ≤ 0xFFF)
    (hk : k ≤ x) :
    (s.storeBytes (indexAddress s.i 0) (s.regsUpTo x)).mem.read (indexAddress s.i k.val) = s.reg k := by
  have hlt : k.val < (s.regsUpTo x).length := by
    rw [State.regsUpTo_length]
    exact Nat.lt_succ_of_le hk
  rw [State.read_storeBytes_stored hwf (storeRegs_fits (Nat.not_lt.2 hr)) hlt, State.getElem_regsUpTo]

/-! ### Loads through the index register -/

theorem execLoadRegs_loads {s : State} (x : Reg) (hr : indexAddress s.i x.val ≤ 0xFFF) : execLoadRegs x s =
    .next ((s.setRegs 0 (s.mem.readBytes (indexAddress s.i 0) (x.val + 1))).setIndex (indexAfter s.i x)) := by
  rw [execLoadRegs_eq, if_neg (Nat.not_lt.2 hr)]

/-- Each register up to `V[x]` gets the byte at its address (R165). -/
theorem reg_loadRegs_loaded (s : State) {x k : Reg} (hk : k ≤ x) :
    (s.setRegs 0 (s.mem.readBytes (indexAddress s.i 0) (x.val + 1))).reg k =
      s.mem.read (indexAddress s.i k.val) := by
  have hlt : k.val - 0 < (s.mem.readBytes (indexAddress s.i 0) (x.val + 1)).length := by
    rw [Memory.readBytes_length]
    exact Nat.lt_succ_of_le hk
  rw [State.reg_setRegs, dif_pos ⟨Nat.zero_le _, hlt⟩, Memory.getElem_readBytes]
  rfl

/-- The registers above `V[x]` stay (R165). -/
theorem reg_loadRegs_above (s : State) {x k : Reg} (hk : x < k) :
    (s.setRegs 0 (s.mem.readBytes (indexAddress s.i 0) (x.val + 1))).reg k = s.reg k := by
  have hlt := Fin.lt_def.1 hk
  have hlen := s.mem.readBytes_length (indexAddress s.i 0) (x.val + 1)
  rw [State.reg_setRegs, dif_neg (by omega)]

end Sys2Proof.Machine

open Sys2Proof Sys2Proof.Machine

/-- Settles O18: each of the two is one write of `I`, and the mask of font-address cuts nothing off. -/
theorem directIndexAssignments : Obligations.DirectIndexAssignments := by
  refine fun s x nnn =>
    ⟨⟨decodeWord_encode (i := .setIndex nnn) rfl, ?_⟩, decodeWord_encode (i := .fontAddress x) rfl, ?_⟩
  · rw [← zextAddr_eq]
    rfl
  · exact ⟨_, rfl, rfl, glyphAddress_toNat _⟩

/-- Settles O19: the flag is computed from the sum that `I` gets, and written after it. -/
theorem addIndexWrapsAndFlags : Obligations.AddIndexWrapsAndFlags := by
  intro s x
  refine ⟨decodeWord_encode (i := .addIndex x) rfl, _, rfl, add_zextByte_toNat _ _, fun h => ?_, fun h => ?_,
    fun z hz => ?_, rfl, fun _ => rfl⟩
  · have hflag : pastMemory (s.i + zextByte (s.reg x)) = true := (pastMemory_iff _).2 h
    simp [hflag]
  · have hflag : pastMemory (s.i + zextByte (s.reg x)) = false :=
      Bool.eq_false_of_not_eq_true fun hpast => Nat.not_lt.2 h ((pastMemory_iff _).1 hpast)
    simp [hflag]
  · simp [hz]

/-- Settles O20: past its checks the instruction stores its three digits, and each check that fails is a fault
condition. -/
theorem storeBcdWritesThreeDigits : Obligations.StoreBcdWritesThreeDigits := by
  refine fun s x hwf => ⟨decodeWord_encode (i := .storeBcd x) rfl, fun hr hg => ?_, fun hr => ?_, fun hlow hpol => ?_⟩
  · have hdigit (k : Nat) (hk : k < 3) := read_storeBcd (s.reg x) hwf hr hk
    exact ⟨_, execStoreBcd_stores x hr hg, hdigit 0 (by decide), hdigit 1 (by decide), hdigit 2 (by decide),
      fun a ha => State.read_storeBytes_outside hwf (storeBcd_fits _ hr) (bcdDigits_length _) ha, rfl⟩
  · exact exec_raiseFault (.inr (.inr (.inr (.inl ⟨rfl, rfl, .inl ⟨x, rfl, hr⟩⟩))))
  · exact execStoreBcd_glyphWrite x hpol hlow

/-- Settles O21: past its checks the instruction stores its registers and then moves `I`, and each check that fails is
a fault condition. -/
theorem storeRegsWritesTheRange : Obligations.StoreRegsWritesTheRange := by
  refine fun s x hwf =>
    ⟨decodeWord_encode (i := .storeRegs x) rfl, fun hr hg => ?_, fun hr => ?_, fun hlow hpol => ?_⟩
  · have hfits := storeRegs_fits (Nat.not_lt.2 hr)
    exact ⟨_, execStoreRegs_stores x hr hg, fun _ hk => read_storeRegs hwf hr hk,
      fun a ha => State.read_storeBytes_outside hwf hfits (s.regsUpTo_length x) ha, indexAfter_toNat s.i x, rfl⟩
  · exact exec_raiseFault (.inr (.inr (.inr (.inl ⟨rfl, rfl, .inr ⟨x, rfl, hr⟩⟩))))
  · exact execStoreRegs_glyphWrite x hpol hlow

/-- Settles O22: past its check the instruction loads its registers and then moves `I`, and a check that fails is its
fault condition. -/
theorem loadRegsReadsTheRange : Obligations.LoadRegsReadsTheRange := by
  refine fun s x => ⟨decodeWord_encode (i := .loadRegs x) rfl, fun hr => ?_, fun hr => ?_⟩
  · refine ⟨_, execLoadRegs_loads x hr, fun _ hk => reg_loadRegs_loaded s hk, fun _ hk => reg_loadRegs_above s hk,
      indexAfter_toNat s.i x, ?_, fun a => ?_⟩
    · rw [State.setRegs_eq]
      rfl
    · rw [State.setRegs_eq]
      rfl
  · exact exec_raiseFault (.inr (.inr (.inl ⟨rfl, rfl, .inl ⟨x, rfl, hr⟩⟩)))
end

section
/-! Display, keys and timers (R180 to R189).  Draw's facts are said over the list of pixels it toggles, whose members
are the pixels under the sprite's set bits; set-sound's count is an induction over the timer actions after it. -/

namespace Sys2Proof.Machine

/-! ### Keys -/

/-- A code that names no pressed key, one above 15 included, is not down (R184, R185, D7). -/
theorem State.keyIsDown_eq_false {s : State} {k : Byte}
    (h : ∀ hk : k.toNat < 16, s.keyDown.get ⟨k.toNat, hk⟩ = false) : s.keyIsDown k = false := by
  rw [State.keyIsDown]
  split
  · exact h _
  · rfl

theorem State.keyIsDown_eq_true {s : State} {k : Byte} (hk : k.toNat < 16)
    (h : s.keyDown.get ⟨k.toNat, hk⟩ = true) : s.keyIsDown k = true := by
  rw [State.keyIsDown, dif_pos hk, h]

/-! ### The timers -/

/-- A timer action that finds `ST` above 0 requests one tone and takes 1 off `ST`, and one that finds 0 does neither, so
`n` of them request a tone each until `ST` is spent (R188, R220, R221). -/
theorem State.iterate_timerAction_out (s : State) (n : Nat) : (State.timerAction^[n] s).out =
    s.out ++ List.replicate (min n s.st.toNat) Output.tone := by
  induction n generalizing s with
  | zero => simp
  | succ n ih =>
    rw [Function.iterate_succ_apply, ih, State.timerAction_out, State.timerAction_st, tick_toNat]
    by_cases h0 : s.st = 0#8
    · simp [h0]
    · have hpos : s.st.toNat ≠ 0 := fun h => h0 (BitVec.eq_of_toNat_eq h)
      have hcount : min (n + 1) s.st.toNat = min n (s.st.toNat - 1) + 1 := by omega
      rw [if_neg h0, hcount, List.replicate_succ, List.append_assoc, List.singleton_append]

/-! ### Draw -/

/-- The pixels draw toggles, in the order of their pulses (R181). -/
def State.drawnPixels (s : State) (x y : Reg) (n : Nibble) : List (Column × Row) :=
  spritePixels ((s.reg x).toNat % 64) ((s.reg y).toNat % 32) (s.mem.readBytes (indexAddress s.i 0) n.toNat)

theorem State.mem_drawnPixels {s : State} {x y : Reg} {n : Nibble} {c : Column} {r : Row} :
    (c, r) ∈ s.drawnPixels x y n ↔ spriteBit s x y n c r := by
  simp only [State.drawnPixels, mem_spritePixels, Memory.getElem_readBytes, Memory.readBytes_length, exists_prop,
    spriteBit, indexAddress, Nat.add_zero]
  refine and_congr_right fun _ => and_congr_right fun _ => and_congr_right fun hy => ?_
  rw [Nat.sub_lt_iff_lt_add' hy]

theorem State.nodup_drawnPixels (s : State) (x y : Reg) (n : Nibble) : (s.drawnPixels x y n).Nodup :=
  nodup_spritePixels _ _ _

/-- Draw inverts the pixels it toggles and no other (R181). -/
theorem drawSprite_pixel (x y : Reg) (n : Nibble) (s : State) (c : Column) (r : Row) :
    (drawSprite x y n s).disp.pixel c r =
      if (c, r) ∈ s.drawnPixels x y n then !s.disp.pixel c r else s.disp.pixel c r :=
  State.togglePixels_pixel s false _ (s.nodup_drawnPixels x y n) c r

/-- The collision bit of draw: a pixel under a set sprite bit was set before (R181). -/
theorem drawSprite_collided (x y : Reg) (n : Nibble) (s : State) :
    (s.togglePixels false (s.drawnPixels x y n)).2 = true ↔
      ∃ c r, spriteBit s x y n c r ∧ s.disp.pixel c r = true := by
  simp [State.togglePixels_collided _ _ _ (s.nodup_drawnPixels x y n), State.mem_drawnPixels]

theorem drawSprite_flag_collision {x y : Reg} {n : Nibble} {s : State}
    (h : ∃ c r, spriteBit s x y n c r ∧ s.disp.pixel c r = true) : (drawSprite x y n s).reg 15 = 0x01#8 :=
  (drawSprite_flag x y n s).trans (congrArg flagByte ((drawSprite_collided x y n s).2 h))

theorem drawSprite_flag_no_collision {x y : Reg} {n : Nibble} {s : State}
    (h : ¬∃ c r, spriteBit s x y n c r ∧ s.disp.pixel c r = true) : (drawSprite x y n s).reg 15 = 0x00#8 :=
  (drawSprite_flag x y n s).trans
    (congrArg flagByte (Bool.eq_false_of_not_eq_true (mt (drawSprite_collided x y n s).1 h)))

/-- With the window open and every sprite byte in memory, or no sprite byte at all, draw draws (R181, R183). -/
theorem execDraw_draws {s : State} (x y : Reg) {n : Nibble} (hopen : s.frameOpen = true)
    (h : indexAddress s.i n.toNat ≤ 0x1000 ∨ n = 0#4) : execDraw x y n s = .next (drawSprite x y n s) := by
  have hin : ¬(0 < n.toNat ∧ 0xFFF < indexAddress s.i (n.toNat - 1)) := by
    rintro ⟨hpos, hpast⟩
    rcases h with hfits | rfl
    · simp only [indexAddress] at hfits hpast
      omega
    · exact Nat.lt_irrefl 0 hpos
  rw [execDraw_eq, if_pos hopen, if_neg hin]

end Sys2Proof.Machine

open Sys2Proof Sys2Proof.Machine

/-- Settles O27: with the window closed the instruction defers, past memory its fault condition holds, and otherwise it
toggles each of its pixels once. -/
theorem drawTogglesTheSprite : Obligations.DrawTogglesTheSprite := by
  refine fun s x y n => ⟨decodeWord_encode (i := .draw x y n) rfl, fun hclosed => execDraw_closed x y n hclosed,
    fun hopen hpos hpast => ?_, fun hopen hfits => ?_⟩
  · exact exec_raiseFault (.inr (.inr (.inl ⟨rfl, rfl, .inr ⟨x, y, n, rfl, hopen, hpos, hpast⟩⟩)))
  · refine ⟨_, s.drawnPixels x y n, execDraw_draws x y hopen hfits, fun c r hbit => ?_, fun c r hbit => ?_,
      drawSprite_flag_collision, drawSprite_flag_no_collision, drawSprite_reg x y n s,
      congrArg State.out (drawSprite_eq x y n s), s.nodup_drawnPixels x y n, fun _ _ => State.mem_drawnPixels,
      rfl, rfl, fun a => ?_, ?_⟩
    · rw [drawSprite_pixel, if_pos (State.mem_drawnPixels.2 hbit)]
    · rw [drawSprite_pixel, if_neg (mt State.mem_drawnPixels.1 hbit)]
    · rw [drawSprite_eq]
    · rw [drawSprite_eq]

/-- Settles O17: each of the two is `State.skipIf` of the key test or of its negation, and the two cases are those of
the key test. -/
theorem keySkipsTestTheKey : Obligations.KeySkipsTestTheKey := by
  intro s x
  obtain ⟨downSkips, downStays⟩ := exec_of_skipIf (i := .skipKeyDown x) (s := s)
    (p := s.keyIsDown (s.reg x) = true) (q := s.keyIsDown (s.reg x) = false) rfl id id
  obtain ⟨upSkips, upStays⟩ := exec_of_skipIf (i := .skipKeyUp x) (s := s)
    (p := s.keyIsDown (s.reg x) = false) (q := s.keyIsDown (s.reg x) = true) rfl (congrArg not) (congrArg not)
  refine ⟨decodeWord_encode (i := .skipKeyDown x) rfl, decodeWord_encode (i := .skipKeyUp x) rfl,
    fun hk hdown => ?_, fun hnotDown => ?_⟩
  · have htest := State.keyIsDown_eq_true hk hdown
    exact ⟨downSkips htest, upStays htest⟩
  · have htest := State.keyIsDown_eq_false hnotDown
    exact ⟨downStays htest, upSkips htest⟩

/-- Settles O28: an empty latch makes the instruction defer, and a code in it is one register write and the latch
cleared. -/
theorem waitKeyTakesAReleasedKey : Obligations.WaitKeyTakesAReleasedKey := by
  refine fun s x => ⟨decodeWord_encode (i := .waitKey x) rfl, fun hnone => execWaitKey_none x hnone, fun k hk => ?_⟩
  obtain ⟨hx, hothers, -, hmem⟩ := writesReg_setReg s.clearReleased x (zextKey k)
  exact ⟨_, execWaitKey_some x hk, (congrArg BitVec.toNat hx).trans (zextKey_toNat k), hothers, rfl, hmem⟩

/-- Settles O29: one write of one register, which the rest of the step leaves alone, of the `DT` after the timers. -/
theorem getDelayReadsTheTimer : Obligations.GetDelayReadsTheTimer := by
  refine fun s x =>
    ⟨decodeWord_encode (i := .getDelay x) rfl, ⟨_, rfl, writesReg_setReg s x s.dt⟩, fun hr hi => ?_⟩
  refine ⟨_, (step_fetch hr).trans (by rw [hi]; rfl), ?_⟩
  rw [State.reg_eq, State.closeStep_v]
  exact (writesReg_setReg s.pollTimers.fetched x _).1

/-- Settles O30, from O33: an instruction that changes `DT` is a set-delay. -/
theorem setDelaySetsTheTimer : Obligations.SetDelaySetsTheTimer := by
  refine fun s x => ⟨decodeWord_encode (i := .setDelay x) rfl, rfl, fun i t h hrise => ?_⟩
  obtain ⟨-, -, -, -, -, hdt, -⟩ := eachFieldHasItsWriters i s t h
  exact hdt fun hkeep => Nat.lt_irrefl _ (hkeep ▸ hrise)

/-- Settles O31: the count of tones is that of `State.iterate_timerAction_out` from `ST = V[x]`. -/
theorem setSoundCountsTones : Obligations.SetSoundCountsTones :=
  fun s x => ⟨decodeWord_encode (i := .setSound x) rfl, rfl,
    State.iterate_timerAction_out { s with st := s.reg x }⟩

/-- Settles O26: the grid becomes the blank one, and the pulse is the only other change. -/
theorem clearScreenClearsEveryPixel : Obligations.ClearScreenClearsEveryPixel :=
  fun _ => ⟨rfl, _, rfl, blankGrid_pixel, rfl⟩
end

section
/-! Unknown words (R200, R201). -/

open Sys2Proof Sys2Proof.Machine

/-- Settles O32: the unlisted words are those that decode to `unknown` of themselves (R77), and its arm only appends the
pulse. -/
theorem unknownWordsAreNoOps : Obligations.UnknownWordsAreNoOps := by
  intro s w hunlisted
  have hpulse : exec (.unknown w) s = .next (s.emit (.diagUnknown w s.fetchAddr)) := rfl
  exact ⟨(isListed_eq_false_iff_unknown w).1 hunlisted, hpulse⟩
end

section
/-! Runs and their ends (R211 to R216, R225, R247): a fault condition that holds is raised, a halted core stays as it is,
and a step gives no state only where the host has quit. -/

namespace Sys2Proof.Machine

theorem State.quiet_quiet (s : State) : s.quiet.quiet = s.quiet := rfl

/-- However many steps a halted core takes, the first clears the output ports and the others do nothing (R214). -/
theorem run_halted {s : State} (hq : s.quit = false) (hh : s.halted = true) (k : Nat) :
    Host.Core.run core (k + 1) s = .next s.quiet := by
  induction k generalizing s with
  | zero => rw [run_succ_next (step_halted hq hh), run_zero]
  | succ k ih => rw [run_succ_next (step_halted hq hh), ih (s := s.quiet) hq hh, s.quiet_quiet]

/-- A step of a core that the host has not quit answers a state: on every branch fault entry or an instruction does. -/
theorem exists_step_next {s : State} (hq : s.quit = false) : ∃ t, step s = .next t := by
  cases hh : s.halted with
  | true => exact ⟨_, step_halted hq hh⟩
  | false =>
    by_cases hp : 0xFFE < s.pc.toNat
    · exact ⟨_, step_fetchFault hq hh hp⟩
    · obtain ⟨u, hu⟩ := everyInstructionAnswersNext s.nextInstr s.pollTimers.fetched
      exact ⟨_, (step_fetch ⟨hq, hh, Nat.not_lt.1 hp⟩).trans (congrArg _ hu)⟩

/-- No instruction touches the host's quit (R225). -/
theorem exec_quitIn {i : Instr} {s t : State} (h : exec i s = .next t) : t.quitIn = s.quitIn := by
  obtain ⟨-, -, -, -, -, -, -, -, -, -, -, -, -, -, -, -, -, -, -, -, hquit, -⟩ := eachFieldHasItsWriters i s t h
  exact hquit

/-- A step brings the host's quit one instruction action nearer, unless it leaves the core halted (R225). -/
theorem step_quitIn {s t : State} (h : step s = .next t) :
    t.quitIn = if t.halted then s.quitIn else s.quitIn.map (· - 1) := by
  rcases step_cases h with ⟨-, hh, rfl⟩ | ⟨-, -, -, rfl⟩ | ⟨-, u, hu, rfl⟩
  · rw [State.quiet_halted, if_pos hh, State.quiet_quitIn]
  · rfl
  · have hkeep : u.quitIn = s.quitIn := exec_quitIn (s := s.pollTimers.fetched) hu
    rw [State.closeStep_quitIn, State.closeStep_halted, hkeep]

/-- The step of the action before the quit, where it does not fault, leaves one action fewer to go (R225). -/
theorem quitIn_of_step {n : Nat} {s t : State} (hn : s.quitIn = some (n + 1)) (h : step s = .next t)
    (hrun : t.halted = false) : t.quitIn = some n := by
  rw [step_quitIn h, if_neg (ne_true_of_eq_false hrun), hn, Option.map_some, Nat.add_sub_cancel]

theorem step_eq_runEnded_iff (s : State) : step s = .fault .runEnded ↔ s.quit = true := by
  refine ⟨fun h => ?_, step_quit⟩
  by_contra hq
  obtain ⟨t, ht⟩ := exists_step_next (Bool.eq_false_of_not_eq_true hq)
  rw [ht] at h
  cases h

/-- A run that is longer than the host's quit allows answers only a state that a fault has halted (R225, R247). -/
theorem halted_of_run_past_quit {n : Nat} {s t : State} (hn : s.quitIn = some n)
    (h : Host.Core.run core (n + 1) s = .next t) : t.halted = true := by
  induction n generalizing s with
  | zero =>
    obtain ⟨u, hu, -⟩ := step_of_run_succ h
    rw [step_quit (decide_eq_true hn)] at hu
    cases hu
  | succ n ih =>
    obtain ⟨u, hu, hrun⟩ := step_of_run_succ h
    cases hh : u.halted with
    | false => exact ih (quitIn_of_step hn hu hh) hrun
    | true =>
      have hq : u.quit = false := by rw [State.quit_eq_false, step_quitIn hu, if_pos hh, hn]; simp
      rw [run_halted hq hh] at hrun
      obtain rfl := next_inj hrun
      exact hh

end Sys2Proof.Machine

open Sys2Proof Sys2Proof.Machine

/-- Settles O40: each condition is the one on which its instruction's check fails. -/
theorem faultConditionsHalt : Obligations.FaultConditionsHalt :=
  fun _ _ _ _ h => exec_raiseFault h

/-- Settles O43, by induction on the number of steps: a halted step only clears the output ports. -/
theorem haltedIsFinal : Obligations.HaltedIsFinal :=
  fun k _ hq hh => run_halted hq hh k

/-- Settles O45: every branch of an unquit step answers a state, and no instruction touches the host's quit. -/
theorem everyStepAnswersNext : Obligations.EveryStepAnswersNext := by
  intro s hq
  obtain ⟨t, ht⟩ := exists_step_next hq
  exact ⟨t, ht, step_quitIn ht⟩

/-- Settles O46, its last part by induction on the actions left before the quit: a step leaves one fewer, or it halts the
core, which then stays halted. -/
theorem quitEndsTheRun : Obligations.QuitEndsTheRun :=
  ⟨fun _ => step_quit rfl, step_eq_runEnded_iff, fun _ _ _ hn h => halted_of_run_past_quit hn h⟩
end

section
/-! The scheduler (R218 to R223): a step is iterations at its samples, early samples do what one of them does, and timer
polls a unit apart fire once a period. -/

namespace Sys2Proof.Machine

/-! ### A step as iterations -/

theorem mapNext_mapNext (f g : State → State) (o : Host.Outcome State Fault Refusal) :
    mapNext f (mapNext g o) = mapNext (fun t => f (g t)) o := by
  cases o <;> rfl

theorem State.iterations_singleton (s : State) (now : Nat) : s.iterations [now] = s.iteration now := by
  rw [State.iterations]
  cases s.iteration now <;> rfl

theorem State.pollAll_halted (s : State) (samples : List Nat) : (s.pollAll samples).halted = s.halted := by
  rw [State.pollAll_eq]

theorem State.pollAll_tInsn (s : State) (samples : List Nat) : (s.pollAll samples).tInsn = s.tInsn := by
  rw [State.pollAll_eq]

theorem State.pollAll_rates (s : State) (samples : List Nat) : (s.pollAll samples).rates = s.rates := by
  rw [State.pollAll_eq]

/-- Iterations at samples too early for an instruction action and then at one that fires it are the timer tests at all of
them, the instruction action, and its record in `T_INSN` (R218, R222). -/
theorem State.iterations_early_late {s : State} (hh : s.halted = false) {early : List Nat} {late : Nat}
    (hearly : ∀ now, now ∈ early → now < s.tInsn + s.rates.insnPeriod) (hlate : s.tInsn + s.rates.insnPeriod ≤ late) :
    s.iterations (early ++ [late]) =
      mapNext State.recordInsn (s.pollAll (early ++ [late])).instructionAction := by
  have hdue : (s.pollAll early).rates.insnPeriod ≤ late - (s.pollAll early).tInsn := by
    rw [State.pollAll_rates, State.pollAll_tInsn]; omega
  rw [State.iterations_early hh early [late] hearly, State.iterations_singleton,
    State.iteration_eq ((s.pollAll_halted early).trans hh), if_pos hdue, State.pollAll_append]
  rfl

theorem State.insnPeriod_le_lateSample (s : State) : s.tInsn + s.rates.insnPeriod ≤ s.lateSample :=
  Nat.le_add_right _ _

/-- A running step is the iterations of R218 at its samples and then, unless it halted, the environment's turn. -/
theorem step_eq_iterations {s : State} (hq : s.quit = false) (hh : s.halted = false) :
    step s = mapNext (fun t => if t.halted then t else t.environmentTurn)
      (s.quiet.iterations (s.earlySamples ++ [s.lateSample])) := by
  have hiter := State.iterations_early_late (s := s.quiet) (early := s.earlySamples) hh
    (fun now hn => (State.mem_earlySamples hn).2) s.insnPeriod_le_lateSample
  rw [step_running hq hh, hiter, ← State.pollTimers_eq_pollAll, mapNext_mapNext]
  rfl

/-- Samples that never decrease, from `start` to `last`, are those of some gaps (R223). -/
theorem exists_gaps_samplesUpTo {last : Nat} {samples : List Nat} {start : Nat} (hsorted : samples.Pairwise (· ≤ ·))
    (hin : ∀ now, now ∈ samples → start ≤ now ∧ now ≤ last) : ∃ gaps, samplesUpTo last start gaps = samples := by
  induction samples generalizing start with
  | nil => exact ⟨[], rfl⟩
  | cons now rest ih =>
    obtain ⟨hfirst, hrest⟩ := List.pairwise_cons.1 hsorted
    obtain ⟨gaps, hgaps⟩ := ih hrest fun n hn => ⟨hfirst n hn, (hin n (List.mem_cons_of_mem _ hn)).2⟩
    have hnow : min (start + (now - start)) last = now := by
      have := hin now List.mem_cons_self
      omega
    exact ⟨(now - start) :: gaps, by rw [samplesUpTo, hnow, hgaps]⟩

theorem State.earlySamples_pairwise (s : State) : s.earlySamples.Pairwise (· ≤ ·) := by
  have := s.rates.insnPeriod_pos
  exact (samplesUpTo_spec _ s.earlyDraw s.tInsn (by omega)).2

/-! ### Early samples -/

/-- A timer test that finds no timer action due only takes the sample (R218). -/
theorem State.pollTimer_of_not_due {s : State} {now : Nat} (h : now - s.tTimer < s.rates.timerPeriod) :
    s.pollTimer now = { s with now := now } := by
  rw [State.pollTimer_eq, if_neg (Nat.not_le.2 h)]

/-- A timer test that finds a timer action due runs it and records it in `T_TIMER` (R218). -/
theorem State.pollTimer_of_due {s : State} {now : Nat} (h : s.rates.timerPeriod ≤ now - s.tTimer) :
    s.pollTimer now = { ({ s with now := now } : State).timerAction with tTimer := now } := by
  rw [State.pollTimer_eq, if_pos h]

theorem State.pollTimer_tTimer_of_due {s : State} {now : Nat} (h : s.rates.timerPeriod ≤ now - s.tTimer) :
    (s.pollTimer now).tTimer = now := by
  rw [State.pollTimer_of_due h]

/-- A timer test does not read the sample before it. -/
theorem State.pollTimer_withNow (s : State) (m now : Nat) :
    ({ s with now := m } : State).pollTimer now = s.pollTimer now := rfl

/-- Samples at which no timer action is due are lost on a later one. -/
theorem State.pollAll_of_not_due {s : State} {samples : List Nat} (last : Nat)
    (h : ∀ now, now ∈ samples → now - s.tTimer < s.rates.timerPeriod) :
    s.pollAll (samples ++ [last]) = s.pollTimer last := by
  induction samples generalizing s with
  | nil => rfl
  | cons now rest ih =>
    rw [List.cons_append, State.pollAll_cons, State.pollTimer_of_not_due (h now List.mem_cons_self),
      ih (s := { s with now := now }) fun n hn => h n (List.mem_cons_of_mem _ hn), State.pollTimer_withNow]

/-- Samples within one timer period, from one on at which no timer action is due: they fire at most one timer action, so
they do what the sample that fires it does, or the first. -/
theorem State.pollAll_collapse {s : State} {start p : Nat} (samples : List Nat) (last : Nat) (hpos : 0 < p)
    (hp : p ≤ s.rates.timerPeriod) (hstart : start - s.tTimer < s.rates.timerPeriod)
    (hin : ∀ now, now ∈ samples → start ≤ now ∧ now < start + p) :
    ∃ e, e < p ∧ s.pollAll (samples ++ [last]) = s.pollAll [start + e, last] := by
  induction samples generalizing s with
  | nil =>
    have hlost := State.pollAll_of_not_due (samples := [start + 0]) last (by simpa using hstart)
    exact ⟨0, hpos, hlost.symm⟩
  | cons now rest ih =>
    have hnow := hin now List.mem_cons_self
    have hrest : ∀ n, n ∈ rest → start ≤ n ∧ n < start + p := fun n hn => hin n (List.mem_cons_of_mem _ hn)
    rw [List.cons_append, State.pollAll_cons]
    by_cases hdue : s.rates.timerPeriod ≤ now - s.tTimer
    · refine ⟨now - start, by omega, ?_⟩
      rw [Nat.add_sub_cancel' hnow.1, State.pollAll_of_not_due]
      · rfl
      · intro n hn
        have := hrest n hn
        rw [State.pollTimer_tTimer_of_due hdue, State.pollTimer_rates]
        omega
    · rw [State.pollTimer_of_not_due (Nat.not_le.1 hdue)]
      exact ih (s := { s with now := now }) hp hstart hrest

/-! ### Polls a unit apart -/

/-- The state after `n` timer tests at successive units from `T_TIMER` on. -/
def State.unitPolls (s : State) (n : Nat) : State :=
  (List.range n).foldl (fun u k => u.pollTimer (s.tTimer + (k + 1))) s

theorem State.unitPolls_succ (s : State) (n : Nat) :
    s.unitPolls (n + 1) = (s.unitPolls n).pollTimer (s.tTimer + (n + 1)) := by
  simp [State.unitPolls, List.range_succ]

theorem State.unitPolls_rates (s : State) (n : Nat) : (s.unitPolls n).rates = s.rates := by
  induction n with
  | zero => rfl
  | succ n ih => rw [State.unitPolls_succ, State.pollTimer_rates, ih]

/-- A whole period has passed since the last multiple of it exactly at the next multiple. -/
theorem period_le_succ_sub_iff {p : Nat} (hp : 0 < p) (n : Nat) : p ≤ n + 1 - n / p * p ↔ p ∣ n + 1 := by
  have hmod := Nat.mod_lt (n + 1) hp
  have hdiv := Nat.div_add_mod' (n + 1) p
  by_cases hd : p ∣ n + 1
  · have hz := Nat.mod_eq_zero_of_dvd hd
    rw [Nat.succ_div_of_dvd hd, Nat.add_one_mul] at hdiv
    simp only [hd, iff_true]; omega
  · rw [Nat.succ_div_of_not_dvd hd] at hdiv
    simp only [hd, iff_false]; omega

/-- `T_TIMER` advances by a period at each multiple of the period, and `DT` falls by one there (R220). -/
theorem State.unitPolls_spec (s : State) (n : Nat) :
    (s.unitPolls n).dt.toNat = s.dt.toNat - n / s.rates.timerPeriod ∧
      (s.unitPolls n).tTimer = s.tTimer + n / s.rates.timerPeriod * s.rates.timerPeriod := by
  induction n with
  | zero => simp [State.unitPolls]
  | succ n ih =>
    obtain ⟨hdt, ht⟩ := ih
    have hdue : (s.unitPolls n).rates.timerPeriod ≤ s.tTimer + (n + 1) - (s.unitPolls n).tTimer ↔
        s.rates.timerPeriod ∣ n + 1 := by
      rw [State.unitPolls_rates, ht, Nat.add_sub_add_left]
      exact period_le_succ_sub_iff s.rates.timerPeriod_pos n
    rw [State.unitPolls_succ]
    by_cases hd : s.rates.timerPeriod ∣ n + 1
    · rw [State.pollTimer_of_due (hdue.2 hd), Nat.div_mul_cancel hd, Nat.succ_div_of_dvd hd, ← Nat.sub_sub, ← hdt]
      exact ⟨tick_toNat _, rfl⟩
    · rw [State.pollTimer_of_not_due (Nat.not_le.1 (mt hdue.1 hd)), Nat.succ_div_of_not_dvd hd]
      exact ⟨hdt, ht⟩

end Sys2Proof.Machine

open Sys2Proof Sys2Proof.Machine

/-- Settles O47: the timer tests at the early samples are iterations that fire no instruction action, and gaps between
samples can be chosen to give any early samples. -/
theorem stepIsSchedulerIterations : Obligations.StepIsSchedulerIterations := by
  refine fun s hq hh => ⟨step_eq_iterations hq hh, fun _ hn => State.mem_earlySamples hn, s.earlySamples_pairwise,
    s.insnPeriod_le_lateSample, fun early hsorted hin => ?_, fun late hlate => ?_⟩
  · exact exists_gaps_samplesUpTo hsorted fun now hn => ⟨(hin now hn).1, Nat.le_sub_one_of_lt (hin now hn).2⟩
  · exact ⟨late - (s.tInsn + s.rates.insnPeriod), Nat.add_sub_cancel' hlate⟩

/-- Settles O48: after the first timer action of the early samples the others come within a period of it. -/
theorem earlySamplesCollapseToOne : Obligations.EarlySamplesCollapseToOne := by
  intro s early late hperiods ⟨_, htested, hinsn⟩ hh hin hlate
  obtain ⟨e, he, hpoll⟩ := State.pollAll_collapse early late s.rates.insnPeriod_pos hperiods (by omega) hin
  refine ⟨e, he, ?_⟩
  have hone := State.iterations_early_late (early := [s.tInsn + e]) hh (by simpa using he) hlate
  rw [State.iterations_early_late hh (fun now hn => (hin now hn).2) hlate, hpoll]
  exact hone.symm

/-- Settles O50: a timer ticks by one down to 0, and the tone is asked of `ST` before its tick. -/
theorem timerActionDecrementsAndTones : Obligations.TimerActionDecrementsAndTones :=
  fun s => ⟨tick_toNat s.dt, tick_toNat s.st, fun h => s.timerAction_out.trans (if_neg h),
    fun h => s.timerAction_out.trans (if_pos h), rfl⟩

/-- Settles O51, by induction on the number of samples: a timer action is due exactly at the multiples of the period. -/
theorem unitSamplesTickEverySeventy : Obligations.UnitSamplesTickEverySeventy := by
  intro s n t period
  obtain ⟨hdt, ht⟩ := s.unitPolls_spec n
  exact ⟨hdt, ht, fun hrates => (congrArg Rates.timerPeriod hrates).trans defaultRates_timerPeriod⟩
end

section
/-! The invariants of a run that a step keeps: the clock (R222, R223), the frame window before any present (R230), and
the fault status (R34, R35). -/

namespace Sys2Proof.Machine

/-! ### The clock -/

/-- `u` is reached from `s` by timer tests no later than the sample that ends the step: the timer test has been made at
the last sample, and `T_TIMER` is as it was or at least a period later. -/
structure PolledFrom (s u : State) : Prop where
  rates : u.rates = s.rates
  notAhead : u.tTimer ≤ s.lateSample
  tested : u.now < u.tTimer + s.rates.timerPeriod
  keptOrLater : u.tTimer = s.tTimer ∨ s.tTimer + s.rates.timerPeriod ≤ u.tTimer

theorem ClockInv.polledFrom_quiet {s : State} (h : ClockInv s) : PolledFrom s s.quiet := by
  obtain ⟨hahead, htested, hinsn⟩ := h
  have hlate := s.insnPeriod_le_lateSample
  exact ⟨rfl, by rw [State.quiet_tTimer]; omega, htested, .inl rfl⟩

theorem PolledFrom.pollTimer {s u : State} {now : Nat} (h : PolledFrom s u) (hnow : now ≤ s.lateSample) :
    PolledFrom s (u.pollTimer now) := by
  obtain ⟨hrates, hahead, -, hkept⟩ := h
  by_cases hdue : s.rates.timerPeriod ≤ now - u.tTimer
  · have hpos := s.rates.timerPeriod_pos
    have ht : (u.pollTimer now).tTimer = now := State.pollTimer_tTimer_of_due (by rwa [hrates])
    refine ⟨hrates, ?_, ?_, .inr ?_⟩
    · rwa [ht]
    · rw [ht, State.pollTimer_now]; omega
    · rw [ht]; omega
  · rw [State.pollTimer_of_not_due (by rw [hrates]; omega)]
    exact ⟨hrates, hahead, by dsimp only; omega, hkept⟩

theorem State.le_lateSample {s : State} {now : Nat} (h : now ∈ s.earlySamples ++ [s.lateSample]) :
    now ≤ s.lateSample := by
  have hlate := s.insnPeriod_le_lateSample
  rcases List.mem_append.1 h with hn | hn
  · have := State.mem_earlySamples hn
    omega
  · rw [List.mem_singleton.1 hn]

theorem ClockInv.polledFrom_pollTimers {s : State} (h : ClockInv s) : PolledFrom s s.pollTimers :=
  State.pollTimers_induction h.polledFrom_quiet fun _ _ hn hu => hu.pollTimer (State.le_lateSample hn)

/-- No instruction touches the clock or the rates (R38). -/
theorem exec_clock {i : Instr} {s t : State} (h : exec i s = .next t) :
    t.tTimer = s.tTimer ∧ t.now = s.now ∧ t.rates = s.rates := by
  obtain ⟨-, -, -, -, -, -, -, -, -, -, -, -, -, -, -, hTimer, -, hnow, -, -, -, -, hrates, -⟩ :=
    eachFieldHasItsWriters i s t h
  exact ⟨hTimer, hnow, hrates⟩

/-- The clock after a step of a running core: as its timer half left it, with the instruction action recorded. -/
theorem step_clock {s t : State} (hh : s.halted = false) (h : step s = .next t) :
    t.tTimer = s.pollTimers.tTimer ∧ t.now = s.lateSample ∧ t.tInsn = s.lateSample ∧ t.rates = s.rates := by
  rcases step_cases h with ⟨-, hh', -⟩ | ⟨-, -, -, rfl⟩ | ⟨-, u, hu, rfl⟩
  · simp [hh] at hh'
  · exact ⟨rfl, rfl, rfl, rfl⟩
  · rw [State.closeStep_tTimer, State.closeStep_now, State.closeStep_tInsn, State.closeStep_rates]
    obtain ⟨hTimer, hnow, hrates⟩ := exec_clock hu
    exact ⟨hTimer, hnow, hnow, hrates⟩

/-! ### The frame window -/

/-- A present is recorded as it closes the window, so no instruction closes it before any present (R230). -/
theorem exec_keeps_frameInv {i : Instr} {s t : State} (hs : FrameInv s) (h : exec i s = .next t) : FrameInv t := by
  rcases exec_cases h with hc | ⟨cause, info, -, rfl⟩
  · cases hc with
    | loadsRegs => rw [State.setRegs_eq]; exact hs
    | draws => rw [drawSprite_eq]; exact nofun
    | _ => exact hs
  · exact hs

/-- The environment finds the window open before any present (R230). -/
theorem State.frameInv_environmentTurn (s : State) : FrameInv s.environmentTurn := by
  intro hnone
  rw [State.environmentTurn_lastPresent] at hnone
  rw [State.environmentTurn_frameOpen, State.nextFrameOpen, hnone]

theorem FrameInv.closeStep {t : State} (h : FrameInv t) : FrameInv t.afterExecute.closeStep := by
  rw [State.afterExecute_closeStep]
  split
  · exact h
  · exact State.frameInv_environmentTurn _

theorem step_keeps_frameInv {s t : State} (hs : FrameInv s) (h : step s = .next t) : FrameInv t := by
  rcases step_cases h with ⟨-, -, rfl⟩ | ⟨-, -, -, rfl⟩ | ⟨-, u, hu, rfl⟩
  · exact hs
  · exact hs
  · exact (exec_keeps_frameInv (s := s.pollTimers.fetched) hs hu).closeStep

/-! ### The fault status -/

theorem Completes.faultCause_eq {i : Instr} {s t : State} (hc : Completes s i t) : t.faultCause = s.faultCause := by
  cases hc with
  | loadsRegs => rw [State.setRegs_eq]; rfl
  | draws => rw [drawSprite_eq]
  | _ => rfl

/-- Every fault an instruction raises has a cause (R211). -/
theorem RaisesFault.cause_ne_none {i : Instr} {s : State} {cause : FaultCause} {info : Word}
    (h : RaisesFault i s cause info) : cause ≠ .none := by
  rcases h with ⟨rfl, -⟩ | ⟨rfl, -⟩ | ⟨rfl, -⟩ | ⟨rfl, -⟩ | ⟨rfl, -⟩ <;> exact nofun

theorem State.statusInv_raiseFault (s : State) {cause : FaultCause} (info : Word) (h : cause ≠ .none) :
    StatusInv (s.raiseFault cause info) :=
  ⟨fun _ => h, fun _ => rfl⟩

theorem exec_keeps_statusInv {i : Instr} {s t : State} (hs : StatusInv s) (h : exec i s = .next t) : StatusInv t := by
  rcases exec_cases h with hc | ⟨cause, info, hf, rfl⟩
  · rwa [StatusInv, hc.halted_eq, hc.faultCause_eq]
  · exact s.statusInv_raiseFault info hf.cause_ne_none

theorem step_keeps_statusInv {s t : State} (hs : StatusInv s) (h : step s = .next t) : StatusInv t := by
  rcases step_cases h with ⟨-, -, rfl⟩ | ⟨-, -, -, rfl⟩ | ⟨-, u, hu, rfl⟩
  · exact hs
  · exact State.statusInv_raiseFault { s.pollTimers with fetchAddr := s.pc } s.pc (cause := .fetchOutOfRange) nofun
  · rw [StatusInv, State.closeStep_halted, State.closeStep_faultCause]
    exact exec_keeps_statusInv (s := s.pollTimers.fetched) hs hu

end Sys2Proof.Machine

open Sys2Proof Sys2Proof.Machine

/-- Settles O58: the timer tests of a step keep `PolledFrom` the state before it, and the last is made at the sample that
the instruction action records. -/
theorem stepKeepsTheClock : Obligations.StepKeepsTheClock := by
  intro s t hs h
  cases hh : s.halted with
  | true =>
    rcases step_cases h with ⟨-, -, rfl⟩ | ⟨-, hrun, -⟩ | ⟨⟨-, hrun, -⟩, -⟩
    · exact ⟨hs, Nat.le_refl _, .inl rfl, nofun⟩
    · simp [hh] at hrun
    · simp [hh] at hrun
  | false =>
    obtain ⟨hTimer, hnow, hinsn, hrates⟩ := step_clock hh h
    obtain ⟨-, hahead, htested, hkept⟩ := hs.polledFrom_pollTimers
    have hlate := s.insnPeriod_le_lateSample
    rw [State.pollTimers_now] at htested
    rw [ClockInv, hTimer, hnow, hinsn, hrates]
    exact ⟨⟨hahead, htested, rfl⟩, hs.2.2 ▸ Nat.le_trans (Nat.le_add_right _ _) hlate, hkept, fun _ => hlate⟩

/-- Settles O59: no instruction closes the window before any present, nor halts the core without a cause. -/
theorem stepKeepsFrameAndStatus : Obligations.StepKeepsFrameAndStatus :=
  fun _ _ h => ⟨fun hs => step_keeps_frameInv hs h, fun hs => step_keeps_statusInv hs h⟩
end
